-- ==== Sys2Proof/Word.lean ====
section
/-! DEFINITION. The word types of MMRC (30_encoding.md rules R100 to R102, 20_memory.md rule R70): a port word is
32 bits, a sample, a configuration register or a channel value is 16 bits. Bit 0 is the least significant bit
(00_scope.md rule R12). -/

namespace Sys2Proof

/-- A P-port command word, a T-port tick word or a response (30_encoding.md rules R100, R101, R102). -/
abbrev Word := BitVec 32

/-- A ring sample, a configuration register, a channel value: the smallest unit a command reads or writes
(20_memory.md rule R70). -/
abbrev Half := BitVec 16

end Sys2Proof
end

