-- ==== Sys2Proof/Config.lean ====
section
/-! DEFINITION. The parameters of 00_scope.md rule R11. A parameter whose value the spec fixes is a plain
definition; a parameter the spec leaves OPEN is a constant with no body (nothing can be proved of its value beyond the
range its type gives), and so are the environment's draws (rule R9). -/

namespace Sys2Proof

/-- The rendering kind of a modulation slot (46_mixer.md rule R251). -/
inductive Kind where
  /-- the slot does not render -/
  | off
  /-- one-shot envelope -/
  | env
  /-- free-running oscillator -/
  | lfo
deriving DecidableEq, Repr, Inhabited

/-- E_MAX: the largest trigger-delay exponent (rule R11). -/
def eMax : Nat := 7
/-- S_MAX: the number of meta-sequencer step entries (rule R11). -/
def sMax : Nat := 64
/-- TM_MAX: the largest Turing register length (rule R11). -/
def tmMax : Nat := 32
/-- TM_UNIT: pitch units per TM_SCALE unit (rule R11). -/
def tmUnit : Int := 128
/-- OUT_INVERT: the DAC polarity of this hardware (rule R11). -/
def outInvert : Bool := false
/-- DEPTH_SHIFT: right shift after a depth product (rule R11). -/
def depthShift : Nat := 15
/-- XMOD_SHIFT: right shift after the cross-modulation product (rule R11). -/
def xmodShift : Nat := 24

/-- The parameters that 00_scope.md rule R11 leaves OPEN, each with its stated range. They are fixed for one machine. -/
structure Params where
  /-- N, ring slots -/
  N : Nat
  /-- B, samples per block -/
  B : Nat
  /-- SCAN_LEN, ticks per ADC scan cycle -/
  scanLen : Nat
  /-- ADC_BITS, significant bits of an ADC result -/
  adcBits : Nat
  /-- TM_SCALE, 16 signed 16-bit entries -/
  tmScale : Vector Half 16
  /-- MOD_KIND, the kind of each mode value -/
  modKind : Vector Kind 8
  /-- PARAM_MAX, upper clamp of timbre and color -/
  paramMax : Nat
  N_ge : 2 ≤ N
  N_le : N ≤ 256
  B_ge : 1 ≤ B
  B_le : B ≤ 1024
  scanLen_ge : 1 ≤ scanLen
  scanLen_le : scanLen ≤ 65535
  adcBits_ge : 1 ≤ adcBits
  adcBits_le : adcBits ≤ 16
  paramMax_ge : 1 ≤ paramMax
  paramMax_le : paramMax ≤ 65535
  modKind_zero : modKind[0] = Kind.off
  modKind_two : modKind[2] ≠ Kind.off
deriving DecidableEq, Repr

/-- RESET_C, the reset value of consume_at (rule R11). -/
def Params.resetC (P : Params) : Nat := P.N / 2

/-! ### The constants with no body -/

/-- N - 2: N is OPEN in 2..256. -/
opaque Config.slotsAboveTwo : Fin 255
/-- B - 1: B is OPEN in 1..1024. -/
opaque Config.blockAboveOne : Fin 1024
/-- SCAN_LEN - 1: SCAN_LEN is OPEN in 1..65535. -/
opaque Config.scanAboveOne : Fin 65535
/-- ADC_BITS - 1: ADC_BITS is OPEN in 1..16. -/
opaque Config.adcBitsAboveOne : Fin 16
/-- PARAM_MAX - 1: PARAM_MAX is OPEN in 1..65535. -/
opaque Config.paramMaxAboveOne : Fin 65535
/-- The contents of TM_SCALE are OPEN. -/
opaque Config.scaleEntry : Fin 16 → Half
/-- MOD_KIND of every mode value other than 0 and 2 is OPEN. -/
opaque Config.modeKind : Fin 8 → Kind
/-- MOD_KIND[2] is OPEN in ENV, LFO. -/
opaque Config.modeTwoIsLfo : Bool
/-- The random word the environment returns at the n-th draw from a port on which no word stands ready: a draw, under
no law (rule R9). -/
opaque Config.randomWord : Nat → Word
/-- The ADC result the environment returns at the n-th complete scan cycle for a channel, when none stands ready on the
port: a draw (rule R9), brought into [0, 2^ADC_BITS) where it is read. -/
opaque Config.adcResult : Nat → Fin 4 → Half

/-- MOD_KIND of the machine: OFF at mode 0, ENV or LFO at mode 2, OPEN elsewhere (rule R11). -/
def Config.kindTable : Vector Kind 8 :=
  Vector.ofFn fun i =>
    if i = 0 then .off
    else if i = 2 then (if Config.modeTwoIsLfo then .lfo else .env)
    else Config.modeKind i

/-- The parameters of the machine, each OPEN within the range of rule R11. -/
def Config.params : Params where
  N := Config.slotsAboveTwo + 2
  B := Config.blockAboveOne + 1
  scanLen := Config.scanAboveOne + 1
  adcBits := Config.adcBitsAboveOne + 1
  tmScale := Vector.ofFn Config.scaleEntry
  modKind := Config.kindTable
  paramMax := Config.paramMaxAboveOne + 1
  N_ge := by omega
  N_le := by omega
  B_ge := by omega
  B_le := by omega
  scanLen_ge := by omega
  scanLen_le := by omega
  adcBits_ge := by omega
  adcBits_le := by omega
  paramMax_ge := by omega
  paramMax_le := by omega
  modKind_zero := by simp [Config.kindTable]
  modKind_two := by
    have h : (Config.kindTable)[2] = (if Config.modeTwoIsLfo then Kind.lfo else Kind.env) := by
      simp [Config.kindTable]
    rw [h]
    split <;> decide

end Sys2Proof
end

