-- ==== Sys2Proof/Syntax.lean ====
section
/-! DEFINITION. The instructions of MMRC: one constructor per row of spec/opcode_table.json, with the operands the
row's rule reads (30_encoding.md rules R103, R104), and the names of the configuration registers (10_state.md rule
R40). -/

namespace Sys2Proof

/-- The two input ports (00_scope.md rule R8, 60_exceptions.md rule R290). -/
inductive Port where
  /-- the producer command port -/
  | P
  /-- the sample-clock tick port -/
  | T
deriving DecidableEq, Repr

/-- A command or a tick. An index operand A is an unsigned index, never scaled or shifted (rule R103), so it is a
`Nat`; `Instr.wellFormed` bounds it by the 11 bits of its field. -/
inductive Instr where
  /-- 40_system.md rule R120 -/
  | nop
  /-- 41_ring.md rule R141 -/
  | ringStatus
  /-- 41_ring.md rule R142 -/
  | ringAcquire
  /-- 41_ring.md rule R143 -/
  | ringWrite (off : Nat) (sample : Half)
  /-- 41_ring.md rule R144 -/
  | ringReadmask (group : Nat)
  /-- 41_ring.md rule R146 -/
  | ringAdvance
  /-- 40_system.md rule R121 -/
  | errRead
  /-- 40_system.md rule R124 -/
  | errClear (mask : BitVec 5)
  /-- 42_trigger.md rule R166 -/
  | trigTake
  /-- 42_trigger.md rule R167 -/
  | trigStatus
  /-- 43_adc_scan.md rule R182 -/
  | adcRead (ch : Nat)
  /-- 43_adc_scan.md rule R183 -/
  | adcStatus
  /-- 40_system.md rule R123 -/
  | cfgWrite (addr : Nat) (value : Half)
  /-- 40_system.md rule R122 -/
  | cfgRead (addr : Nat)
  /-- 45_sequencer.md rule R212 -/
  | seqMetaClock (t : Bool)
  /-- 45_sequencer.md rule R216 -/
  | seqMetaRead (sel : Nat)
  /-- 45_sequencer.md rule R220 -/
  | seqTmClock (t : Bool)
  /-- 45_sequencer.md rule R224 -/
  | seqTmRead (sel : Nat)
  /-- 46_mixer.md rule R254 -/
  | mixRate (slot : Nat) (cv : Half)
  /-- 46_mixer.md rule R255 -/
  | mixLevel (slot : Nat) (level : Half)
  /-- 46_mixer.md rule R256 -/
  | mixCombine
  /-- 46_mixer.md rule R260 -/
  | mixRead (sel : Nat)
  /-- 44_tick.md rule R190 -/
  | tick (g : Bool)
deriving DecidableEq, Repr

/-- The port that accepts an instruction: only TICK on the T-port, everything else on the P-port (60_exceptions.md
rule R290). -/
def Instr.port : Instr → Port
  | .nop => .P
  | .ringStatus => .P
  | .ringAcquire => .P
  | .ringWrite _ _ => .P
  | .ringReadmask _ => .P
  | .ringAdvance => .P
  | .errRead => .P
  | .errClear _ => .P
  | .trigTake => .P
  | .trigStatus => .P
  | .adcRead _ => .P
  | .adcStatus => .P
  | .cfgWrite _ _ => .P
  | .cfgRead _ => .P
  | .seqMetaClock _ => .P
  | .seqMetaRead _ => .P
  | .seqTmClock _ => .P
  | .seqTmRead _ => .P
  | .mixRate _ _ => .P
  | .mixLevel _ _ => .P
  | .mixCombine => .P
  | .mixRead _ => .P
  | .tick _ => .T

/-- The configuration registers of 10_state.md rule R40. -/
inductive CfgReg where
  | id
  | cfgN
  | cfgB
  | cfgScan
  | ctrl
  | trigCfg
  | metaCtrl
  | metaDiv
  | tmCtrl
  | tmDiv
  | tmThresh
  | stepShape (i : Fin 64)
  | stepPitch (i : Fin 64)
  | stepAux (i : Fin 64)
  | stepRepeat (i : Fin 64)
  | modCtrl (k : Fin 2)
  | modRate (k : Fin 2)
  | modRatio (k : Fin 2)
  | modDepthT (k : Fin 2)
  | modDepthC (k : Fin 2)
  | modDepthV (k : Fin 2)
  | modDepthG (k : Fin 2)
  | xmodDepth
  | route
  | baseT
  | baseC
  | baseG
deriving DecidableEq, Repr

end Sys2Proof
end

