-- ==== Sys2Proof/WellFormed.lean ====
section
/-! DEFINITION. Which terms of `Instr` an encoding can carry: an index operand is the 11-bit field A, a value in
[0, 2047] (30_encoding.md rule R103). Every other operand has its field's width as its type. -/

namespace Sys2Proof

/-- The number of values of the index field A (30_encoding.md rule R100). -/
def indexBound : Nat := 2048

/-- The instruction's index operand, if it has one, fits the 11 bits of field A. -/
def Instr.wellFormed : Instr → Bool
  | .nop => true
  | .ringStatus => true
  | .ringAcquire => true
  | .ringWrite off _ => decide (off < indexBound)
  | .ringReadmask group => decide (group < indexBound)
  | .ringAdvance => true
  | .errRead => true
  | .errClear _ => true
  | .trigTake => true
  | .trigStatus => true
  | .adcRead ch => decide (ch < indexBound)
  | .adcStatus => true
  | .cfgWrite addr _ => decide (addr < indexBound)
  | .cfgRead addr => decide (addr < indexBound)
  | .seqMetaClock _ => true
  | .seqMetaRead sel => decide (sel < indexBound)
  | .seqTmClock _ => true
  | .seqTmRead sel => decide (sel < indexBound)
  | .mixRate slot _ => decide (slot < indexBound)
  | .mixLevel slot _ => decide (slot < indexBound)
  | .mixCombine => true
  | .mixRead sel => decide (sel < indexBound)
  | .tick _ => true

end Sys2Proof
end

