-- ==== Sys2Proof/Decode.lean ====
section
/-! DEFINITION. The decoder of both ports (30_encoding.md rules R100 to R110), total on every word, and the encoder
written from the same formats. -/

namespace Sys2Proof

/-! ### Fields of a port word -/

/-- OP, bits [31:27] (rule R100). -/
def opField (w : Word) : Nat := w.toNat / 2 ^ 27

/-- A, bits [26:16], an unsigned index (rules R100, R103). -/
def aField (w : Word) : Nat := w.toNat / 2 ^ 16 % 2 ^ 11

/-- D, bits [15:0] (rule R100). -/
def dField (w : Word) : Half := BitVec.ofNat 16 w.toNat

/-- Bit 0: the operand t of the clock commands (rule R103), G of a tick word (rule R101). -/
def bitZero (w : Word) : Bool := decide (w.toNat % 2 = 1)

/-- Bits [4:0] of D: the operand of ERR_CLEAR (rule R103). -/
def maskField (w : Word) : BitVec 5 := BitVec.ofNat 5 w.toNat

/-! ### The decoder -/

/-- Why a word names no instruction on its port. -/
inductive DecodeError where
  /-- a P-port word with a reserved opcode (rule R105) -/
  | reservedOpcode (op : Nat)
  /-- a T-port word whose opcode is not TICK's (rule R101) -/
  | notATick (op : Nat)
deriving DecidableEq, Repr

/-- Decode of a P-port word: OP alone selects the command; bits its rule does not read are dropped (rules R104, R105,
R106, R110). -/
def decodeP (w : Word) : Except DecodeError Instr :=
  match opField w with
  | 0x00 => .ok .nop
  | 0x01 => .ok .ringStatus
  | 0x02 => .ok .ringAcquire
  | 0x03 => .ok (.ringWrite (aField w) (dField w))
  | 0x04 => .ok (.ringReadmask (aField w))
  | 0x05 => .ok .ringAdvance
  | 0x06 => .ok .errRead
  | 0x07 => .ok (.errClear (maskField w))
  | 0x08 => .ok .trigTake
  | 0x09 => .ok .trigStatus
  | 0x0A => .ok (.adcRead (aField w))
  | 0x0B => .ok .adcStatus
  | 0x0C => .ok (.cfgWrite (aField w) (dField w))
  | 0x0D => .ok (.cfgRead (aField w))
  | 0x10 => .ok (.seqMetaClock (bitZero w))
  | 0x11 => .ok (.seqMetaRead (aField w))
  | 0x12 => .ok (.seqTmClock (bitZero w))
  | 0x13 => .ok (.seqTmRead (aField w))
  | 0x18 => .ok (.mixRate (aField w) (dField w))
  | 0x19 => .ok (.mixLevel (aField w) (dField w))
  | 0x1A => .ok .mixCombine
  | 0x1B => .ok (.mixRead (aField w))
  | op => .error (.reservedOpcode op)

/-- Decode of a T-port word: TICK or nothing (rules R101, R110). -/
def decodeT (w : Word) : Except DecodeError Instr :=
  if opField w = 0x1F then .ok (.tick (bitZero w)) else .error (.notATick (opField w))

/-- Decode of a word on a port (rule R110). -/
def decode : Port → Word → Except DecodeError Instr
  | .P, w => decodeP w
  | .T, w => decodeT w

/-! ### The encoder -/

/-- The opcode of an instruction (rule R104). -/
def Instr.opcode : Instr → Nat
  | .nop => 0x00
  | .ringStatus => 0x01
  | .ringAcquire => 0x02
  | .ringWrite _ _ => 0x03
  | .ringReadmask _ => 0x04
  | .ringAdvance => 0x05
  | .errRead => 0x06
  | .errClear _ => 0x07
  | .trigTake => 0x08
  | .trigStatus => 0x09
  | .adcRead _ => 0x0A
  | .adcStatus => 0x0B
  | .cfgWrite _ _ => 0x0C
  | .cfgRead _ => 0x0D
  | .seqMetaClock _ => 0x10
  | .seqMetaRead _ => 0x11
  | .seqTmClock _ => 0x12
  | .seqTmRead _ => 0x13
  | .mixRate _ _ => 0x18
  | .mixLevel _ _ => 0x19
  | .mixCombine => 0x1A
  | .mixRead _ => 0x1B
  | .tick _ => 0x1F

/-- The value of field A: the index operand, 0 where the instruction has none (rule R103). -/
def Instr.operandA : Instr → Nat
  | .nop => 0
  | .ringStatus => 0
  | .ringAcquire => 0
  | .ringWrite off _ => off
  | .ringReadmask group => group
  | .ringAdvance => 0
  | .errRead => 0
  | .errClear _ => 0
  | .trigTake => 0
  | .trigStatus => 0
  | .adcRead ch => ch
  | .adcStatus => 0
  | .cfgWrite addr _ => addr
  | .cfgRead addr => addr
  | .seqMetaClock _ => 0
  | .seqMetaRead sel => sel
  | .seqTmClock _ => 0
  | .seqTmRead sel => sel
  | .mixRate slot _ => slot
  | .mixLevel slot _ => slot
  | .mixCombine => 0
  | .mixRead sel => sel
  | .tick _ => 0

/-- The value of field D: the data operand, 0 where the instruction has none (rule R103). -/
def Instr.operandD : Instr → Nat
  | .nop => 0
  | .ringStatus => 0
  | .ringAcquire => 0
  | .ringWrite _ sample => sample.toNat
  | .ringReadmask _ => 0
  | .ringAdvance => 0
  | .errRead => 0
  | .errClear mask => mask.toNat
  | .trigTake => 0
  | .trigStatus => 0
  | .adcRead _ => 0
  | .adcStatus => 0
  | .cfgWrite _ value => value.toNat
  | .cfgRead _ => 0
  | .seqMetaClock t => t.toNat
  | .seqMetaRead _ => 0
  | .seqTmClock t => t.toNat
  | .seqTmRead _ => 0
  | .mixRate _ cv => cv.toNat
  | .mixLevel _ level => level.toNat
  | .mixCombine => 0
  | .mixRead _ => 0
  | .tick g => g.toNat

/-- The word of an instruction: `OP * 2^27 + A * 2^16 + D` (rule R100), with 0 in every bit its rule does not read. -/
def encode (i : Instr) : Word :=
  BitVec.ofNat 32 (i.opcode * 2 ^ 27 + i.operandA * 2 ^ 16 + i.operandD)

/-! ### The opcode table's numbering -/

/-- The port a row of the opcode table stands on: the T-port for TICK's opcode, which names nothing on the P-port, and
the P-port for every other word (rule R104). -/
def tablePort (w : Word) : Port := if opField w = 0x1F then .T else .P

/-- The word whose low `nbits` bits are those of `w` and whose other bits are 0. A port word has no byte order
(20_memory.md rule R70). -/
def tableWord (nbits w : Nat) : Word := BitVec.ofNat 32 (w % 2 ^ nbits)

/-- The instruction the decoder reads from a row of the opcode table. -/
def decodeTableWord (nbits w : Nat) : Option Instr :=
  match decode (tablePort (tableWord nbits w)) (tableWord nbits w) with
  | .ok i => some i
  | .error _ => none

end Sys2Proof
end

