-- ==== Sys2Proof/Machine/State.lean ====
section
/-! DEFINITION. The state of MMRC: every piece of state of 10_state.md, unit by unit, then the model's own fields
(the parameters of one machine, the ports' inputs and outputs), and the state after reset (70_reset_and_hazards.md
rule R310). -/

namespace Sys2Proof.Machine

/-- A storage space of `w`-bit elements (10_state.md rule R47): index and value pairs in canonical form, an unlisted
index reading as 0, the reset content of every space (rules R24, R40). `Memory.wf` says the form. -/
abbrev Memory (w : Nat) := List (Nat × BitVec w)

/-- RING (10_state.md rules R23 to R25). -/
structure Ring where
  /-- produce_at -/
  p : BitVec 8
  /-- consume_at -/
  c : BitVec 8
  /-- the consumer's sample position -/
  s : BitVec 10
  /-- RingSample, indexed by `ringIndex slot off` -/
  sample : Memory 16
  /-- RingMask, indexed by `ringIndex slot off` -/
  mask : Memory 1
deriving DecidableEq, Repr

/-- TRIG (10_state.md rule R29). -/
structure Trig where
  detected : Bool
  delay : BitVec 8
  fired : Bool
deriving DecidableEq, Repr

/-- SCAN (10_state.md rule R31). -/
structure Scan where
  /-- scan_phase -/
  phase : BitVec 16
  /-- ch_value[0..3] -/
  chValue : Vector Half 4
deriving DecidableEq, Repr

/-- The meta-sequencer (10_state.md rule R32). -/
structure MetaSeq where
  /-- m_idx -/
  idx : BitVec 7
  /-- m_rep -/
  rep : BitVec 8
  /-- m_div -/
  div : BitVec 8
  /-- m_dir: false is ascending, true is descending -/
  dir : Bool
  /-- m_shape -/
  shape : BitVec 8
  /-- m_pitch, an i16 -/
  pitch : Half
  /-- m_aux -/
  aux : Half
deriving DecidableEq, Repr

/-- The Turing sequencer (10_state.md rule R33). -/
structure TmSeq where
  /-- tm_reg -/
  reg : BitVec 32
  /-- tm_pos -/
  pos : BitVec 6
  /-- tm_div -/
  div : BitVec 8
  /-- tm_pitch, an i16 -/
  pitch : Half
deriving DecidableEq, Repr

/-- One modulation slot of MIX (10_state.md rule R34). -/
structure MixSlot where
  rate : BitVec 7
  atk : BitVec 7
  dec : BitVec 7
  level : Half
deriving DecidableEq, Repr

/-- MIX (10_state.md rule R34). -/
structure Mixer where
  slots : Vector MixSlot 2
  /-- out_timbre -/
  timbre : Half
  /-- out_color -/
  color : Half
  /-- out_gain -/
  gain : Half
  /-- out_vib, an i32 -/
  vib : BitVec 32
deriving DecidableEq, Repr

/-- What the environment's input ports will return (60_exceptions.md rule R292): words that stand ready, and how many
were drawn. When none stands ready the draw is a free value (00_scope.md rule R9). -/
structure EnvPorts where
  /-- random words standing ready, next first -/
  random : List Word
  /-- random words drawn so far -/
  randomTaken : Nat
  /-- ADC results standing ready, one entry a complete scan cycle, next first -/
  adc : List (Vector Half 4)
  /-- complete scan cycles whose results were drawn so far -/
  adcTaken : Nat
deriving DecidableEq, Repr

/-- What the outside presents at one instant (60_exceptions.md rules R285, R292, 70_reset_and_hazards.md rule R311). -/
structure Instant where
  /-- the reset line is asserted -/
  reset : Bool := false
  /-- a word on the T-port -/
  tick : Option Word := none
  /-- a word on the P-port -/
  command : Option Word := none
deriving DecidableEq, Repr

/-- What MMRC puts on an output port (60_exceptions.md rule R292). -/
inductive PortOut where
  /-- the P-port response of one command -/
  | resp (w : Word)
  /-- a word on the DAC port -/
  | dac (v : Half)
  /-- a push of the four channel values on the UI port -/
  | ui (v : Vector Half 4)
deriving DecidableEq, Repr

/-- The machine. -/
structure State where
  /-- RING -/
  ring : Ring
  /-- TRIG -/
  trig : Trig
  /-- SCAN -/
  scan : Scan
  /-- SEQ, the meta-sequencer -/
  metaSeq : MetaSeq
  /-- SEQ, the Turing sequencer -/
  tmSeq : TmSeq
  /-- MIX -/
  mix : Mixer
  /-- the sticky error register (10_state.md rule R35) -/
  err : BitVec 5
  /-- the read-write configuration registers by address (10_state.md rule R40) -/
  cfg : Memory 16
  /-- the model's own: the machine's parameters (00_scope.md rule R11), which no step changes -/
  par : Params
  /-- the model's own: the environment's input ports -/
  env : EnvPorts
  /-- the model's own: what the two command ports and the reset line will present, next first -/
  inbox : List Instant
  /-- the model's own: what the output ports have carried, oldest first -/
  out : List PortOut
deriving DecidableEq, Repr

/-- The faults of MMRC: none. No error stops a command or a tick (60_exceptions.md rule R280); the events the spec
calls errors set a bit of `err`, and their step has a next state. -/
inductive Fault where
deriving DecidableEq, Repr

/-- The refusals. -/
inductive Refusal where
  /-- Raised by an arm of `exec` whose instruction has no meaning yet: safe, nothing is claimed of it. No arm does. -/
  | notModelled (mnemonic : String)
deriving DecidableEq, Repr

/-- What a step or a meaning answers. -/
abbrev Result := Host.Outcome State Fault Refusal

/-- The state of a machine with parameters `P` after reset (70_reset_and_hazards.md rule R310), with nothing presented
and nothing put out. -/
def State.resetWith (P : Params) : State where
  ring := { p := 0, c := BitVec.ofNat 8 P.resetC, s := 0, sample := [], mask := [] }
  trig := { detected := false, delay := 0, fired := false }
  scan := { phase := 0, chValue := Vector.replicate 4 0 }
  metaSeq := { idx := 0, rep := 0, div := 0, dir := false, shape := 0, pitch := 0, aux := 0 }
  tmSeq := { reg := 0, pos := 0, div := 0, pitch := 0 }
  mix :=
    { slots := Vector.replicate 2 { rate := 0, atk := 0, dec := 0, level := 0 }
      timbre := 0, color := 0, gain := 0, vib := 0 }
  err := 0
  cfg := []
  par := P
  env := { random := [], randomTaken := 0, adc := [], adcTaken := 0 }
  inbox := []
  out := []

/-- The machine right after reset (70_reset_and_hazards.md rule R310). -/
def State.reset : State := State.resetWith Config.params

end Sys2Proof.Machine
end

