-- ==== Sys2Proof/Machine/Operands.lean ====
section
/-! DEFINITION. Bit fields, signed readings and the arithmetic primitives of 00_scope.md rules R12 and R13, all on
mathematical integers, and the operand readings of 30_encoding.md rule R103. -/

namespace Sys2Proof.Machine

/-- `v[hi:lo]` as an unsigned number (rule R12). -/
def bits {w : Nat} (v : BitVec w) (hi lo : Nat) : Nat := v.toNat / 2 ^ lo % 2 ^ (hi + 1 - lo)

/-- `v[i]` (rule R12). -/
def bitAt {w : Nat} (v : BitVec w) (i : Nat) : Bool := decide (bits v i i = 1)

/-- `sext_16(v)` (rule R13). -/
def sext16 (v : Half) : Int := v.toInt

/-- `zext(v)` (rule R13). -/
def zext {w : Nat} (v : BitVec w) : Nat := v.toNat

/-- `a >>a k`: floor(a / 2^k) (rule R13). -/
def asr (a : Int) (k : Nat) : Int := a / 2 ^ k

/-- `clamp(x, lo, hi)` (rule R13). -/
def clamp (x lo hi : Int) : Int := if x < lo then lo else if hi < x then hi else x

/-- `sat16(x)` (rule R13). -/
def sat16 (x : Int) : Int := clamp x (-32768) 32767

/-- A Boolean flag as the number its bit stands for. -/
def flagBit (b : Bool) : Nat := b.toNat

/-- A number written to a 16-bit register. -/
def toHalf (x : Int) : Half := BitVec.ofInt 16 x

end Sys2Proof.Machine
end

