-- ==== Sys2Proof/Machine/Flags.lean ====
section
/-! DEFINITION. The error register and the computed flags: the bits of `err` (10_state.md rule R35), the FREE
predicate and the waiting count of the ring (rules R26, R27), and the response's E bit (30_encoding.md rule R102). -/

namespace Sys2Proof.Machine

/-- The error causes (60_exceptions.md rule R282). -/
inductive ErrCause where
  | ill
  | ovr
  | rng
  | udr
  | row
deriving DecidableEq, Repr

/-- The bit number of a cause in `err` (10_state.md rule R35). -/
def ErrCause.bit : ErrCause → Nat
  | .ill => 0
  | .ovr => 1
  | .rng => 2
  | .udr => 3
  | .row => 4

/-- `err` with the bit of a cause set (60_exceptions.md rule R281). -/
def errSet (e : BitVec 5) (cause : ErrCause) : BitVec 5 := e ||| BitVec.ofNat 5 (2 ^ cause.bit)

/-- `err` with the bits of a mask cleared (40_system.md rule R124). -/
def errCleared (e mask : BitVec 5) : BitVec 5 := e &&& ~~~mask

/-- The bit of a cause is set. -/
def errHas (e : BitVec 5) (cause : ErrCause) : Bool := e.getLsbD cause.bit

/-- The response of a command that raised an error and stopped: the E bit alone (30_encoding.md rule R102,
60_exceptions.md rule R281). -/
def errorResponse : Nat := 0x80000000

/-- FREE: the producer may write (10_state.md rule R26). -/
def ringFree (s : State) : Bool := decide (s.ring.p ≠ s.ring.c)

/-- The index after `i` on a ring of `N` slots: `(i + 1) mod N` (41_ring.md rules R146, R147). -/
def nextSlot (N : Nat) (i : BitVec 8) : BitVec 8 := BitVec.ofNat 8 ((i.toNat + 1) % N)

/-- W, the number of waiting slots: `(p - c - 1) mod N` (10_state.md rule R27). -/
def waiting (s : State) : Nat :=
  (((s.ring.p.toNat : Int) - s.ring.c.toNat - 1) % (s.par.N : Int)).toNat

end Sys2Proof.Machine
end

