-- ==== Sys2Proof/Machine/Ops.lean ====
section
/-! DEFINITION. The named operations over storage, the error register, the ports and the environment's draws, on which
every meaning is written. MMRC has no trap (60_exceptions.md rule R280): `State.raise` is the one operation by which an
error is recorded (rule R281), `State.reject` the one by which a command stops on it. -/

namespace Sys2Proof.Machine

/-! ### Storage spaces -/

/-- The element at an index; 0 where none is listed, the reset content of every space (10_state.md rules R24, R40). -/
def Memory.read {w : Nat} : Memory w → Nat → BitVec w
  | [], _ => 0
  | (a, v) :: rest, i => if i = a then v else Memory.read rest i

/-- The space with the element at an index replaced, in canonical form: writing 0 removes the entry. -/
def Memory.write {w : Nat} : Memory w → Nat → BitVec w → Memory w
  | [], i, x => if x = 0 then [] else [(i, x)]
  | (a, v) :: rest, i, x =>
    if i < a then (if x = 0 then (a, v) :: rest else (i, x) :: (a, v) :: rest)
    else if i = a then (if x = 0 then rest else (i, x) :: rest)
    else (a, v) :: Memory.write rest i x

/-- Every listed index is at least `lo`, the indices rise strictly, and no listed element is 0. -/
def Memory.wfFrom {w : Nat} : Nat → Memory w → Bool
  | _, [] => true
  | lo, (a, v) :: rest => decide (lo ≤ a) && decide (v ≠ 0) && Memory.wfFrom (a + 1) rest

/-- The canonical form. -/
def Memory.wf {w : Nat} (m : Memory w) : Bool := Memory.wfFrom 0 m

/-- The index of `(slot, off)` in the ring spaces (10_state.md rule R47); off is below 1024 (00_scope.md rule R11). -/
def ringIndex (slot off : Nat) : Nat := slot * 1024 + off

/-- `MemRead(RingSample, slot, off)` (00_scope.md rule R14). -/
def State.sampleAt (s : State) (slot off : Nat) : Half := s.ring.sample.read (ringIndex slot off)

/-- `MemWrite(RingSample, slot, off, v)` (00_scope.md rule R14). -/
def State.writeSample (s : State) (slot off : Nat) (v : Half) : State :=
  { s with ring := { s.ring with sample := s.ring.sample.write (ringIndex slot off) v } }

/-- `RingMask[slot][off]` (10_state.md rule R24). -/
def State.maskAt (s : State) (slot off : Nat) : Bool :=
  decide (s.ring.mask.read (ringIndex slot off) = 1)

/-- `RingMask[slot][off] <- g` (10_state.md rule R24). -/
def State.writeMask (s : State) (slot off : Nat) (g : Bool) : State :=
  { s with ring := { s.ring with mask := s.ring.mask.write (ringIndex slot off) (BitVec.ofBool g) } }

/-! ### Output ports -/

/-- Put a word on an output port (60_exceptions.md rule R292). -/
def State.emit (s : State) (o : PortOut) : State := { s with out := s.out ++ [o] }

/-- `resp <- n` and the end of the command: its one response (30_encoding.md rule R102). -/
def State.respond (s : State) (n : Nat) : State := s.emit (.resp (BitVec.ofNat 32 n))

/-! ### Errors -/

/-- `raise E`: the sticky bit of the cause (60_exceptions.md rule R281). -/
def State.raise (s : State) (cause : ErrCause) : State := { s with err := errSet s.err cause }

/-- `raise E; resp <- 0x80000000; return` (60_exceptions.md rule R281). -/
def State.reject (s : State) (cause : ErrCause) : State := (s.raise cause).respond errorResponse

/-- A word that names no instruction on its port: ILL; a P-port word has a response, a T-port word has none
(30_encoding.md rules R101, R105, R110). -/
def State.rejectWord (s : State) : Port → State
  | .P => s.reject .ill
  | .T => s.raise .ill

/-! ### Draws -/

/-- The word the random port returns next: the one that stands ready, else a free value (00_scope.md rule R9). -/
def nextRandom (e : EnvPorts) : Word :=
  match e.random with
  | w :: _ => w
  | [] => Config.randomWord e.randomTaken

/-- The random port after a draw. -/
def afterRandom (e : EnvPorts) : EnvPorts :=
  { e with random := e.random.tail, randomTaken := e.randomTaken + 1 }

/-- `RngDraw()` (00_scope.md rule R14). -/
def State.drawRandom (s : State) : Word × State := (nextRandom s.env, { s with env := afterRandom s.env })

/-- An ADC result brought into [0, 2^ADC_BITS), the range of `AdcSample` (00_scope.md rule R14). -/
def adcInRange (P : Params) (v : Half) : Half := BitVec.ofNat 16 (v.toNat % 2 ^ P.adcBits)

/-- `AdcSample(0..3)` of one complete cycle: the results that stand ready, else free values, in range (00_scope.md
rules R9, R14). -/
def nextAdc (P : Params) (e : EnvPorts) : Vector Half 4 :=
  match e.adc with
  | v :: _ => v.map (adcInRange P)
  | [] => (Vector.ofFn (Config.adcResult e.adcTaken)).map (adcInRange P)

/-- The ADC port after the draws of one complete cycle. -/
def afterAdc (e : EnvPorts) : EnvPorts := { e with adc := e.adc.tail, adcTaken := e.adcTaken + 1 }

end Sys2Proof.Machine
end

