-- ==== Sys2Proof/Machine/CfgMap.lean ====
section
/-! DEFINITION. The configuration map of 10_state.md rule R40: addresses, defined bits, legal values, and the fields
the units read. -/

namespace Sys2Proof.Machine

/-- The address of a register (rule R40). -/
def cfgAddress : CfgReg → Nat
  | .id => 0x000
  | .cfgN => 0x001
  | .cfgB => 0x002
  | .cfgScan => 0x003
  | .ctrl => 0x004
  | .trigCfg => 0x010
  | .metaCtrl => 0x020
  | .metaDiv => 0x021
  | .tmCtrl => 0x022
  | .tmDiv => 0x023
  | .tmThresh => 0x024
  | .stepShape i => 0x040 + 4 * i
  | .stepPitch i => 0x041 + 4 * i
  | .stepAux i => 0x042 + 4 * i
  | .stepRepeat i => 0x043 + 4 * i
  | .modCtrl k => 0x300 + 0x10 * k
  | .modRate k => 0x301 + 0x10 * k
  | .modRatio k => 0x302 + 0x10 * k
  | .modDepthT k => 0x303 + 0x10 * k
  | .modDepthC k => 0x304 + 0x10 * k
  | .modDepthV k => 0x305 + 0x10 * k
  | .modDepthG k => 0x306 + 0x10 * k
  | .xmodDepth => 0x320
  | .route => 0x321
  | .baseT => 0x330
  | .baseC => 0x331
  | .baseG => 0x332

/-- The step register at an offset into the step table 0x040..0x13F (rule R40). -/
def stepRegister (i : Fin 64) : Nat → Option CfgReg
  | 0 => some (.stepShape i)
  | 1 => some (.stepPitch i)
  | 2 => some (.stepAux i)
  | 3 => some (.stepRepeat i)
  | _ => none

/-- The modulation register of a slot at an offset (rule R40). -/
def modRegister (k : Fin 2) : Nat → Option CfgReg
  | 0 => some (.modCtrl k)
  | 1 => some (.modRate k)
  | 2 => some (.modRatio k)
  | 3 => some (.modDepthT k)
  | 4 => some (.modDepthC k)
  | 5 => some (.modDepthV k)
  | 6 => some (.modDepthG k)
  | _ => none

/-- The registers outside the step table and the modulation slots (rule R40). -/
def singleRegister (a : Nat) : Option CfgReg :=
  if a = 0x000 then some .id
  else if a = 0x001 then some .cfgN
  else if a = 0x002 then some .cfgB
  else if a = 0x003 then some .cfgScan
  else if a = 0x004 then some .ctrl
  else if a = 0x010 then some .trigCfg
  else if a = 0x020 then some .metaCtrl
  else if a = 0x021 then some .metaDiv
  else if a = 0x022 then some .tmCtrl
  else if a = 0x023 then some .tmDiv
  else if a = 0x024 then some .tmThresh
  else if a = 0x320 then some .xmodDepth
  else if a = 0x321 then some .route
  else if a = 0x330 then some .baseT
  else if a = 0x331 then some .baseC
  else if a = 0x332 then some .baseG
  else none

/-- The register at a configuration address, none where the address is unmapped (rules R40, R44). -/
def cfgRegister (a : Nat) : Option CfgReg :=
  if 0x040 ≤ a ∧ a < 0x140 then stepRegister (Fin.ofNat 64 ((a - 0x040) / 4)) ((a - 0x040) % 4)
  else if 0x300 ≤ a ∧ a < 0x310 then modRegister 0 (a - 0x300)
  else if 0x310 ≤ a ∧ a < 0x320 then modRegister 1 (a - 0x310)
  else singleRegister a

/-- The RO registers (rule R43). -/
def cfgReadOnly : CfgReg → Bool
  | .id => true
  | .cfgN => true
  | .cfgB => true
  | .cfgScan => true
  | _ => false

/-- The bits of a register that are not reserved (rules R40, R41). -/
def cfgDefinedBits : CfgReg → Half
  | .ctrl => 0x0001
  | .trigCfg => 0x0007
  | .metaCtrl => 0x037F
  | .metaDiv => 0x00FF
  | .tmCtrl => 0x173F
  | .tmDiv => 0x00FF
  | .stepShape _ => 0x00FF
  | .stepRepeat _ => 0x00FF
  | .modCtrl _ => 0x000F
  | .modRate _ => 0x007F
  | .modRatio _ => 0x007F
  | .route => 0x000F
  | _ => 0xFFFF

/-- META_CTRL with its WARL fields legal: LEN above 64 stores 64, DIR 3 stores 0 (rule R40). -/
def legalMetaCtrl (v : Half) : Half :=
  BitVec.ofNat 16 (min (bits v 6 0) sMax + (if bits v 9 8 = 3 then 0 else bits v 9 8) * 2 ^ 8)

/-- TM_CTRL with its WARL fields legal: LEN above 32 stores 32, WIN above 4 stores 4 (rule R40). -/
def legalTmCtrl (v : Half) : Half :=
  BitVec.ofNat 16 (min (bits v 5 0) tmMax + min (bits v 10 8) 4 * 2 ^ 8 + bits v 12 12 * 2 ^ 12)

/-- The value a register holds after a write of `v` (40_system.md rule R123): reserved bits 0, then every WARL field
legal. -/
def cfgStored (r : CfgReg) (v : Half) : Half :=
  match r with
  | .metaCtrl => legalMetaCtrl (v &&& cfgDefinedBits .metaCtrl)
  | .tmCtrl => legalTmCtrl (v &&& cfgDefinedBits .tmCtrl)
  | r => v &&& cfgDefinedBits r

/-- The value of a register: its constant for an RO register (rule R43), the value stored for any other. -/
def State.cfgValue (s : State) : CfgReg → Half
  | .id => 0x4D4D
  | .cfgN => BitVec.ofNat 16 s.par.N
  | .cfgB => BitVec.ofNat 16 s.par.B
  | .cfgScan => BitVec.ofNat 16 s.par.scanLen
  | r => s.cfg.read (cfgAddress r)

/-- A read-write register written. -/
def State.cfgWritten (s : State) (r : CfgReg) (v : Half) : State :=
  { s with cfg := s.cfg.write (cfgAddress r) v }

/-! ### The fields the units read (rule R40) -/

/-- CTRL.TICK_EN -/
def State.tickEn (s : State) : Bool := bitAt (s.cfgValue .ctrl) 0
/-- TRIG_CFG.DELAY_EXP -/
def State.delayExp (s : State) : Nat := bits (s.cfgValue .trigCfg) 2 0
/-- META_CTRL.LEN -/
def State.metaLen (s : State) : Nat := bits (s.cfgValue .metaCtrl) 6 0
/-- META_CTRL.DIR -/
def State.metaDir (s : State) : Nat := bits (s.cfgValue .metaCtrl) 9 8
/-- META_DIV.DIV -/
def State.metaDiv (s : State) : Nat := bits (s.cfgValue .metaDiv) 7 0
/-- TM_CTRL.LEN -/
def State.tmLen (s : State) : Nat := bits (s.cfgValue .tmCtrl) 5 0
/-- TM_CTRL.WIN -/
def State.tmWin (s : State) : Nat := bits (s.cfgValue .tmCtrl) 10 8
/-- TM_CTRL.RESEED -/
def State.tmReseed (s : State) : Bool := bitAt (s.cfgValue .tmCtrl) 12
/-- TM_DIV.DIV -/
def State.tmDiv (s : State) : Nat := bits (s.cfgValue .tmDiv) 7 0
/-- TM_THRESH -/
def State.tmThresh (s : State) : Nat := zext (s.cfgValue .tmThresh)
/-- A step index as an entry of the step table; `m_idx` is below 64 (10_state.md rule R32). -/
def stepEntry (n : Nat) : Fin 64 := Fin.ofNat 64 n
/-- STEP_SHAPE[n][7:0] -/
def State.stepShape (s : State) (n : Nat) : BitVec 8 :=
  BitVec.ofNat 8 (bits (s.cfgValue (.stepShape (stepEntry n))) 7 0)
/-- STEP_PITCH[n] -/
def State.stepPitch (s : State) (n : Nat) : Half := s.cfgValue (.stepPitch (stepEntry n))
/-- STEP_AUX[n] -/
def State.stepAux (s : State) (n : Nat) : Half := s.cfgValue (.stepAux (stepEntry n))
/-- STEP_REPEAT[n][7:0] -/
def State.stepRepeat (s : State) (n : Nat) : Nat := bits (s.cfgValue (.stepRepeat (stepEntry n))) 7 0
/-- MOD_CTRL[k].MODE -/
def State.modMode (s : State) (k : Fin 2) : Nat := bits (s.cfgValue (.modCtrl k)) 2 0
/-- MOD_CTRL[k].RATE_INV -/
def State.rateInv (s : State) (k : Fin 2) : Bool := bitAt (s.cfgValue (.modCtrl k)) 3
/-- MOD_RATE[k] -/
def State.modRate (s : State) (k : Fin 2) : Nat := bits (s.cfgValue (.modRate k)) 6 0
/-- MOD_RATIO[k] -/
def State.modRatio (s : State) (k : Fin 2) : Nat := bits (s.cfgValue (.modRatio k)) 6 0
/-- sext_16(MOD_DEPTH_T[k]) (rule R45) -/
def State.depthT (s : State) (k : Fin 2) : Int := sext16 (s.cfgValue (.modDepthT k))
/-- sext_16(MOD_DEPTH_C[k]) (rule R45) -/
def State.depthC (s : State) (k : Fin 2) : Int := sext16 (s.cfgValue (.modDepthC k))
/-- sext_16(MOD_DEPTH_V[k]) (rule R45) -/
def State.depthV (s : State) (k : Fin 2) : Int := sext16 (s.cfgValue (.modDepthV k))
/-- sext_16(MOD_DEPTH_G[k]) (rule R45) -/
def State.depthG (s : State) (k : Fin 2) : Int := sext16 (s.cfgValue (.modDepthG k))
/-- sext_16(XMOD_DEPTH) (rule R45) -/
def State.xmodDepth (s : State) : Int := sext16 (s.cfgValue .xmodDepth)
/-- ROUTE -/
def State.route (s : State) : Nat := bits (s.cfgValue .route) 3 0
/-- BASE_T -/
def State.baseT (s : State) : Nat := zext (s.cfgValue .baseT)
/-- BASE_C -/
def State.baseC (s : State) : Nat := zext (s.cfgValue .baseC)
/-- BASE_G -/
def State.baseG (s : State) : Nat := zext (s.cfgValue .baseG)

/-- MOD_KIND[mode] (46_mixer.md rule R251); a MODE field is below 8. -/
def kindOf (P : Params) (mode : Nat) : Kind := P.modKind[mode]?.getD .off

/-- The kind of a slot: MOD_KIND[cfg.MOD_CTRL[k].MODE] (46_mixer.md rule R251). -/
def State.slotKind (s : State) (k : Fin 2) : Kind := kindOf s.par (s.modMode k)

end Sys2Proof.Machine
end

