-- ==== Sys2Proof/Machine/Mixer.lean ====
section
/-! DEFINITION. The fixed-point saturating modulation mixer (46_mixer.md). -/

namespace Sys2Proof.Machine

/-- A slot's registers. -/
def State.slot (s : State) (k : Fin 2) : MixSlot := s.mix.slots[k]

/-- A slot's registers replaced. -/
def State.withSlot (s : State) (k : Fin 2) (m : MixSlot) : State :=
  { s with mix := { s.mix with slots := s.mix.slots.set k m } }

/-- KIND in responses (rule R251). -/
def kindCode : Kind → Nat
  | .off => 0
  | .env => 1
  | .lfo => 2

/-- Attack from the rate and the ratio (rule R252). -/
def attackOf (r q : Nat) : Nat := 2 * r * (1 + q) / 2 ^ 8

/-- Decay from the rate and the ratio (rule R252). -/
def decayOf (r q : Nat) : Nat := 2 * r * (128 - q) / 2 ^ 8

/-- The cross-modulation term of slot 1 (rule R253). -/
def crossTerm (s : State) : Int := asr ((zext (s.slot 0).level : Int) * s.xmodDepth) xmodShift

/-- The rate of a slot before clamping (rule R253). -/
def rateBeforeClamp (s : State) (k : Fin 2) (cv : Half) : Int :=
  (s.modRate k : Int) + (if s.route = k.val + 1 then sext16 cv else 0) + (if k = 1 then crossTerm s else 0)

/-- The rate of a slot: clamped to [0, 127], then inverted on an LFO slot with RATE_INV (rule R254). -/
def rateOf (s : State) (k : Fin 2) (cv : Half) : Nat :=
  let r := (clamp (rateBeforeClamp s k cv) 0 127).toNat
  if s.slotKind k = .lfo ∧ s.rateInv k = true then 127 - r else r

/-- MIX_RATE of an existing slot (rule R254). -/
def mixRateSlot (s : State) (k : Fin 2) (cv : Half) : State :=
  let r := rateOf s k cv
  let a := attackOf r (s.modRatio k)
  let d := decayOf r (s.modRatio k)
  (s.withSlot k
    { s.slot k with rate := BitVec.ofNat 7 r, atk := BitVec.ofNat 7 a, dec := BitVec.ofNat 7 d }).respond
    (r + a * 2 ^ 8 + d * 2 ^ 16 + kindCode (s.slotKind k) * 2 ^ 24)

/-- MIX_RATE slot, cv (rule R254). -/
def execMixRate (slot : Nat) (cv : Half) (s : State) : Result :=
  .next (if h : slot < 2 then mixRateSlot s ⟨slot, h⟩ cv else s.reject .rng)

/-- MIX_LEVEL slot, level (rule R255). -/
def execMixLevel (slot : Nat) (level : Half) (s : State) : Result :=
  .next (if h : slot < 2 then (s.withSlot ⟨slot, h⟩ { s.slot ⟨slot, h⟩ with level := level }).respond 0
    else s.reject .rng)

/-- The polarity of a slot: subtractive exactly in mode 2 (rule R258). -/
def polarity (s : State) (k : Fin 2) : Int := if s.modMode k = 2 then -1 else 1

/-- A slot's contribution to a destination: 0 from an OFF slot (rule R257), else the polarity times the shifted product
of the slot's signal and the depth (rules R256, R258). -/
def contribution (s : State) (k : Fin 2) (signal depth : Int) : Int :=
  if s.slotKind k = .off then 0 else polarity s k * asr (signal * depth) depthShift

/-- The rendered level of a slot. -/
def levelOf (s : State) (k : Fin 2) : Int := (zext (s.slot k).level : Int)

/-- T before its clamp (rule R256). -/
def timbreSum (s : State) : Int :=
  (s.baseT : Int) + contribution s 0 (levelOf s 0) (s.depthT 0) + contribution s 1 (levelOf s 1) (s.depthT 1)

/-- C before its clamp (rule R256). -/
def colorSum (s : State) : Int :=
  (s.baseC : Int) + contribution s 0 (levelOf s 0) (s.depthC 0) + contribution s 1 (levelOf s 1) (s.depthC 1)

/-- Gn before its clamp (rule R256). -/
def gainSum (s : State) : Int :=
  (s.baseG : Int) + contribution s 0 (levelOf s 0) (s.depthG 0) + contribution s 1 (levelOf s 1) (s.depthG 1)

/-- V (rule R256): bipolar, `level - 32767`. -/
def vibratoSum (s : State) : Int :=
  contribution s 0 (levelOf s 0 - 32767) (s.depthV 0) + contribution s 1 (levelOf s 1 - 32767) (s.depthV 1)

/-- The four outputs of MIX (rules R256, R259). -/
def mixCombined (s : State) : State :=
  { s with
    mix :=
      { s.mix with
        timbre := toHalf (clamp (timbreSum s) 0 s.par.paramMax)
        color := toHalf (clamp (colorSum s) 0 s.par.paramMax)
        gain := toHalf (clamp (gainSum s) 0 65535)
        vib := BitVec.ofInt 32 (vibratoSum s) } }

/-- MIX_COMBINE (rule R256). -/
def execMixCombine (s : State) : Result :=
  .next ((mixCombined s).respond (zext (mixCombined s).mix.gain))

/-- A slot's rate, attack and decay as MIX_READ packs them (rule R260). -/
def slotPacked (m : MixSlot) : Nat := zext m.rate + zext m.atk * 2 ^ 8 + zext m.dec * 2 ^ 16

/-- MIX_READ sel (rule R260). -/
def execMixRead (sel : Nat) (s : State) : Result :=
  .next (match sel with
    | 0 => s.respond (zext s.mix.timbre)
    | 1 => s.respond (zext s.mix.color)
    | 2 => s.respond (zext s.mix.gain)
    | 3 => s.respond (bits s.mix.vib 15 0)
    | 4 => s.respond (bits s.mix.vib 31 16)
    | 5 => s.respond (slotPacked (s.slot 0))
    | 6 => s.respond (slotPacked (s.slot 1))
    | 7 => s.respond (zext (s.slot 0).level)
    | 8 => s.respond (zext (s.slot 1).level)
    | _ => s.reject .rng)

end Sys2Proof.Machine
end

