-- ==== Sys2Proof/Machine/Sequencer.lean ====
section
/-! DEFINITION. The step-sequencer state engines (45_sequencer.md). -/

namespace Sys2Proof.Machine

/-! ### The clock divider -/

/-- Divide rolls over: `cnt + 1 >= max(1, DIV)` (rule R211). -/
def divideRolls (cnt : BitVec 8) (div : Nat) : Bool := decide (max 1 div ≤ cnt.toNat + 1)

/-- The counter after Divide (rule R211). -/
def divideCount (cnt : BitVec 8) (div : Nat) : BitVec 8 :=
  if divideRolls cnt div then 0 else BitVec.ofNat 8 (cnt.toNat + 1)

/-! ### The meta-sequencer -/

/-- LoopNext (rule R213). -/
def loopNext (i : Nat) (dir : Bool) (len : Nat) : Nat × Bool := (if len ≤ i + 1 then 0 else i + 1, dir)

/-- SwingNext (rule R214); the direction is true when descending. -/
def swingNext (i : Nat) (dir : Bool) (len : Nat) : Nat × Bool :=
  let top : Int := (len : Int) - 1
  if dir then
    let n : Int := min ((i : Int) - 1) top
    if n ≤ 0 then (0, false) else (n.toNat, true)
  else
    let n : Int := (i : Int) + 1
    if top ≤ n then (top.toNat, true) else (n.toNat, false)

/-- RandomNext with the drawn word (rule R215). -/
def randomNext (r : Word) (dir : Bool) (len : Nat) : Nat × Bool := (zext r * len / 2 ^ 32, dir)

/-- The next step index and direction (rule R212), with the random word that would be drawn. META_CTRL.DIR is 0, 1 or 2;
3 is never stored, and would store 0 (10_state.md rule R40). -/
def metaNext (s : State) (r : Word) : Nat × Bool :=
  match s.metaDir with
  | 1 => swingNext s.metaSeq.idx.toNat s.metaSeq.dir s.metaLen
  | 2 => randomNext r s.metaSeq.dir s.metaLen
  | _ => loopNext s.metaSeq.idx.toNat s.metaSeq.dir s.metaLen

/-- The state after the draw of an advance: one word in random mode, none otherwise (rule R215). -/
def metaDrawn (s : State) : State := if s.metaDir = 2 then s.drawRandom.2 else s

/-- Latch(n) (rule R217). -/
def latchStep (s : State) (n : Nat) : State :=
  { s with
    metaSeq :=
      { s.metaSeq with shape := s.stepShape n, pitch := s.stepPitch n, aux := s.stepAux n } }

/-- An advance of the meta-sequencer: the divider has rolled over and the step's repeats are spent (rule R212). -/
def metaAdvance (s : State) : State :=
  let next := metaNext s s.drawRandom.1
  let moved : State :=
    { metaDrawn s with
      metaSeq := { s.metaSeq with rep := 0, dir := next.2, idx := BitVec.ofNat 7 next.1 } }
  let latched := latchStep moved next.1
  latched.respond
    (1 + 2 + flagBit (decide (latched.metaSeq.shape ≠ s.metaSeq.shape)) * 4 + next.1 * 2 ^ 8)

/-- A rollover: one more repeat of the current step, or an advance (rules R212, R218). -/
def metaRollover (s : State) : State :=
  if s.metaSeq.rep.toNat + 1 < max 1 (s.stepRepeat s.metaSeq.idx.toNat) then
    { s with metaSeq := { s.metaSeq with rep := BitVec.ofNat 8 (s.metaSeq.rep.toNat + 1) } }.respond 2
  else metaAdvance s

/-- A trigger on an active meta-sequencer: the divider counts, and on rollover the step state changes (rules R210,
R212). -/
def metaTrigger (s : State) : State :=
  let counted : State :=
    { s with metaSeq := { s.metaSeq with div := divideCount s.metaSeq.div s.metaDiv } }
  if divideRolls s.metaSeq.div s.metaDiv then metaRollover counted else counted.respond 2

/-- SEQ_META_CLOCK t (rule R212). -/
def execSeqMetaClock (t : Bool) (s : State) : Result :=
  .next (if s.metaLen = 0 then s.respond 0
    else if t = false then s.respond 2
    else metaTrigger s)

/-- SEQ_META_READ sel (rule R216). -/
def execSeqMetaRead (sel : Nat) (s : State) : Result :=
  .next (match sel with
    | 0 => s.respond (zext s.metaSeq.shape)
    | 1 => s.respond (zext s.metaSeq.pitch)
    | 2 => s.respond (zext s.metaSeq.aux)
    | 3 => s.respond (zext s.metaSeq.idx + flagBit s.metaSeq.dir * 2 ^ 7 + zext s.metaSeq.rep * 2 ^ 8
        + zext s.metaSeq.div * 2 ^ 16)
    | _ => s.reject .rng)

/-! ### The Turing sequencer -/

/-- The low `len` bits rotated right by one (rules R220, R221). -/
def rotateRight (len r : Nat) : Nat := r % 2 ^ len / 2 + r % 2 * 2 ^ (len - 1)

/-- This advance wraps: `tm_pos + 1 >= Nn` (rules R220, R222). -/
def tmWraps (s : State) : Bool := decide (s.tmLen ≤ s.tmSeq.pos.toNat + 1)

/-- The flip at the wrap point with the drawn word: bit Nn-1 inverted when the word's low 16 bits are below TM_THRESH
(rule R222). -/
def tmFlip (s : State) (d : Word) (r : Nat) : Nat :=
  if bits d 15 0 < s.tmThresh then r ^^^ 2 ^ (s.tmLen - 1) else r

/-- The register and the random port after the work at the wrap point: one word for the flip, then with RESEED a second
word that replaces the register (rule R222). -/
def tmWrapWork (s : State) (r : Nat) : Nat × State :=
  let flip := s.drawRandom
  let flipped := tmFlip s flip.1 r
  if s.tmReseed then
    let reseed := flip.2.drawRandom
    (zext reseed.1 % 2 ^ s.tmLen, reseed.2)
  else (flipped, flip.2)

/-- TM_SCALE[w]; the window is at most 4 bits wide (rule R223). -/
def scaleAt (P : Params) (w : Nat) : Int := sext16 (P.tmScale[w]?.getD 0)

/-- The pitch offset of a register value: `sat16(TM_SCALE[r[WIN-1:0]] * TM_UNIT)` (rule R223). -/
def tmPitchOf (s : State) (r : Nat) : Half := toHalf (sat16 (scaleAt s.par (r % 2 ^ s.tmWin) * tmUnit))

/-- An advance of the Turing sequencer (rule R220). -/
def tmAdvance (s : State) : State :=
  let r := rotateRight s.tmLen s.tmSeq.reg.toNat
  let wrap := tmWraps s
  let pos := if wrap then 0 else s.tmSeq.pos.toNat + 1
  let work := if wrap then tmWrapWork s r else (r, s)
  let moved : State :=
    { work.2 with
      tmSeq :=
        { work.2.tmSeq with
          reg := BitVec.ofNat 32 work.1, pos := BitVec.ofNat 6 pos, pitch := tmPitchOf s work.1 } }
  moved.respond (1 + 2 + flagBit wrap * 4 + pos * 2 ^ 8)

/-- A trigger on an active Turing sequencer (rules R210, R220). -/
def tmTrigger (s : State) : State :=
  let counted : State := { s with tmSeq := { s.tmSeq with div := divideCount s.tmSeq.div s.tmDiv } }
  if divideRolls s.tmSeq.div s.tmDiv then tmAdvance counted else counted.respond 2

/-- SEQ_TM_CLOCK t (rule R220). -/
def execSeqTmClock (t : Bool) (s : State) : Result :=
  .next (if s.tmLen = 0 then s.respond 0
    else if t = false then s.respond 2
    else tmTrigger s)

/-- SEQ_TM_READ sel (rule R224). -/
def execSeqTmRead (sel : Nat) (s : State) : Result :=
  .next (match sel with
    | 0 => s.respond (zext s.tmSeq.pitch)
    | 1 => s.respond (bits s.tmSeq.reg 15 0)
    | 2 => s.respond (bits s.tmSeq.reg 31 16)
    | 3 => s.respond (zext s.tmSeq.pos + zext s.tmSeq.div * 2 ^ 8)
    | _ => s.reject .rng)

end Sys2Proof.Machine
end

