-- ==== Sys2Proof/Machine/System.lean ====
section
/-! DEFINITION. The system, configuration and error commands (40_system.md). -/

namespace Sys2Proof.Machine

/-- NOP (rule R120). -/
def execNop (s : State) : Result := .next (s.respond 0)

/-- ERR_READ (rule R121). -/
def execErrRead (s : State) : Result := .next (s.respond (zext s.err))

/-- CFG_READ addr (rule R122). -/
def execCfgRead (addr : Nat) (s : State) : Result :=
  .next (match cfgRegister addr with
    | none => s.reject .rng
    | some r => s.respond (zext (s.cfgValue r)))

/-- CFG_WRITE addr, value (rule R123). -/
def execCfgWrite (addr : Nat) (value : Half) (s : State) : Result :=
  .next (match cfgRegister addr with
    | none => s.reject .rng
    | some r =>
      if cfgReadOnly r then s.reject .row
      else (s.cfgWritten r (cfgStored r value)).respond (zext (cfgStored r value)))

/-- ERR_CLEAR mask (rule R124). -/
def execErrClear (mask : BitVec 5) (s : State) : Result :=
  .next ({ s with err := errCleared s.err mask }.respond (zext (errCleared s.err mask)))

end Sys2Proof.Machine
end

