-- ==== Sys2Proof/Machine/AdcScan.lean ====
section
/-! DEFINITION. The pipelined ADC scan scheduler (43_adc_scan.md). -/

namespace Sys2Proof.Machine

/-- `(scan_phase + 1) mod SCAN_LEN` (rule R180). -/
def nextPhase (s : State) : Nat := (s.scan.phase.toNat + 1) % s.par.scanLen

/-- This effective tick is a cycle-complete event (rule R181). -/
def completesCycle (s : State) : Bool := decide (nextPhase s = 0)

/-- ScanStep() (rule R180): the phase steps, and on a complete cycle the four channel values are drawn. -/
def scanStep (s : State) : State :=
  if completesCycle s then
    { s with
      scan := { phase := BitVec.ofNat 16 (nextPhase s), chValue := nextAdc s.par s.env }
      env := afterAdc s.env }
  else { s with scan := { s.scan with phase := BitVec.ofNat 16 (nextPhase s) } }

/-- ADC_READ ch (rule R182). -/
def execAdcRead (ch : Nat) (s : State) : Result :=
  .next (if h : ch < 4 then s.respond (zext s.scan.chValue[ch]) else s.reject .rng)

/-- ADC_STATUS (rule R183). -/
def execAdcStatus (s : State) : Result := .next (s.respond (zext s.scan.phase))

end Sys2Proof.Machine
end

