-- ==== Sys2Proof/Machine/Ring.lean ====
section
/-! DEFINITION. The block ring FIFO (41_ring.md): its commands and the consumer's advance. -/

namespace Sys2Proof.Machine

/-- RING_STATUS (rule R141). -/
def execRingStatus (s : State) : Result :=
  .next (s.respond
    (flagBit (ringFree s) * 2 ^ 26 + zext s.ring.s * 2 ^ 16 + zext s.ring.c * 2 ^ 8 + zext s.ring.p))

/-- RING_ACQUIRE (rule R142). -/
def execRingAcquire (s : State) : Result :=
  .next (s.respond (flagBit (ringFree s) * 2 ^ 26 + zext s.ring.p))

/-- RING_WRITE off, sample (rule R143); RNG is checked before OVR (60_exceptions.md rule R284). -/
def execRingWrite (off : Nat) (sample : Half) (s : State) : Result :=
  .next (if s.par.B ≤ off then s.reject .rng
    else if ringFree s = false then s.reject .ovr
    else (s.writeSample (zext s.ring.p) off sample).respond 0)

/-- The bits `group * 16 + j` of a slot's mask for j below `n`, bit j with weight 2^j; offsets at or beyond B read 0
(rule R144). -/
def maskBits (s : State) (slot group : Nat) : Nat → Nat
  | 0 => 0
  | n + 1 =>
    maskBits s slot group n
      + flagBit (decide (16 * group + n < s.par.B) && s.maskAt slot (16 * group + n)) * 2 ^ n

/-- RING_READMASK group (rule R144). -/
def execRingReadmask (group : Nat) (s : State) : Result :=
  .next (if s.par.B ≤ 16 * group then s.reject .rng
    else s.respond (maskBits s (zext s.ring.p) group 16))

/-- The producer's advance: `p <- (p + 1) mod N` (rules R145, R146). -/
def produceAdvance (s : State) : State :=
  { s with ring := { s.ring with p := nextSlot s.par.N s.ring.p } }

/-- RING_ADVANCE (rule R146): with no free slot it raises OVR and advances anyway. -/
def execRingAdvance (s : State) : Result :=
  .next (let moved := produceAdvance s
    if ringFree s then moved.respond (2 ^ 26 + zext moved.ring.p)
    else (moved.raise .ovr).respond (2 ^ 31 + zext moved.ring.p))

/-- ConsumeAdvance (rule R147): moving onto slot `p` raises UDR, and `c` moves in either case. -/
def consumeAdvance (s : State) : State :=
  let checked := if nextSlot s.par.N s.ring.c = s.ring.p then s.raise .udr else s
  { checked with ring := { checked.ring with c := nextSlot checked.par.N checked.ring.c } }

end Sys2Proof.Machine
end

