-- ==== Sys2Proof/Machine/Trigger.lean ====
section
/-! DEFINITION. The trigger debounce and delay state machine (42_trigger.md). -/

namespace Sys2Proof.Machine

/-- TrigDetect(g) (rule R160). -/
def trigDetect (g : Bool) (t : Trig) : Trig := { t with detected := t.detected || g }

/-- The value the delay counter is armed to: `(if e == 0 then 0 else 2^e) + 1` (rules R161, R162). -/
def armedDelay (e : Nat) : Nat := (if e = 0 then 0 else 2 ^ e) + 1

/-- The first half of TrigCycleComplete: arming (rule R161). -/
def trigArm (e : Nat) (t : Trig) : Trig :=
  if t.detected then { t with delay := BitVec.ofNat 8 (armedDelay e), detected := false } else t

/-- The second half of TrigCycleComplete: the countdown, which sets `fired` where `delay` goes from 1 to 0 (rules R161,
R163). -/
def trigCount (t : Trig) : Trig :=
  if t.delay = 0 then t
  else { t with delay := t.delay - 1, fired := t.fired || decide (t.delay - 1 = 0) }

/-- TrigCycleComplete() with delay exponent `e` (rule R161). -/
def trigCycleComplete (e : Nat) (t : Trig) : Trig := trigCount (trigArm e t)

/-- TRIG_TAKE (rule R166). -/
def execTrigTake (s : State) : Result :=
  .next ({ s with trig := { s.trig with fired := false } }.respond (flagBit s.trig.fired))

/-- TRIG_STATUS (rule R167). -/
def execTrigStatus (s : State) : Result :=
  .next (s.respond (flagBit s.trig.fired + flagBit s.trig.detected * 2 + zext s.trig.delay * 2 ^ 8))

end Sys2Proof.Machine
end

