-- ==== Sys2Proof/Machine/Tick.lean ====
section
/-! DEFINITION. The sample consumer tick (44_tick.md): its five steps in the order of rule R191. -/

namespace Sys2Proof.Machine

/-- OutMap (rule R192). -/
def outMap (inverted : Bool) (x : Half) : Half :=
  toHalf ((if inverted then 32768 - sext16 x else sext16 x + 32768) % 65536)

/-- Step 1: the current sample of the consume slot goes to the DAC port (rule R190). -/
def tickOutput (s : State) : State :=
  s.emit (.dac (outMap outInvert (s.sampleAt (zext s.ring.c) (zext s.ring.s))))

/-- Step 3: the gate reading goes into the mask and into `detected` (rule R190). -/
def tickGate (g : Bool) (s : State) : State :=
  let marked := s.writeMask (zext s.ring.c) (zext s.ring.s) g
  { marked with trig := trigDetect g marked.trig }

/-- Step 4: the sample position steps, and on wrap the ring advances (rules R190, R196). -/
def tickPosition (s : State) : State :=
  if zext s.ring.s + 1 = s.par.B then consumeAdvance { s with ring := { s.ring with s := 0 } }
  else { s with ring := { s.ring with s := BitVec.ofNat 10 (zext s.ring.s + 1) } }

/-- Step 5: the scan steps; on a cycle-complete event the readings are pushed and TRIG moves (rule R190). -/
def tickScan (s : State) : State :=
  if completesCycle s then
    let pushed := (scanStep s).emit (.ui (scanStep s).scan.chValue)
    { pushed with trig := trigCycleComplete pushed.delayExp pushed.trig }
  else scanStep s

/-- The work of an effective tick (rules R190, R191). -/
def effectiveTick (g : Bool) (s : State) : State := tickScan (tickPosition (tickGate g (tickOutput s)))

/-- TICK g (rule R190); with TICK_EN = 0 it has no effect (rule R193). -/
def execTick (g : Bool) (s : State) : Result := .next (if s.tickEn then effectiveTick g s else s)

end Sys2Proof.Machine
end

