-- ==== Sys2Proof/Machine/Dispatch.lean ====
section
/-! DEFINITION. The meaning of every instruction, one arm per constructor. -/

namespace Sys2Proof.Machine

def exec (i : Instr) (s : State) : Host.Outcome State Fault Refusal :=
  match i with
  | .nop => Sys2Proof.Machine.execNop s
  | .ringStatus => Sys2Proof.Machine.execRingStatus s
  | .ringAcquire => Sys2Proof.Machine.execRingAcquire s
  | .ringWrite off sample => Sys2Proof.Machine.execRingWrite off sample s
  | .ringReadmask group => Sys2Proof.Machine.execRingReadmask group s
  | .ringAdvance => Sys2Proof.Machine.execRingAdvance s
  | .errRead => Sys2Proof.Machine.execErrRead s
  | .errClear mask => Sys2Proof.Machine.execErrClear mask s
  | .trigTake => Sys2Proof.Machine.execTrigTake s
  | .trigStatus => Sys2Proof.Machine.execTrigStatus s
  | .adcRead ch => Sys2Proof.Machine.execAdcRead ch s
  | .adcStatus => Sys2Proof.Machine.execAdcStatus s
  | .cfgWrite addr value => Sys2Proof.Machine.execCfgWrite addr value s
  | .cfgRead addr => Sys2Proof.Machine.execCfgRead addr s
  | .seqMetaClock t => Sys2Proof.Machine.execSeqMetaClock t s
  | .seqMetaRead sel => Sys2Proof.Machine.execSeqMetaRead sel s
  | .seqTmClock t => Sys2Proof.Machine.execSeqTmClock t s
  | .seqTmRead sel => Sys2Proof.Machine.execSeqTmRead sel s
  | .mixRate slot cv => Sys2Proof.Machine.execMixRate slot cv s
  | .mixLevel slot level => Sys2Proof.Machine.execMixLevel slot level s
  | .mixCombine => Sys2Proof.Machine.execMixCombine s
  | .mixRead sel => Sys2Proof.Machine.execMixRead sel s
  | .tick g => Sys2Proof.Machine.execTick g s

end Sys2Proof.Machine
end

