-- ==== Sys2Proof/Machine/Ports.lean ====
section
/-! DEFINITION. How a step takes its input: MMRC fetches nothing (10_state.md rule R21), it takes the words the outside
presents on its two ports, and the reset line (60_exceptions.md rules R285, R292, 70_reset_and_hazards.md rule R311). -/

namespace Sys2Proof.Machine

/-- What one step is about. -/
inductive Event where
  /-- nothing is presented -/
  | idle
  /-- the reset line -/
  | reset
  /-- a word on a port -/
  | word (port : Port) (w : Word)
deriving DecidableEq, Repr

/-- The instant without its tick word, if anything is left of it. -/
def Instant.afterTick (i : Instant) : List Instant :=
  match i.command with
  | none => []
  | some w => [{ command := some w }]

/-- What one instant leads to, and what is left of it: reset loses the words presented with it (rule R311); a tick and
a command of the same instant are two steps, the tick first (rule R285). -/
def Instant.event (i : Instant) : Event × List Instant :=
  if i.reset then (.reset, [])
  else
    match i.tick with
    | some w => (.word .T w, i.afterTick)
    | none =>
      match i.command with
      | some w => (.word .P w, [])
      | none => (.idle, [])

/-- The next event, and the state with its input taken. -/
def takeEvent (s : State) : Event × State :=
  match s.inbox with
  | [] => (.idle, s)
  | i :: rest => (i.event.1, { s with inbox := i.event.2 ++ rest })

/-- Reset (rules R310, R311): every piece of MMRC state takes its reset value; the parameters are not state, and what
stands on the ports is the outside's. -/
def applyReset (s : State) : State :=
  { State.resetWith s.par with env := s.env, inbox := s.inbox, out := s.out }

/-- The instant in which one word is presented on a port. -/
def Instant.ofWord : Port → Word → Instant
  | .P, w => { command := some w }
  | .T, w => { tick := some w }

end Sys2Proof.Machine
end

