-- ==== Sys2Proof/Machine/Step.lean ====
section
/-! DEFINITION. One step of MMRC: one P-port command, one T-port tick, one reset, or nothing (00_scope.md rule R9). -/

namespace Sys2Proof.Machine

/-- The word on a port runs: the instruction it names there, or ILL (30_encoding.md rule R110). -/
def runWord (port : Port) (w : Word) (s : State) : Result :=
  match decode port w with
  | .ok i => exec i s
  | .error _ => .next (s.rejectWord port)

/-- One atomic step (00_scope.md rule R9): the next event is taken from the ports and done. With nothing presented
nothing changes. -/
def step (s : State) : Host.Outcome State Fault Refusal :=
  match takeEvent s with
  | (.idle, t) => .next t
  | (.reset, t) => .next (applyReset t)
  | (.word port w, t) => runWord port w t

/-- `s` with a word of the opcode table presented next, on the port its row stands on. -/
def State.withFetchWord (s : State) (nbits w : Nat) : State :=
  { s with inbox := Instant.ofWord (tablePort (tableWord nbits w)) (tableWord nbits w) :: s.inbox }

end Sys2Proof.Machine
end

