-- ==== Sys2Proof/Safety.lean ====
section
/-! DEFINITION. The terms the claims use: what a legal state is, which error the spec says a command raises, sequences
of commands and ticks, and the output ports read apart. -/

namespace Sys2Proof.Machine

/-! ### Legal states -/

/-- Every listed element of a ring space lies in a slot below N at an offset below B (10_state.md rules R24, R47). -/
def ringInRange {w : Nat} (P : Params) (m : Memory w) : Prop :=
  ∀ e ∈ m, e.1 / 1024 < P.N ∧ e.1 % 1024 < P.B

/-- Every listed configuration register is mapped and read-write, and holds a value a write can store (10_state.md
rules R40 to R44). -/
def cfgLegal (m : Memory 16) : Prop :=
  ∀ e ∈ m, ∃ r, cfgRegister e.1 = some r ∧ cfgReadOnly r = false ∧ cfgStored r e.2 = e.2

/-- A slot's attack and decay are the two fractions of its rate (46_mixer.md rule R252). -/
def slotLegal (m : MixSlot) : Prop :=
  m.atk.toNat + m.dec.toNat = m.rate.toNat ∨ m.atk.toNat + m.dec.toNat + 1 = m.rate.toNat

/-- The ranges 10_state.md gives the state, the canonical form of the storage spaces, and the bounds of 46_mixer.md. -/
structure Inv (s : State) : Prop where
  p_lt : s.ring.p.toNat < s.par.N
  c_lt : s.ring.c.toNat < s.par.N
  s_lt : s.ring.s.toNat < s.par.B
  sample_wf : s.ring.sample.wf = true
  sample_range : ringInRange s.par s.ring.sample
  mask_wf : s.ring.mask.wf = true
  mask_range : ringInRange s.par s.ring.mask
  delay_le : s.trig.delay.toNat ≤ 2 ^ eMax + 1
  phase_lt : s.scan.phase.toNat < s.par.scanLen
  channel_lt : ∀ k : Fin 4, s.scan.chValue[k].toNat < 2 ^ s.par.adcBits
  idx_lt : s.metaSeq.idx.toNat < sMax
  pos_lt : s.tmSeq.pos.toNat < tmMax
  slot_legal : ∀ k : Fin 2, slotLegal (s.slot k)
  timbre_le : s.mix.timbre.toNat ≤ s.par.paramMax
  color_le : s.mix.color.toNat ≤ s.par.paramMax
  vib_ge : -65536 ≤ s.mix.vib.toInt
  vib_le : s.mix.vib.toInt ≤ 65536
  cfg_wf : s.cfg.wf = true
  cfg_legal : cfgLegal s.cfg

/-! ### Errors -/

/-- The error a command raises, by the table of 60_exceptions.md rule R282 and the order of rule R284. A tick's UDR is
raised at the end of a block (rule R283). -/
def errorCause (s : State) : Instr → Option ErrCause
  | .nop => none
  | .ringStatus => none
  | .ringAcquire => none
  | .ringWrite off _ =>
    if s.par.B ≤ off then some .rng else if s.ring.p = s.ring.c then some .ovr else none
  | .ringReadmask group => if s.par.B ≤ 16 * group then some .rng else none
  | .ringAdvance => if s.ring.p = s.ring.c then some .ovr else none
  | .errRead => none
  | .errClear _ => none
  | .trigTake => none
  | .trigStatus => none
  | .adcRead ch => if 4 ≤ ch then some .rng else none
  | .adcStatus => none
  | .cfgWrite addr _ =>
    match cfgRegister addr with
    | none => some .rng
    | some r => if cfgReadOnly r then some .row else none
  | .cfgRead addr => if cfgRegister addr = none then some .rng else none
  | .seqMetaClock _ => none
  | .seqMetaRead sel => if 4 ≤ sel then some .rng else none
  | .seqTmClock _ => none
  | .seqTmRead sel => if 4 ≤ sel then some .rng else none
  | .mixRate slot _ => if 2 ≤ slot then some .rng else none
  | .mixLevel slot _ => if 2 ≤ slot then some .rng else none
  | .mixCombine => none
  | .mixRead sel => if 9 ≤ sel then some .rng else none
  | .tick _ =>
    if s.tickEn = true ∧ s.ring.s.toNat + 1 = s.par.B ∧ (s.ring.c.toNat + 1) % s.par.N = s.ring.p.toNat
    then some .udr else none

/-- `err` after an error, or after none. -/
def errAfter (e : BitVec 5) : Option ErrCause → BitVec 5
  | none => e
  | some cause => errSet e cause

/-! ### Sequences of instructions -/

/-- The instructions of a list run one after the other. -/
def runAll : List Instr → State → Result
  | [], s => .next s
  | i :: rest, s =>
    match exec i s with
    | .next t => runAll rest t
    | .fault r => .fault r
    | .refused r => .refused r

/-- One tick for each gate reading. -/
def ticks (gates : List Bool) : List Instr := gates.map Instr.tick

/-- The writes of a block, from an offset on (41_ring.md rule R140). -/
def blockWrites : Nat → List Half → List Instr
  | _, [] => []
  | off, x :: rest => .ringWrite off x :: blockWrites (off + 1) rest

/-- The producer's commands for one block, once RING_ACQUIRE has answered OK (41_ring.md rule R140). -/
def publishBlock (samples : List Half) : List Instr := blockWrites 0 samples ++ [.ringAdvance]

/-- The MIX commands of one block, in the order of 46_mixer.md rule R250. -/
def mixBlock (cv0 level0 cv1 level1 : Half) : List Instr :=
  [.mixRate 0 cv0, .mixLevel 0 level0, .mixRate 1 cv1, .mixLevel 1 level1, .mixCombine]

/-! ### The output ports apart -/

/-- The words put on the DAC port. -/
def dacWords (out : List PortOut) : List Half :=
  out.filterMap fun o => match o with
    | .dac v => some v
    | _ => none

/-- The pushes on the UI port. -/
def uiPushes (out : List PortOut) : List (Vector Half 4) :=
  out.filterMap fun o => match o with
    | .ui v => some v
    | _ => none

/-- The responses of the P-port. -/
def responses (out : List PortOut) : List Word :=
  out.filterMap fun o => match o with
    | .resp w => some w
    | _ => none

end Sys2Proof.Machine
end

