-- ==== Sys2Proof/Certificates/Slice0/Obligations.lean ====
section
/-! DEFINITION. The statements for the provers, each a claim about the machine taken from the numbered rules of spec/.
A frame is written `t = (s with the fields named)`: every other field of the state is as it was. -/

open Sys2Proof Sys2Proof.Machine

/-! ### Encoding and ports -/

/-- 30_encoding.md rules R100, R103, R104, R110. -/
def Obligations.DecodeInvertsEncode : Prop :=
  ∀ i : Instr, i.wellFormed = true → decode i.port (encode i) = .ok i

/-- 30_encoding.md rules R103, R104, R106: what a decoded instruction keeps of its word: the opcode, field A where the
command reads it, and of field D all 16 bits, bits 4..0 or bit 0, as the command reads it. -/
def Obligations.DecodedInstructionIsEncodable : Prop :=
  ∀ (port : Port) (w : Word) (i : Instr), decode port w = .ok i →
    i.wellFormed = true ∧ i.port = port ∧ i.opcode = opField w ∧
      (match i with
        | .ringWrite a d | .cfgWrite a d | .mixRate a d | .mixLevel a d => a = aField w ∧ d = w.extractLsb' 0 16
        | .ringReadmask a | .adcRead a | .cfgRead a | .seqMetaRead a | .seqTmRead a | .mixRead a => a = aField w
        | .errClear mask => mask = w.extractLsb' 0 5
        | .seqMetaClock t | .seqTmClock t | .tick t => t = w.getLsbD 0
        | .nop | .ringStatus | .ringAcquire | .ringAdvance | .errRead | .trigTake | .trigStatus | .adcStatus
        | .mixCombine => True) ∧
      decode port (encode i) = .ok i

/-- Words written out from 30_encoding.md rule R104, one or more for each unit. -/
def Obligations.WordsOfTheSpecDecode : Prop :=
  decode .P 0x07FFFFFF = .ok .nop ∧
  decode .P 0x3800001F = .ok (.errClear 0x1F) ∧
  decode .P 0x60200143 = .ok (.cfgWrite 0x020 0x0143) ∧
  decode .P 0x1805FFFE = .ok (.ringWrite 5 (BitVec.ofInt 16 (-2))) ∧
  decode .P 0x20010000 = .ok (.ringReadmask 1) ∧
  decode .P 0x40000000 = .ok .trigTake ∧
  decode .P 0x50020000 = .ok (.adcRead 2) ∧
  decode .P 0x80000001 = .ok (.seqMetaClock true) ∧
  decode .P 0x98010000 = .ok (.seqTmRead 1) ∧
  decode .P 0xC0000028 = .ok (.mixRate 0 40) ∧
  decode .P 0xD8090000 = .ok (.mixRead 9) ∧
  decode .T 0xF8000001 = .ok (.tick true) ∧
  decode .P 0xF8000001 = .error (.reservedOpcode 0x1F)

/-- 30_encoding.md rule R105. -/
def Obligations.ReservedOpcodeRaisesIll : Prop :=
  (∀ (s : State) (w : Word) (rest : List Instant), s.inbox = { command := some w } :: rest →
    opField w ∈ [0x0E, 0x0F, 0x14, 0x15, 0x16, 0x17, 0x1C, 0x1D, 0x1E, 0x1F] →
    step s = .next { s with inbox := rest, err := s.err ||| 0b00001, out := s.out ++ [.resp 0x80000000] }) ∧
  (∀ w : Word, opField w ∉ [0x0E, 0x0F, 0x14, 0x15, 0x16, 0x17, 0x1C, 0x1D, 0x1E, 0x1F] →
    ∃ i, decode .P w = .ok i)

/-- 30_encoding.md rule R101. -/
def Obligations.TPortAcceptsOnlyTick : Prop :=
  (∀ w : Word, opField w = 0x1F → decode .T w = .ok (.tick (w.getLsbD 0))) ∧
  ∀ (s : State) (w : Word) (rest : List Instant), s.inbox = { tick := some w } :: rest →
    opField w ≠ 0x1F → step s = .next { s with inbox := rest, err := s.err ||| 0b00001 }

/-- A step runs the instruction that the presented word names (00_scope.md rule R9, 30_encoding.md rule R110), on the
state with that word taken from the ports. -/
def Obligations.StepRunsThePresentedInstruction : Prop :=
  ∀ (s : State) (w : Word) (i : Instr) (rest : List Instant),
    (s.inbox = { command := some w } :: rest → decode .P w = .ok i → step s = exec i { s with inbox := rest }) ∧
    (s.inbox = { tick := some w } :: rest → decode .T w = .ok i → step s = exec i { s with inbox := rest })

/-- 60_exceptions.md rule R285. -/
def Obligations.TickGoesBeforeTheCommand : Prop :=
  ∀ (s : State) (tw cw : Word) (rest : List Instant),
    s.inbox = { tick := some tw, command := some cw } :: rest →
    ∃ t, runWord .T tw { s with inbox := { command := some cw } :: rest } = .next t ∧ step s = .next t ∧
      step t = runWord .P cw { t with inbox := rest }

/-- 70_reset_and_hazards.md rule R310: the reset value of every piece of state; the parameters are kept. -/
def Obligations.ResetLineResets : Prop :=
  ∀ (s : State) (i : Instant) (rest : List Instant), s.inbox = i :: rest → i.reset = true →
    ∃ t, step s = .next t ∧
      t.ring.p = 0 ∧ t.ring.c.toNat = s.par.N / 2 ∧ t.ring.s = 0 ∧
      (∀ slot off, t.sampleAt slot off = 0 ∧ t.maskAt slot off = false) ∧
      t.trig = { detected := false, delay := 0, fired := false } ∧
      t.scan.phase = 0 ∧ (∀ k : Fin 4, t.scan.chValue[k] = 0) ∧
      t.metaSeq = { idx := 0, rep := 0, div := 0, dir := false, shape := 0, pitch := 0, aux := 0 } ∧
      t.tmSeq = { reg := 0, pos := 0, div := 0, pitch := 0 } ∧
      (∀ k, t.slot k = { rate := 0, atk := 0, dec := 0, level := 0 }) ∧
      t.mix.timbre = 0 ∧ t.mix.color = 0 ∧ t.mix.gain = 0 ∧ t.mix.vib = 0 ∧
      t.err = 0 ∧
      (∀ r, cfgReadOnly r = false → t.cfgValue r = 0) ∧
      t.cfgValue .id = 0x4D4D ∧ (t.cfgValue .cfgN).toNat = s.par.N ∧ (t.cfgValue .cfgB).toNat = s.par.B ∧
      (t.cfgValue .cfgScan).toNat = s.par.scanLen ∧ t.par = s.par

/-- 70_reset_and_hazards.md rule R311, the ring's part: after reset N - 1 - N/2 slots wait, and the words presented in
the instant of a reset are lost. That what stands on the ports later, what the environment has ready and what was put
out outlive a reset is the model's choice (notes/assumptions/7.md). -/
def Obligations.ResetLosesItsWordsAndKeepsThePorts : Prop :=
  ∀ (s : State) (i : Instant) (rest : List Instant), s.inbox = i :: rest → i.reset = true →
    ∃ t, step s = .next t ∧ waiting t = s.par.N - 1 - s.par.N / 2 ∧ t.inbox = rest ∧ t.env = s.env ∧ t.out = s.out

/-- 60_exceptions.md rule R280, 20_memory.md rule R83: every step completes. That a step with nothing presented changes
nothing is the model's reading (notes/assumptions/5.md). -/
def Obligations.EveryStepCompletes : Prop :=
  (∀ s : State, ∃ t, step s = .next t) ∧ ∀ s : State, s.inbox = [] → step s = .next s

/-! ### System, configuration and errors -/

/-- 40_system.md rules R120, R121. -/
def Obligations.NopAndErrRead : Prop :=
  (∀ w : Word, opField w = 0x00 → decode .P w = .ok .nop) ∧
  (∀ w : Word, opField w = 0x06 → decode .P w = .ok .errRead) ∧
  ∀ s : State,
    exec .nop s = .next { s with out := s.out ++ [.resp 0] } ∧
    exec .errRead s = .next { s with out := s.out ++ [.resp (s.err.zeroExtend 32)] }

/-- 40_system.md rule R124. -/
def Obligations.ErrClearClearsTheChosenBits : Prop :=
  (∀ w : Word, opField w = 0x07 → decode .P w = .ok (.errClear (w.extractLsb' 0 5))) ∧
  ∀ (mask : BitVec 5) (s : State), ∃ t, exec (.errClear mask) s = .next t ∧
    (∀ j, j < 5 → t.err.getLsbD j = (s.err.getLsbD j && !mask.getLsbD j)) ∧
    t = { s with err := t.err, out := s.out ++ [.resp (t.err.zeroExtend 32)] }

/-- 40_system.md rule R122. -/
def Obligations.CfgReadAnswersTheRegister : Prop :=
  (∀ w : Word, opField w = 0x0D → decode .P w = .ok (.cfgRead (aField w))) ∧
  (∀ (addr : Nat) (r : CfgReg) (s : State), cfgRegister addr = some r →
    exec (.cfgRead addr) s = .next { s with out := s.out ++ [.resp ((s.cfgValue r).zeroExtend 32)] }) ∧
  (∀ (addr : Nat) (s : State), cfgRegister addr = none →
    exec (.cfgRead addr) s =
      .next { s with err := s.err ||| 0b00100, out := s.out ++ [.resp 0x80000000] }) ∧
  (∀ s : State, s.cfgValue .id = 0x4D4D ∧ (s.cfgValue .cfgN).toNat = s.par.N ∧
    (s.cfgValue .cfgB).toNat = s.par.B ∧ (s.cfgValue .cfgScan).toNat = s.par.scanLen)

/-- 40_system.md rule R123: what a write stores, answers and leaves; the value stored is the subject of
`StoredValueIsLegal`. -/
def Obligations.CfgWriteStoresTheLegalValue : Prop :=
  (∀ w : Word, opField w = 0x0C → decode .P w = .ok (.cfgWrite (aField w) (w.extractLsb' 0 16))) ∧
  (∀ (addr : Nat) (v : Half) (s : State), cfgRegister addr = none →
    exec (.cfgWrite addr v) s =
      .next { s with err := s.err ||| 0b00100, out := s.out ++ [.resp 0x80000000] }) ∧
  (∀ (addr : Nat) (r : CfgReg) (v : Half) (s : State), cfgRegister addr = some r → cfgReadOnly r = true →
    exec (.cfgWrite addr v) s =
      .next { s with err := s.err ||| 0b10000, out := s.out ++ [.resp 0x80000000] }) ∧
  (∀ (addr : Nat) (r : CfgReg) (v : Half) (s : State), s.cfg.wf = true →
    cfgRegister addr = some r → cfgReadOnly r = false →
    ∃ t, exec (.cfgWrite addr v) s = .next t ∧
      t.cfgValue r = cfgStored r v ∧ (∀ q, q ≠ r → t.cfgValue q = s.cfgValue q) ∧
      t = { s with cfg := t.cfg, out := s.out ++ [.resp ((cfgStored r v).zeroExtend 32)] })

/-- 10_state.md rules R40, R41, R42: the value a write stores, register by register, with the bits of rule R40's table
written out, and that storing a stored value changes nothing. -/
def Obligations.StoredValueIsLegal : Prop :=
  (∀ (r : CfgReg) (v : Half), cfgReadOnly r = false → cfgStored r (cfgStored r v) = cfgStored r v) ∧
  (∀ v : Half, bits (cfgStored .metaCtrl v) 6 0 = min (bits v 6 0) 64 ∧
    (bits (cfgStored .metaCtrl v) 9 8 = if bits v 9 8 = 3 then 0 else bits v 9 8) ∧
    cfgStored .metaCtrl v &&& 0xFC80 = 0) ∧
  (∀ v : Half, bits (cfgStored .tmCtrl v) 5 0 = min (bits v 5 0) 32 ∧
    bits (cfgStored .tmCtrl v) 10 8 = min (bits v 10 8) 4 ∧
    bits (cfgStored .tmCtrl v) 12 12 = bits v 12 12 ∧ cfgStored .tmCtrl v &&& 0xE8C0 = 0) ∧
  (∀ v : Half, cfgStored .ctrl v = v &&& 0x0001 ∧ cfgStored .trigCfg v = v &&& 0x0007 ∧
    cfgStored .metaDiv v = v &&& 0x00FF ∧ cfgStored .tmDiv v = v &&& 0x00FF ∧ cfgStored .tmThresh v = v ∧
    cfgStored .xmodDepth v = v ∧ cfgStored .route v = v &&& 0x000F ∧
    cfgStored .baseT v = v ∧ cfgStored .baseC v = v ∧ cfgStored .baseG v = v) ∧
  (∀ (i : Fin 64) (v : Half), cfgStored (.stepShape i) v = v &&& 0x00FF ∧ cfgStored (.stepPitch i) v = v ∧
    cfgStored (.stepAux i) v = v ∧ cfgStored (.stepRepeat i) v = v &&& 0x00FF) ∧
  (∀ (k : Fin 2) (v : Half), cfgStored (.modCtrl k) v = v &&& 0x000F ∧ cfgStored (.modRate k) v = v &&& 0x007F ∧
    cfgStored (.modRatio k) v = v &&& 0x007F ∧ cfgStored (.modDepthT k) v = v ∧ cfgStored (.modDepthC k) v = v ∧
    cfgStored (.modDepthV k) v = v ∧ cfgStored (.modDepthG k) v = v)

/-- 10_state.md rules R40, R44: the address of every register, as rule R40's table gives it; the map names every
register at its address, and nothing else. -/
def Obligations.ConfigurationMapIsOneToOne : Prop :=
  (∀ r : CfgReg, cfgRegister (cfgAddress r) = some r ∧ cfgAddress r < 0x800) ∧
  (∀ (a : Nat) (r : CfgReg), cfgRegister a = some r → a = cfgAddress r) ∧
  (cfgRegister 0x000 = some .id ∧ cfgRegister 0x001 = some .cfgN ∧ cfgRegister 0x002 = some .cfgB ∧
    cfgRegister 0x003 = some .cfgScan ∧ cfgRegister 0x004 = some .ctrl ∧ cfgRegister 0x010 = some .trigCfg ∧
    cfgRegister 0x020 = some .metaCtrl ∧ cfgRegister 0x021 = some .metaDiv ∧ cfgRegister 0x022 = some .tmCtrl ∧
    cfgRegister 0x023 = some .tmDiv ∧ cfgRegister 0x024 = some .tmThresh ∧ cfgRegister 0x320 = some .xmodDepth ∧
    cfgRegister 0x321 = some .route ∧ cfgRegister 0x330 = some .baseT ∧ cfgRegister 0x331 = some .baseC ∧
    cfgRegister 0x332 = some .baseG) ∧
  (∀ i : Fin 64, cfgRegister (0x040 + 4 * i) = some (.stepShape i) ∧
    cfgRegister (0x041 + 4 * i) = some (.stepPitch i) ∧ cfgRegister (0x042 + 4 * i) = some (.stepAux i) ∧
    cfgRegister (0x043 + 4 * i) = some (.stepRepeat i)) ∧
  (∀ k : Fin 2, cfgRegister (0x300 + 0x10 * k) = some (.modCtrl k) ∧
    cfgRegister (0x301 + 0x10 * k) = some (.modRate k) ∧ cfgRegister (0x302 + 0x10 * k) = some (.modRatio k) ∧
    cfgRegister (0x303 + 0x10 * k) = some (.modDepthT k) ∧ cfgRegister (0x304 + 0x10 * k) = some (.modDepthC k) ∧
    cfgRegister (0x305 + 0x10 * k) = some (.modDepthV k) ∧ cfgRegister (0x306 + 0x10 * k) = some (.modDepthG k))

/-! ### RING -/

/-- 41_ring.md rule R141. -/
def Obligations.RingStatusPacksTheIndices : Prop :=
  (∀ w : Word, opField w = 0x01 → decode .P w = .ok .ringStatus) ∧
  ∀ s : State, ∃ r : Word, exec .ringStatus s = .next { s with out := s.out ++ [.resp r] } ∧
    r.extractLsb' 0 8 = s.ring.p ∧ r.extractLsb' 8 8 = s.ring.c ∧ r.extractLsb' 16 10 = s.ring.s ∧
    r.getLsbD 26 = decide (s.ring.p ≠ s.ring.c) ∧ r.extractLsb' 27 5 = 0

/-- 41_ring.md rule R142, with its corner case: FREE is lost only by RING_ADVANCE or an underrun. -/
def Obligations.RingAcquireAnswersTheFreeSlot : Prop :=
  (∀ w : Word, opField w = 0x02 → decode .P w = .ok .ringAcquire) ∧
  (∀ s : State, ∃ r : Word, exec .ringAcquire s = .next { s with out := s.out ++ [.resp r] } ∧
    r.extractLsb' 0 8 = s.ring.p ∧ r.getLsbD 26 = decide (s.ring.p ≠ s.ring.c) ∧
    r.extractLsb' 8 18 = 0 ∧ r.extractLsb' 27 5 = 0) ∧
  ∀ (s t : State) (i : Instr), s.ring.p ≠ s.ring.c → exec i s = .next t → t.ring.p = t.ring.c →
    i = .ringAdvance ∨ ((∃ g, i = .tick g) ∧ t.err = s.err ||| 0b01000)

/-- 41_ring.md rule R143: the store, and every other sample as it was. -/
def Obligations.RingWriteStoresOneSample : Prop :=
  (∀ w : Word, opField w = 0x03 → decode .P w = .ok (.ringWrite (aField w) (w.extractLsb' 0 16))) ∧
  (∀ (off : Nat) (x : Half) (s : State), s.ring.sample.wf = true → off < s.par.B → s.ring.p ≠ s.ring.c →
    ∃ t, exec (.ringWrite off x) s = .next t ∧
      t.sampleAt s.ring.p.toNat off = x ∧
      (∀ slot o, o < 1024 → (slot ≠ s.ring.p.toNat ∨ o ≠ off) → t.sampleAt slot o = s.sampleAt slot o) ∧
      t = { s with ring := { s.ring with sample := t.ring.sample }, out := s.out ++ [.resp 0] }) ∧
  (∀ (off : Nat) (x : Half) (s : State), s.par.B ≤ off →
    exec (.ringWrite off x) s =
      .next { s with err := s.err ||| 0b00100, out := s.out ++ [.resp 0x80000000] }) ∧
  (∀ (off : Nat) (x : Half) (s : State), off < s.par.B → s.ring.p = s.ring.c →
    exec (.ringWrite off x) s =
      .next { s with err := s.err ||| 0b00010, out := s.out ++ [.resp 0x80000000] })

/-- 41_ring.md rule R144: bit j of the response is the mask bit at offset 16A + j, 0 beyond B. -/
def Obligations.RingReadmaskAnswersTheGroup : Prop :=
  (∀ w : Word, opField w = 0x04 → decode .P w = .ok (.ringReadmask (aField w))) ∧
  (∀ (group : Nat) (s : State), 16 * group < s.par.B →
    ∃ r : Word, exec (.ringReadmask group) s = .next { s with out := s.out ++ [.resp r] } ∧
      (∀ j, j < 16 → r.getLsbD j =
        (decide (16 * group + j < s.par.B) && s.maskAt s.ring.p.toNat (16 * group + j))) ∧
      r.extractLsb' 16 16 = 0) ∧
  (∀ (group : Nat) (s : State), s.par.B ≤ 16 * group →
    exec (.ringReadmask group) s =
      .next { s with err := s.err ||| 0b00100, out := s.out ++ [.resp 0x80000000] })

/-- 41_ring.md rule R146. -/
def Obligations.RingAdvanceMovesTheProducer : Prop :=
  (∀ w : Word, opField w = 0x05 → decode .P w = .ok .ringAdvance) ∧
  (∀ s : State, s.ring.p ≠ s.ring.c → ∃ t, exec .ringAdvance s = .next t ∧
    t.ring.p.toNat = (s.ring.p.toNat + 1) % s.par.N ∧
    t = { s with ring := { s.ring with p := t.ring.p },
                 out := s.out ++ [.resp (0x04000000 + t.ring.p.zeroExtend 32)] }) ∧
  (∀ s : State, s.ring.p = s.ring.c → ∃ t, exec .ringAdvance s = .next t ∧
    t.ring.p.toNat = (s.ring.p.toNat + 1) % s.par.N ∧
    (s.ring.c.toNat < s.par.N → waiting t = 0) ∧
    t = { s with ring := { s.ring with p := t.ring.p }, err := s.err ||| 0b00010,
                 out := s.out ++ [.resp (0x80000000 + t.ring.p.zeroExtend 32)] })

/-- 10_state.md rule R27, 41_ring.md rules R146, R147: how the waiting count moves. A free producer's advance adds one;
an effective tick at the end of a block takes one away, or finds none and the count becomes N - 1. -/
def Obligations.WaitingCountMoves : Prop :=
  (∀ s : State, waiting s ≤ s.par.N - 1) ∧
  (∀ s t : State, s.ring.p.toNat < s.par.N → s.ring.c.toNat < s.par.N → s.ring.p ≠ s.ring.c →
    exec .ringAdvance s = .next t → waiting t = waiting s + 1) ∧
  (∀ (s t : State) (g : Bool), s.ring.p.toNat < s.par.N → s.ring.c.toNat < s.par.N → s.tickEn = true →
    s.ring.s.toNat + 1 = s.par.B → exec (.tick g) s = .next t →
    waiting t = if waiting s = 0 then s.par.N - 1 else waiting s - 1)

/-- 41_ring.md rules R140, R145, 20_memory.md rule R79: a free producer that writes a block's B samples and advances has
published them: the slot it wrote holds them, every other sample is as it was, and no error is raised. -/
def Obligations.PublishedBlockHoldsTheSamples : Prop :=
  ∀ (s : State) (samples : List Half), s.ring.sample.wf = true → s.ring.p ≠ s.ring.c → samples.length = s.par.B →
    ∃ t, runAll (publishBlock samples) s = .next t ∧
      (∀ j (h : j < samples.length), t.sampleAt s.ring.p.toNat j = samples[j]) ∧
      (∀ slot o, o < 1024 → slot ≠ s.ring.p.toNat → t.sampleAt slot o = s.sampleAt slot o) ∧
      t.ring.p.toNat = (s.ring.p.toNat + 1) % s.par.N ∧ t.ring.c = s.ring.c ∧ t.err = s.err

/-! ### TRIG -/

/-- 42_trigger.md rules R166, R167. -/
def Obligations.TriggerCommands : Prop :=
  (∀ w : Word, opField w = 0x08 → decode .P w = .ok .trigTake) ∧
  (∀ w : Word, opField w = 0x09 → decode .P w = .ok .trigStatus) ∧
  (∀ s : State, exec .trigTake s =
    .next { s with trig := { s.trig with fired := false },
                   out := s.out ++ [.resp (if s.trig.fired then 1 else 0)] }) ∧
  ∀ s : State, ∃ r : Word, exec .trigStatus s = .next { s with out := s.out ++ [.resp r] } ∧
    r.getLsbD 0 = s.trig.fired ∧ r.getLsbD 1 = s.trig.detected ∧ r.extractLsb' 2 6 = 0 ∧
    r.extractLsb' 8 8 = s.trig.delay ∧ r.extractLsb' 16 16 = 0

/-- 42_trigger.md rules R161, R165: the timing law. From `detected = 0` and `delay = 0` a tick with G = 1 and then `m`
ticks with G = 0 contain `(phase + m + 1) / SCAN_LEN` cycle-complete events; `fired` is set once D + 1 of them have
happened, that is at the D-th event after the first, with D = 0 for exponent 0 and 2^e otherwise. -/
def Obligations.TriggerFiresAfterTheDelay : Prop :=
  ∀ (s : State) (m : Nat), s.tickEn = true → s.trig = { detected := false, delay := 0, fired := false } →
    s.scan.phase.toNat < s.par.scanLen →
    ∃ t, runAll (ticks (true :: List.replicate m false)) s = .next t ∧
      (t.trig.fired = true ↔
        (if s.delayExp = 0 then 0 else 2 ^ s.delayExp) + 1 ≤ (s.scan.phase.toNat + m + 1) / s.par.scanLen)

/-- 42_trigger.md rules R160, R161, R164: the ticks that end one scan cycle arm the counter once if any of them carries
G = 1, and not at all if none does. -/
def Obligations.ScanCycleArmsAtMostOnce : Prop :=
  ∀ (s : State) (gates : List Bool), s.tickEn = true →
    s.trig = { detected := false, delay := 0, fired := false } →
    s.scan.phase.toNat + gates.length = s.par.scanLen → gates ≠ [] →
    ∃ t, runAll (ticks gates) s = .next t ∧ t.trig.detected = false ∧
      t.trig.delay.toNat = (if true ∈ gates ∧ s.delayExp ≠ 0 then 2 ^ s.delayExp else 0) ∧
      (t.trig.fired = true ↔ true ∈ gates ∧ s.delayExp = 0)

/-- 10_state.md rule R30, 42_trigger.md rules R163, R166: `fired` is set only by a tick that completes a scan cycle and
leaves `delay` at 0 from an armed or running count, and cleared only by TRIG_TAKE. -/
def Obligations.FiredIsSetOnlyAtTheEndOfACountdown : Prop :=
  ∀ (s t : State) (i : Instr), exec i s = .next t →
    (s.trig.fired = false → t.trig.fired = true →
      (∃ g, i = .tick g ∧ ((s.trig.detected = true ∨ g = true) ∨ s.trig.delay = 1)) ∧
      (s.scan.phase.toNat + 1) % s.par.scanLen = 0 ∧ s.tickEn = true ∧ t.trig.delay = 0) ∧
    (s.trig.fired = true → t.trig.fired = false → i = .trigTake)

/-! ### SCAN -/

/-- 43_adc_scan.md rules R182, R183. -/
def Obligations.AdcCommands : Prop :=
  (∀ w : Word, opField w = 0x0A → decode .P w = .ok (.adcRead (aField w))) ∧
  (∀ w : Word, opField w = 0x0B → decode .P w = .ok .adcStatus) ∧
  (∀ (k : Fin 4) (s : State), exec (.adcRead k) s =
    .next { s with out := s.out ++ [.resp (s.scan.chValue[k].zeroExtend 32)] }) ∧
  (∀ (ch : Nat) (s : State), 4 ≤ ch → exec (.adcRead ch) s =
    .next { s with err := s.err ||| 0b00100, out := s.out ++ [.resp 0x80000000] }) ∧
  ∀ s : State, exec .adcStatus s = .next { s with out := s.out ++ [.resp (s.scan.phase.zeroExtend 32)] }

/-- 43_adc_scan.md rule R180, and rule R181, which the spec derives from it: over any effective ticks the phase counts
modulo SCAN_LEN and one UI push is made each SCAN_LEN ticks. The draws are counted by the model's own field
`env.adcTaken` (notes/assumptions/3.md). -/
def Obligations.EveryScanLenTicksCompleteACycle : Prop :=
  ∀ (s : State) (gates : List Bool), s.tickEn = true → s.scan.phase.toNat < s.par.scanLen →
    ∃ t, runAll (ticks gates) s = .next t ∧
      t.scan.phase.toNat = (s.scan.phase.toNat + gates.length) % s.par.scanLen ∧
      (uiPushes t.out).length =
        (uiPushes s.out).length + (s.scan.phase.toNat + gates.length) / s.par.scanLen ∧
      t.env.adcTaken = s.env.adcTaken + (s.scan.phase.toNat + gates.length) / s.par.scanLen

/-! ### TICK -/

/-- 44_tick.md rule R193, and TICK_EN after reset. -/
def Obligations.DisabledTickHasNoEffect : Prop :=
  (∀ (g : Bool) (s : State), s.tickEn = false → exec (.tick g) s = .next s) ∧
  (∀ P : Params, (State.resetWith P).tickEn = false) ∧
  ∀ (g : Bool) (P : Params), exec (.tick g) (State.resetWith P) = .next (State.resetWith P)

/-- 44_tick.md rule R190: the work of an effective tick, step by step, and what it leaves; without TICK_EN it returns
at once. -/
def Obligations.EffectiveTickDoesItsFiveSteps : Prop :=
  (∀ w : Word, opField w = 0x1F → decode .T w = .ok (.tick (w.getLsbD 0))) ∧
  (∀ (g : Bool) (s : State), s.tickEn = false → exec (.tick g) s = .next s) ∧
  ∀ (g : Bool) (s : State), s.tickEn = true → s.ring.mask.wf = true →
    ∃ t, exec (.tick g) s = .next t ∧
      t.out = s.out ++ [.dac (outMap false (s.sampleAt s.ring.c.toNat s.ring.s.toNat))] ++
        (if (s.scan.phase.toNat + 1) % s.par.scanLen = 0 then [.ui t.scan.chValue] else []) ∧
      t.maskAt s.ring.c.toNat s.ring.s.toNat = g ∧
      (∀ slot o, o < 1024 → (slot ≠ s.ring.c.toNat ∨ o ≠ s.ring.s.toNat) → t.maskAt slot o = s.maskAt slot o) ∧
      (t.ring.s.toNat = if s.ring.s.toNat + 1 = s.par.B then 0 else (s.ring.s.toNat + 1) % 1024) ∧
      (t.ring.c.toNat =
        if s.ring.s.toNat + 1 = s.par.B then (s.ring.c.toNat + 1) % s.par.N else s.ring.c.toNat) ∧
      (t.err =
        if s.ring.s.toNat + 1 = s.par.B ∧ (s.ring.c.toNat + 1) % s.par.N = s.ring.p.toNat
        then s.err ||| 0b01000 else s.err) ∧
      t.scan.phase.toNat = (s.scan.phase.toNat + 1) % s.par.scanLen ∧
      (if (s.scan.phase.toNat + 1) % s.par.scanLen = 0 then
        (∀ k : Fin 4, t.scan.chValue[k].toNat < 2 ^ s.par.adcBits) ∧
        t.scan.chValue = nextAdc s.par s.env ∧ t.env = afterAdc s.env ∧
        t.trig.detected = false ∧
        (∀ armed : Nat,
          armed = (if (s.trig.detected || g) = true
            then (if s.delayExp = 0 then 0 else 2 ^ s.delayExp) + 1 else s.trig.delay.toNat) →
          t.trig.delay.toNat = armed - 1 ∧ t.trig.fired = (s.trig.fired || decide (armed = 1)))
      else
        t.scan.chValue = s.scan.chValue ∧ t.env = s.env ∧
        t.trig = { s.trig with detected := s.trig.detected || g }) ∧
      t = { s with ring := { s.ring with s := t.ring.s, c := t.ring.c, mask := t.ring.mask },
                   trig := t.trig, scan := t.scan, err := t.err, env := t.env, out := t.out }

/-- 44_tick.md rule R192, both polarities. -/
def Obligations.OutMapOffsetsTheSample : Prop :=
  (∀ x : Half, ((outMap false x).toNat : Int) = (x.toInt + 32768) % 65536) ∧
  (∀ x : Half, ((outMap true x).toNat : Int) = (32768 - x.toInt) % 65536) ∧
  (∀ x : Half, outMap false x = x ^^^ 0x8000) ∧ outInvert = false

/-- 60_exceptions.md rule R283, 70_reset_and_hazards.md rule R313: an effective tick raises UDR exactly at the end of a
block with no waiting slot, and then the consumer stands on the producer's slot. -/
def Obligations.UnderrunExactlyWhenNoSlotWaits : Prop :=
  ∀ (s t : State) (g : Bool), s.tickEn = true → s.ring.p.toNat < s.par.N → s.ring.c.toNat < s.par.N →
    exec (.tick g) s = .next t →
    (t.err = if s.ring.s.toNat + 1 = s.par.B ∧ waiting s = 0 then s.err ||| 0b01000 else s.err) ∧
    (s.ring.s.toNat + 1 = s.par.B → waiting s = 0 → t.ring.c = s.ring.p ∧ t.ring.p = s.ring.p)

/-- 44_tick.md rule R196, which the spec derives from rule R190: B effective ticks from the start of a block play slot
c's samples in order, record the gates in its mask in order, and move the consumer one slot on. -/
def Obligations.BlockPlaysInOrder : Prop :=
  ∀ (s : State) (gates : List Bool), s.tickEn = true → s.ring.mask.wf = true → s.ring.s = 0 →
    gates.length = s.par.B →
    ∃ t, runAll (ticks gates) s = .next t ∧
      dacWords t.out =
        dacWords s.out ++ (List.range s.par.B).map (fun j => outMap false (s.sampleAt s.ring.c.toNat j)) ∧
      (∀ j (h : j < gates.length), t.maskAt s.ring.c.toNat j = gates[j]) ∧
      t.ring.s = 0 ∧ t.ring.c.toNat = (s.ring.c.toNat + 1) % s.par.N

/-- 41_ring.md rule R149, with no underrun and no overrun. A sample of a waiting slot (of the slot being played, for
`k = 0`) is reached by the consumer in fewer than N * B effective ticks that raise no error, and the next tick sends
it to the DAC port. So is a sample that a free producer writes to its slot and publishes: the slots before it are the
waiting ones, then come `off` samples of the slot itself. -/
def Obligations.SampleIsPlayedWithinTheRing : Prop :=
  (∀ (s : State) (k off : Nat) (gates : List Bool) (g : Bool), s.tickEn = true → s.ring.p.toNat < s.par.N →
    s.ring.c.toNat < s.par.N → s.ring.s.toNat < s.par.B → k ≤ waiting s → off < s.par.B →
    gates.length + s.ring.s.toNat = k * s.par.B + off →
    gates.length < s.par.N * s.par.B ∧
    ∃ t u, runAll (ticks gates) s = .next t ∧ t.ring.c.toNat = (s.ring.c.toNat + k) % s.par.N ∧
      t.ring.s.toNat = off ∧ t.err = s.err ∧ exec (.tick g) t = .next u ∧
      dacWords u.out = dacWords t.out ++ [outMap false (s.sampleAt ((s.ring.c.toNat + k) % s.par.N) off)]) ∧
  (∀ (s : State) (off : Nat) (x : Half) (gates : List Bool) (g : Bool), s.tickEn = true →
    s.ring.sample.wf = true → s.ring.p.toNat < s.par.N → s.ring.c.toNat < s.par.N → s.ring.s.toNat < s.par.B →
    s.ring.p ≠ s.ring.c → off < s.par.B → gates.length + s.ring.s.toNat = (waiting s + 1) * s.par.B + off →
    gates.length < s.par.N * s.par.B ∧
    ∃ t u, runAll ([.ringWrite off x, .ringAdvance] ++ ticks gates) s = .next t ∧ t.ring.c = s.ring.p ∧
      t.ring.s.toNat = off ∧ t.err = s.err ∧ exec (.tick g) t = .next u ∧
      dacWords u.out = dacWords t.out ++ [outMap false x])

/-! ### SEQ -/

/-- 45_sequencer.md rule R211: a rollover, the count otherwise, and the division law. -/
def Obligations.DividerRollsEveryDivCalls : Prop :=
  (∀ (cnt : BitVec 8) (div : Nat), div ≤ 255 →
    (max 1 div ≤ cnt.toNat + 1 → divideRolls cnt div = true ∧ divideCount cnt div = 0) ∧
    (cnt.toNat + 1 < max 1 div → divideRolls cnt div = false ∧
      (divideCount cnt div).toNat = cnt.toNat + 1)) ∧
  (∀ d n : Nat, 1 ≤ d → d ≤ 255 →
    ((fun cnt => divideCount cnt d)^[n] 0).toNat = n % d ∧
    (divideRolls ((fun cnt => divideCount cnt d)^[n] 0) d = true ↔ (n + 1) % d = 0))

/-- 45_sequencer.md rule R210: LEN = 0 or t = 0 leaves a sequencer as it is. -/
def Obligations.SequencersIdleWithoutTrigger : Prop :=
  (∀ (t : Bool) (s : State), s.metaLen = 0 →
    exec (.seqMetaClock t) s = .next { s with out := s.out ++ [.resp 0] }) ∧
  (∀ (t : Bool) (s : State), s.tmLen = 0 →
    exec (.seqTmClock t) s = .next { s with out := s.out ++ [.resp 0] }) ∧
  (∀ s : State, s.metaLen ≠ 0 →
    exec (.seqMetaClock false) s = .next { s with out := s.out ++ [.resp 2] }) ∧
  (∀ s : State, s.tmLen ≠ 0 →
    exec (.seqTmClock false) s = .next { s with out := s.out ++ [.resp 2] })

/-- 45_sequencer.md rules R212, R217: the inactive sequencer, the divider, the repeats, and the advance with its latch
and response. -/
def Obligations.SeqMetaClockAdvances : Prop :=
  (∀ w : Word, opField w = 0x10 → decode .P w = .ok (.seqMetaClock (w.getLsbD 0))) ∧
  (∀ (t : Bool) (s : State), s.metaLen = 0 ∨ t = false →
    exec (.seqMetaClock t) s = .next { s with out := s.out ++ [.resp (if s.metaLen = 0 then 0 else 2)] }) ∧
  (∀ s : State, s.metaLen ≠ 0 → s.metaSeq.div.toNat + 1 < max 1 s.metaDiv →
    exec (.seqMetaClock true) s =
      .next { s with metaSeq := { s.metaSeq with div := s.metaSeq.div + 1 }, out := s.out ++ [.resp 2] }) ∧
  (∀ s : State, s.metaLen ≠ 0 → max 1 s.metaDiv ≤ s.metaSeq.div.toNat + 1 →
    s.metaSeq.rep.toNat + 1 < max 1 (s.stepRepeat s.metaSeq.idx.toNat) →
    exec (.seqMetaClock true) s =
      .next { s with metaSeq := { s.metaSeq with div := 0, rep := s.metaSeq.rep + 1 },
                     out := s.out ++ [.resp 2] }) ∧
  (∀ (s : State) (n : Nat) (dir : Bool), s.metaLen ≠ 0 → max 1 s.metaDiv ≤ s.metaSeq.div.toNat + 1 →
    max 1 (s.stepRepeat s.metaSeq.idx.toNat) ≤ s.metaSeq.rep.toNat + 1 →
    ((s.metaDir = 0 ∧ (n, dir) = loopNext s.metaSeq.idx.toNat s.metaSeq.dir s.metaLen) ∨
      (s.metaDir = 1 ∧ (n, dir) = swingNext s.metaSeq.idx.toNat s.metaSeq.dir s.metaLen) ∨
      (s.metaDir = 2 ∧ (n, dir) = randomNext (nextRandom s.env) s.metaSeq.dir s.metaLen)) →
    exec (.seqMetaClock true) s =
      .next { s with
        metaSeq :=
          { idx := BitVec.ofNat 7 n, rep := 0, div := 0, dir := dir,
            shape := (s.cfgValue (.stepShape (stepEntry n))).extractLsb' 0 8,
            pitch := s.cfgValue (.stepPitch (stepEntry n)),
            aux := s.cfgValue (.stepAux (stepEntry n)) },
        env := if s.metaDir = 2 then afterRandom s.env else s.env,
        out := s.out ++ [.resp (BitVec.ofNat 32 (3
          + (if (s.cfgValue (.stepShape (stepEntry n))).extractLsb' 0 8 = s.metaSeq.shape then 0 else 4)
          + n * 256))] })

/-- 45_sequencer.md rules R213, R215: the loop runs 0 .. L-1, the random index is in range, and neither moves the
direction. -/
def Obligations.LoopAndRandomNext : Prop :=
  (∀ (i len : Nat) (dir : Bool), loopNext i dir len = (if i + 1 < len then i + 1 else 0, dir)) ∧
  (∀ (len n : Nat), 1 ≤ len → ((fun i => (loopNext i false len).1)^[n] 0) = n % len) ∧
  (∀ (r : Word) (len : Nat) (dir : Bool), 1 ≤ len →
    (randomNext r dir len).1 < len ∧ (randomNext r dir len).2 = dir ∧
    (randomNext r dir len).1 * 2 ^ 32 ≤ r.toNat * len ∧
    r.toNat * len < ((randomNext r dir len).1 + 1) * 2 ^ 32)

/-- 45_sequencer.md rule R214, 90_conflicts.md C2: one step of the swing from every index, in either direction and for
every length, an index at or above the length among them; for L = 1 the index stays 0 and the direction toggles; and
for L of at least 2, from step 0 ascending, the sequence is the triangle wave between 0 and L-1, with the direction
descending exactly on the way down. -/
def Obligations.SwingIsATriangleWave : Prop :=
  (∀ i len : Nat, 1 ≤ len →
    swingNext i false len = (if i + 1 < len - 1 then (i + 1, false) else (len - 1, true)) ∧
    swingNext i true len = (if i ≤ 1 ∨ len = 1 then (0, false) else (min (i - 1) (len - 1), true))) ∧
  (∀ n : Nat, (fun q : Nat × Bool => swingNext q.1 q.2 1)^[n] (0, false) = (0, decide (n % 2 = 1))) ∧
  ∀ (len n : Nat), 2 ≤ len →
    (fun q : Nat × Bool => swingNext q.1 q.2 len)^[n] (0, false) =
      (if n % (2 * (len - 1)) < len - 1 then n % (2 * (len - 1)) else 2 * (len - 1) - n % (2 * (len - 1)),
        decide (len - 1 ≤ n % (2 * (len - 1))))

/-- 45_sequencer.md rule R219: whatever the state, an advance of the meta-sequencer leaves its index below LEN and its
counters at 0, and an advance of the Turing sequencer leaves its position below LEN and no bit at or above LEN. -/
def Obligations.SequencersSelfCorrect : Prop :=
  (∀ (s t : State), 1 ≤ s.metaLen → max 1 s.metaDiv ≤ s.metaSeq.div.toNat + 1 →
    max 1 (s.stepRepeat s.metaSeq.idx.toNat) ≤ s.metaSeq.rep.toNat + 1 →
    exec (.seqMetaClock true) s = .next t →
    t.metaSeq.idx.toNat < s.metaLen ∧ t.metaSeq.rep = 0 ∧ t.metaSeq.div = 0) ∧
  (∀ (s t : State), 1 ≤ s.tmLen → s.tmLen ≤ 32 → max 1 s.tmDiv ≤ s.tmSeq.div.toNat + 1 →
    exec (.seqTmClock true) s = .next t →
    t.tmSeq.pos.toNat < s.tmLen ∧ t.tmSeq.reg.toNat < 2 ^ s.tmLen ∧ t.tmSeq.div = 0)

/-- 45_sequencer.md rule R216. -/
def Obligations.SeqMetaReadSelects : Prop :=
  (∀ w : Word, opField w = 0x11 → decode .P w = .ok (.seqMetaRead (aField w))) ∧
  (∀ s : State,
    exec (.seqMetaRead 0) s = .next { s with out := s.out ++ [.resp (s.metaSeq.shape.zeroExtend 32)] } ∧
    exec (.seqMetaRead 1) s = .next { s with out := s.out ++ [.resp (s.metaSeq.pitch.zeroExtend 32)] } ∧
    exec (.seqMetaRead 2) s = .next { s with out := s.out ++ [.resp (s.metaSeq.aux.zeroExtend 32)] } ∧
    ∃ r : Word, exec (.seqMetaRead 3) s = .next { s with out := s.out ++ [.resp r] } ∧
      r.extractLsb' 0 7 = s.metaSeq.idx ∧ r.getLsbD 7 = s.metaSeq.dir ∧ r.extractLsb' 8 8 = s.metaSeq.rep ∧
      r.extractLsb' 16 8 = s.metaSeq.div ∧ r.extractLsb' 24 8 = 0) ∧
  (∀ (sel : Nat) (s : State), 4 ≤ sel → exec (.seqMetaRead sel) s =
    .next { s with err := s.err ||| 0b00100, out := s.out ++ [.resp 0x80000000] })

/-- 45_sequencer.md rules R220, R222, R223: the inactive sequencer, the divider, the rotation, the work at the wrap
point, the pitch and the response. -/
def Obligations.SeqTmClockAdvances : Prop :=
  (∀ w : Word, opField w = 0x12 → decode .P w = .ok (.seqTmClock (w.getLsbD 0))) ∧
  (∀ (t : Bool) (s : State), s.tmLen = 0 ∨ t = false →
    exec (.seqTmClock t) s = .next { s with out := s.out ++ [.resp (if s.tmLen = 0 then 0 else 2)] }) ∧
  (∀ s : State, s.tmLen ≠ 0 → s.tmSeq.div.toNat + 1 < max 1 s.tmDiv →
    exec (.seqTmClock true) s =
      .next { s with tmSeq := { s.tmSeq with div := s.tmSeq.div + 1 }, out := s.out ++ [.resp 2] }) ∧
  (∀ (s : State) (r : Nat), s.tmLen ≠ 0 → max 1 s.tmDiv ≤ s.tmSeq.div.toNat + 1 →
    s.tmSeq.pos.toNat + 1 < s.tmLen → r = rotateRight s.tmLen s.tmSeq.reg.toNat →
    exec (.seqTmClock true) s =
      .next { s with
        tmSeq := { reg := BitVec.ofNat 32 r, pos := s.tmSeq.pos + 1, div := 0, pitch := tmPitchOf s r },
        out := s.out ++ [.resp (BitVec.ofNat 32 (3 + (s.tmSeq.pos.toNat + 1) * 256))] }) ∧
  (∀ (s : State) (r : Nat), s.tmLen ≠ 0 → max 1 s.tmDiv ≤ s.tmSeq.div.toNat + 1 →
    s.tmLen ≤ s.tmSeq.pos.toNat + 1 →
    r = (if s.tmReseed = true then (nextRandom (afterRandom s.env)).toNat % 2 ^ s.tmLen
      else if (nextRandom s.env).toNat % 65536 < (s.cfgValue .tmThresh).toNat
      then rotateRight s.tmLen s.tmSeq.reg.toNat ^^^ 2 ^ (s.tmLen - 1)
      else rotateRight s.tmLen s.tmSeq.reg.toNat) →
    exec (.seqTmClock true) s =
      .next { s with
        tmSeq := { reg := BitVec.ofNat 32 r, pos := 0, div := 0, pitch := tmPitchOf s r },
        env := if s.tmReseed = true then afterRandom (afterRandom s.env) else afterRandom s.env,
        out := s.out ++ [.resp 7] }) ∧
  (∀ (s : State) (r : Nat), (tmPitchOf s r).toInt =
    max (-32768) (min 32767 ((s.par.tmScale[r % 2 ^ s.tmWin]?.getD 0).toInt * 128)))

/-- 45_sequencer.md rule R221: the rotation is within bits [Nn-1:0], one place to the right, the least significant bit
coming back at the top. -/
def Obligations.RotationIsCircular : Prop :=
  ∀ (len r j : Nat), 1 ≤ len →
    (rotateRight len r).testBit j =
      if j + 1 < len then r.testBit (j + 1) else if j + 1 = len then r.testBit 0 else false

/-- 45_sequencer.md rule R224. -/
def Obligations.SeqTmReadSelects : Prop :=
  (∀ w : Word, opField w = 0x13 → decode .P w = .ok (.seqTmRead (aField w))) ∧
  (∀ s : State,
    exec (.seqTmRead 0) s = .next { s with out := s.out ++ [.resp (s.tmSeq.pitch.zeroExtend 32)] } ∧
    exec (.seqTmRead 1) s =
      .next { s with out := s.out ++ [.resp ((s.tmSeq.reg.extractLsb' 0 16).zeroExtend 32)] } ∧
    exec (.seqTmRead 2) s =
      .next { s with out := s.out ++ [.resp ((s.tmSeq.reg.extractLsb' 16 16).zeroExtend 32)] } ∧
    ∃ r : Word, exec (.seqTmRead 3) s = .next { s with out := s.out ++ [.resp r] } ∧
      r.extractLsb' 0 6 = s.tmSeq.pos ∧ r.extractLsb' 6 2 = 0 ∧ r.extractLsb' 8 8 = s.tmSeq.div ∧
      r.extractLsb' 16 16 = 0) ∧
  (∀ (sel : Nat) (s : State), 4 ≤ sel → exec (.seqTmRead sel) s =
    .next { s with err := s.err ||| 0b00100, out := s.out ++ [.resp 0x80000000] })

/-- 45_sequencer.md rule R225: two machines that agree on the register, the position, the divider, LEN, DIV, RESEED,
TM_THRESH and the random port agree on all of it after a clock, whatever else differs, the window width among it. -/
def Obligations.TuringRegisterHasNoHiddenState : Prop :=
  ∀ (s₁ s₂ t₁ t₂ : State) (b : Bool), s₁.tmSeq.reg = s₂.tmSeq.reg → s₁.tmSeq.pos = s₂.tmSeq.pos →
    s₁.tmSeq.div = s₂.tmSeq.div → s₁.tmLen = s₂.tmLen → s₁.tmDiv = s₂.tmDiv → s₁.tmReseed = s₂.tmReseed →
    s₁.tmThresh = s₂.tmThresh → s₁.env = s₂.env →
    exec (.seqTmClock b) s₁ = .next t₁ → exec (.seqTmClock b) s₂ = .next t₂ →
    t₁.tmSeq.reg = t₂.tmSeq.reg ∧ t₁.tmSeq.pos = t₂.tmSeq.pos ∧ t₁.tmSeq.div = t₂.tmSeq.div ∧ t₁.env = t₂.env

/-! ### MIX -/

/-- 46_mixer.md rules R252, R253, R254. -/
def Obligations.MixRateDerivesTheSlot : Prop :=
  (∀ w : Word, opField w = 0x18 → decode .P w = .ok (.mixRate (aField w) (w.extractLsb' 0 16))) ∧
  (∀ (k : Fin 2) (cv : Half) (s : State) (x : Int) (c r : Nat),
    x = ((s.cfgValue (.modRate k)).toNat % 128 : Nat)
      + (if s.route = k.val + 1 then cv.toInt else 0)
      + (if k = 1 then ((s.slot 0).level.toNat : Int) * (s.cfgValue .xmodDepth).toInt / 16777216 else 0) →
    c = (max 0 (min 127 x)).toNat →
    r = (if s.slotKind k = .lfo ∧ s.rateInv k = true then 127 - c else c) →
    ∃ t, exec (.mixRate k cv) s = .next t ∧
      (t.slot k).rate.toNat = r ∧
      (t.slot k).atk.toNat = 2 * r * (1 + s.modRatio k) / 256 ∧
      (t.slot k).dec.toNat = 2 * r * (128 - s.modRatio k) / 256 ∧
      (t.slot k).level = (s.slot k).level ∧ (∀ j, j ≠ k → t.slot j = s.slot j) ∧
      t = { s with
        mix := { s.mix with slots := t.mix.slots },
        out := s.out ++ [.resp (BitVec.ofNat 32 (r + (t.slot k).atk.toNat * 256 + (t.slot k).dec.toNat * 65536
          + (match s.slotKind k with
            | .off => 0
            | .env => 1
            | .lfo => 2) * 16777216))] }) ∧
  (∀ (slot : Nat) (cv : Half) (s : State), 2 ≤ slot → exec (.mixRate slot cv) s =
    .next { s with err := s.err ||| 0b00100, out := s.out ++ [.resp 0x80000000] })

/-- 46_mixer.md rule R252: the two fractions of a rate. That neither exceeds the rate, and that their sum is the rate or
one less, the spec derives. -/
def Obligations.AttackAndDecayShareTheRate : Prop :=
  ∀ r q : Nat, r ≤ 127 → q ≤ 127 →
    attackOf r q = 2 * r * (1 + q) / 256 ∧ decayOf r q = 2 * r * (128 - q) / 256 ∧
    attackOf r q = r * (1 + q) / 128 ∧ decayOf r q = r * (128 - q) / 128 ∧
    attackOf r q ≤ r ∧ decayOf r q ≤ r ∧
    (attackOf r q + decayOf r q = r ∨ attackOf r q + decayOf r q + 1 = r)

/-- 46_mixer.md rule R255. -/
def Obligations.MixLevelHoldsTheLevel : Prop :=
  (∀ w : Word, opField w = 0x19 → decode .P w = .ok (.mixLevel (aField w) (w.extractLsb' 0 16))) ∧
  (∀ (k : Fin 2) (level : Half) (s : State), ∃ t, exec (.mixLevel k level) s = .next t ∧
    t.slot k = { s.slot k with level := level } ∧ (∀ j, j ≠ k → t.slot j = s.slot j) ∧
    t = { s with mix := { s.mix with slots := t.mix.slots }, out := s.out ++ [.resp 0] }) ∧
  (∀ (slot : Nat) (level : Half) (s : State), 2 ≤ slot → exec (.mixLevel slot level) s =
    .next { s with err := s.err ||| 0b00100, out := s.out ++ [.resp 0x80000000] })

/-- 46_mixer.md rules R256, R259: each output is the sum of its base and the two slots' contributions, timbre and color
clamped to [0, PARAM_MAX], gain to [0, 65535], the vibrato as it is. A contribution is the subject of
`ContributionsFollowTheDepths`. -/
def Obligations.MixCombineClampsTheSums : Prop :=
  (∀ w : Word, opField w = 0x1A → decode .P w = .ok .mixCombine) ∧
  ∀ (s : State) (T C G V L₀ L₁ : Int), L₀ = (s.slot 0).level.toNat → L₁ = (s.slot 1).level.toNat →
    T = ((s.cfgValue .baseT).toNat : Int) + contribution s 0 L₀ (s.cfgValue (.modDepthT 0)).toInt
      + contribution s 1 L₁ (s.cfgValue (.modDepthT 1)).toInt →
    C = ((s.cfgValue .baseC).toNat : Int) + contribution s 0 L₀ (s.cfgValue (.modDepthC 0)).toInt
      + contribution s 1 L₁ (s.cfgValue (.modDepthC 1)).toInt →
    G = ((s.cfgValue .baseG).toNat : Int) + contribution s 0 L₀ (s.cfgValue (.modDepthG 0)).toInt
      + contribution s 1 L₁ (s.cfgValue (.modDepthG 1)).toInt →
    V = contribution s 0 (L₀ - 32767) (s.cfgValue (.modDepthV 0)).toInt
      + contribution s 1 (L₁ - 32767) (s.cfgValue (.modDepthV 1)).toInt →
    ∃ t, exec .mixCombine s = .next t ∧
      (t.mix.timbre.toNat : Int) = max 0 (min (s.par.paramMax : Int) T) ∧
      (t.mix.color.toNat : Int) = max 0 (min (s.par.paramMax : Int) C) ∧
      (t.mix.gain.toNat : Int) = max 0 (min 65535 G) ∧
      t.mix.vib.toInt = V ∧
      t = { s with
        mix := { s.mix with timbre := t.mix.timbre, color := t.mix.color, gain := t.mix.gain, vib := t.mix.vib },
        out := s.out ++ [.resp (t.mix.gain.zeroExtend 32)] }

/-- 46_mixer.md rules R256, R257, R258: a slot's contribution (OFF, the shift, the polarity), and the bounds on the
terms and the sums, which the spec derives. -/
def Obligations.ContributionsFollowTheDepths : Prop :=
  (∀ (s : State) (k : Fin 2) (signal depth : Int), s.slotKind k = .off → contribution s k signal depth = 0) ∧
  (∀ (s : State) (k : Fin 2) (signal depth : Int), s.slotKind k ≠ .off →
    contribution s k signal depth =
      if (s.cfgValue (.modCtrl k)).toNat % 8 = 2 then -(signal * depth / 32768) else signal * depth / 32768) ∧
  (∀ (s : State) (k : Fin 2) (level depth : Half),
    -65535 ≤ contribution s k (level.toNat : Int) depth.toInt ∧
    contribution s k (level.toNat : Int) depth.toInt ≤ 65535 ∧
    -32768 ≤ contribution s k ((level.toNat : Int) - 32767) depth.toInt ∧
    contribution s k ((level.toNat : Int) - 32767) depth.toInt ≤ 32768) ∧
  (∀ s : State, -131070 ≤ timbreSum s ∧ timbreSum s ≤ 196605 ∧ -131070 ≤ colorSum s ∧ colorSum s ≤ 196605 ∧
    -131070 ≤ gainSum s ∧ gainSum s ≤ 196605 ∧ -65536 ≤ vibratoSum s ∧ vibratoSum s ≤ 65536)

/-- 46_mixer.md rule R260. -/
def Obligations.MixReadSelects : Prop :=
  (∀ w : Word, opField w = 0x1B → decode .P w = .ok (.mixRead (aField w))) ∧
  (∀ s : State,
    exec (.mixRead 0) s = .next { s with out := s.out ++ [.resp (s.mix.timbre.zeroExtend 32)] } ∧
    exec (.mixRead 1) s = .next { s with out := s.out ++ [.resp (s.mix.color.zeroExtend 32)] } ∧
    exec (.mixRead 2) s = .next { s with out := s.out ++ [.resp (s.mix.gain.zeroExtend 32)] } ∧
    exec (.mixRead 3) s =
      .next { s with out := s.out ++ [.resp ((s.mix.vib.extractLsb' 0 16).zeroExtend 32)] } ∧
    exec (.mixRead 4) s =
      .next { s with out := s.out ++ [.resp ((s.mix.vib.extractLsb' 16 16).zeroExtend 32)] }) ∧
  (∀ (s : State) (k : Fin 2), ∃ r : Word,
    exec (.mixRead (5 + k)) s = .next { s with out := s.out ++ [.resp r] } ∧
    r.extractLsb' 0 7 = (s.slot k).rate ∧ r.extractLsb' 7 1 = 0 ∧ r.extractLsb' 8 7 = (s.slot k).atk ∧
    r.extractLsb' 15 1 = 0 ∧ r.extractLsb' 16 7 = (s.slot k).dec ∧ r.extractLsb' 23 9 = 0) ∧
  (∀ (s : State) (k : Fin 2), exec (.mixRead (7 + k)) s =
    .next { s with out := s.out ++ [.resp ((s.slot k).level.zeroExtend 32)] }) ∧
  (∀ (sel : Nat) (s : State), 9 ≤ sel → exec (.mixRead sel) s =
    .next { s with err := s.err ||| 0b00100, out := s.out ++ [.resp 0x80000000] })

/-! ### Rules of the whole machine -/

/-- 60_exceptions.md rules R281, R282, R284: every instruction but ERR_CLEAR sets exactly the bit of the cause that the
table gives it, and a P-port command answers once, with the E bit exactly when it raised. -/
def Obligations.ErrorsAreRaisedExactly : Prop :=
  ∀ (i : Instr) (s : State), ∃ t, exec i s = .next t ∧
    ((∀ mask, i ≠ .errClear mask) → t.err = errAfter s.err (errorCause s i)) ∧
    (i.port = .P → ∃ r : Word, t.out = s.out ++ [.resp r] ∧ r.getLsbD 31 = (errorCause s i).isSome) ∧
    (i.port = .T → responses t.out = responses s.out)

/-- 10_state.md rules R22, R23, R24, R31 to R34: who writes what. A tick leaves the producer's state alone, a command
leaves the consumer's state alone, and no instruction changes the parameters or takes a word from the ports. -/
def Obligations.EachAgentWritesItsOwnState : Prop :=
  (∀ (g : Bool) (s t : State), exec (.tick g) s = .next t →
    t.ring.p = s.ring.p ∧ t.ring.sample = s.ring.sample ∧ t.cfg = s.cfg ∧ t.metaSeq = s.metaSeq ∧
    t.tmSeq = s.tmSeq ∧ t.mix = s.mix) ∧
  (∀ (i : Instr) (s t : State), i.port = .P → exec i s = .next t →
    t.ring.c = s.ring.c ∧ t.ring.s = s.ring.s ∧ t.ring.mask = s.ring.mask ∧ t.scan = s.scan ∧
    t.trig.detected = s.trig.detected ∧ t.trig.delay = s.trig.delay) ∧
  (∀ (i : Instr) (s t : State), exec i s = .next t → t.par = s.par ∧ t.inbox = s.inbox)

/-- 10_state.md rules R23, R24, R28, R32 to R34, R40: which command writes which of the producer's state; in particular
no command changes a sample of the slot being played. -/
def Obligations.EachCommandWritesItsOwnUnit : Prop :=
  ∀ (i : Instr) (s t : State), exec i s = .next t →
    (t.ring.p ≠ s.ring.p → i = .ringAdvance) ∧
    (t.ring.sample ≠ s.ring.sample → ∃ off x, i = .ringWrite off x) ∧
    (s.ring.sample.wf = true → ∀ o, o < 1024 → t.sampleAt s.ring.c.toNat o = s.sampleAt s.ring.c.toNat o) ∧
    (t.cfg ≠ s.cfg → ∃ a v, i = .cfgWrite a v) ∧
    (t.metaSeq ≠ s.metaSeq → i = .seqMetaClock true) ∧
    (t.tmSeq ≠ s.tmSeq → i = .seqTmClock true) ∧
    (t.mix ≠ s.mix → (∃ k x, i = .mixRate k x) ∨ (∃ k x, i = .mixLevel k x) ∨ i = .mixCombine)

/-- 20_memory.md rule R75: the commands with no side effect change nothing but their response port, and so answer the
same when issued again. -/
def Obligations.ReadCommandsHaveNoSideEffect : Prop :=
  ∀ (i : Instr) (s : State),
    (i ∈ [.nop, .ringStatus, .ringAcquire, .errRead, .trigStatus, .adcStatus] ∨
      (∃ g, i = .ringReadmask g ∧ 16 * g < s.par.B) ∨ (∃ c, i = .adcRead c ∧ c < 4) ∨
      (∃ a, i = .cfgRead a ∧ cfgRegister a ≠ none) ∨ (∃ q, i = .seqMetaRead q ∧ q < 4) ∨
      (∃ q, i = .seqTmRead q ∧ q < 4) ∨ (∃ q, i = .mixRead q ∧ q < 9)) →
    ∃ r : Word, exec i s = .next { s with out := s.out ++ [.resp r] } ∧
      exec i { s with out := s.out ++ [.resp r] } = .next { s with out := s.out ++ [.resp r] ++ [.resp r] }

/-- 46_mixer.md rules R250, R253: in the block sequence slot 2 is cross-modulated by this block's level of slot 1,
whatever level stood before. -/
def Obligations.MixBlockUsesThisBlocksLevel : Prop :=
  ∀ (s : State) (cv0 level0 cv1 level1 : Half), ∃ t, runAll (mixBlock cv0 level0 cv1 level1) s = .next t ∧
    (t.slot 0).level = level0 ∧ (t.slot 1).level = level1 ∧
    ∀ x : Int,
      x = (s.modRate 1 : Int) + (if s.route = 2 then cv1.toInt else 0)
        + (level0.toNat : Int) * (s.cfgValue .xmodDepth).toInt / 16777216 →
      (t.slot 1).rate.toNat =
        if s.slotKind 1 = .lfo ∧ s.rateInv 1 = true then 127 - (max 0 (min 127 x)).toNat
        else (max 0 (min 127 x)).toNat

/-! ### Invariants -/

/-- 10_state.md: the reset state of a machine with any parameters is legal. -/
def Obligations.ResetStateIsLegal : Prop := ∀ P : Params, Inv (State.resetWith P)

/-- 10_state.md: every step, from any legal state, leads to a legal state. -/
def Obligations.EveryStepKeepsTheStateLegal : Prop :=
  ∀ s t : State, Inv s → step s = .next t → Inv t
end

