-- ==== Sys2Proof/Laws/Decode.lean ====
section
/-! SUPPORT. The fields of an encoded word, and the decoder opcode by opcode. -/

namespace Sys2Proof

theorem Instr.opcode_lt (i : Instr) : i.opcode < 32 := by cases i <;> simp [Instr.opcode]

theorem Instr.operandD_lt (i : Instr) : i.operandD < 2 ^ 16 := by
  cases i <;> simp only [Instr.operandD] <;> first | omega | exact (Bool.toNat_lt _).trans (by decide)

theorem Instr.operandA_lt (i : Instr) (h : i.wellFormed = true) : i.operandA < 2 ^ 11 := by
  cases i <;> simp only [Instr.operandA] <;> first | omega | exact of_decide_eq_true h

/-- A well-formed instruction's word is `OP * 2^27 + A * 2^16 + D`, with no carry lost (rule R100). -/
theorem encode_toNat (i : Instr) (h : i.wellFormed = true) :
    (encode i).toNat = i.opcode * 2 ^ 27 + i.operandA * 2 ^ 16 + i.operandD := by
  have h₁ := i.opcode_lt
  have h₂ := i.operandA_lt h
  have h₃ := i.operandD_lt
  simp only [encode, BitVec.toNat_ofNat]
  omega

/-- The three fields of a well-formed instruction's word (rule R100). -/
theorem encode_fields (i : Instr) (h : i.wellFormed = true) :
    opField (encode i) = i.opcode ∧ aField (encode i) = i.operandA ∧ (dField (encode i)).toNat = i.operandD := by
  have h₁ := i.opcode_lt
  have h₂ := i.operandA_lt h
  have h₃ := i.operandD_lt
  simp only [opField, aField, dField, BitVec.toNat_ofNat, encode_toNat i h]
  omega

/-- A 16-bit operand is what field D of the word holds. -/
theorem dField_encode (i : Instr) (h : i.wellFormed = true) (x : Half) (hx : i.operandD = x.toNat) :
    dField (encode i) = x := by
  apply BitVec.eq_of_toNat_eq
  rw [(encode_fields i h).2.2, hx]

theorem maskField_encode_errClear (mask : BitVec 5) : maskField (encode (.errClear mask)) = mask := by
  have hn := encode_toNat (.errClear mask) rfl
  have := mask.isLt
  apply BitVec.eq_of_toNat_eq
  simp only [maskField, hn, Instr.opcode, Instr.operandA, Instr.operandD, BitVec.toNat_ofNat]
  omega

theorem bitZero_encode_seqMetaClock (t : Bool) : bitZero (encode (.seqMetaClock t)) = t := by
  have hn := encode_toNat (.seqMetaClock t) rfl
  simp only [bitZero, hn, Instr.opcode, Instr.operandA, Instr.operandD]
  cases t <;> simp

theorem bitZero_encode_seqTmClock (t : Bool) : bitZero (encode (.seqTmClock t)) = t := by
  have hn := encode_toNat (.seqTmClock t) rfl
  simp only [bitZero, hn, Instr.opcode, Instr.operandA, Instr.operandD]
  cases t <;> simp

theorem bitZero_encode_tick (g : Bool) : bitZero (encode (.tick g)) = g := by
  have hn := encode_toNat (.tick g) rfl
  simp only [bitZero, hn, Instr.opcode, Instr.operandA, Instr.operandD]
  cases g <;> simp

theorem aField_lt (w : Word) : aField w < indexBound := by
  unfold aField indexBound; omega

theorem opField_lt (w : Word) : opField w < 32 := by
  have := w.isLt
  unfold opField; omega

/-- D as a slice of the word. -/
theorem dField_eq (w : Word) : dField w = w.extractLsb' 0 16 := by
  apply BitVec.eq_of_toNat_eq
  simp [dField]

/-- The operand of ERR_CLEAR as a slice of the word. -/
theorem maskField_eq (w : Word) : maskField w = w.extractLsb' 0 5 := by
  apply BitVec.eq_of_toNat_eq
  simp [maskField]

/-- Bit 0 of the word. -/
theorem bitZero_eq (w : Word) : bitZero w = w.getLsbD 0 := by
  simp [bitZero, BitVec.getLsbD, Nat.testBit_zero]

end Sys2Proof
end

