-- ==== Sys2Proof/Laws/Memory.lean ====
section
/-! SUPPORT. The laws of the storage spaces: a read after a write to the same index gives the value written, a write
leaves every other index alone, and a write keeps the canonical form. -/

namespace Sys2Proof.Machine

variable {w : Nat}

@[simp] theorem Memory.read_nil (i : Nat) : Memory.read ([] : Memory w) i = 0 := rfl

@[simp] theorem Memory.wf_nil : Memory.wf ([] : Memory w) = true := rfl

theorem Memory.wfFrom_cons (lo a : Nat) (v : BitVec w) (m : Memory w) :
    Memory.wfFrom lo ((a, v) :: m) = true ↔ lo ≤ a ∧ v ≠ 0 ∧ Memory.wfFrom (a + 1) m = true := by
  simp [Memory.wfFrom, and_assoc]

theorem Memory.wfFrom_mono {lo lo' : Nat} (h : lo' ≤ lo) {m : Memory w} (hm : Memory.wfFrom lo m = true) :
    Memory.wfFrom lo' m = true := by
  cases m with
  | nil => rfl
  | cons e m =>
    obtain ⟨a, v⟩ := e
    rw [Memory.wfFrom_cons] at hm ⊢
    exact ⟨h.trans hm.1, hm.2⟩

/-- Below the first index nothing is listed. -/
theorem Memory.read_of_lt {lo : Nat} {m : Memory w} (hm : Memory.wfFrom lo m = true) {i : Nat} (hi : i < lo) :
    m.read i = 0 := by
  induction m generalizing lo with
  | nil => rfl
  | cons e m ih =>
    obtain ⟨a, v⟩ := e
    rw [Memory.wfFrom_cons] at hm
    simp only [Memory.read]
    rw [if_neg (by omega)]
    exact ih hm.2.2 (by omega)

theorem Memory.read_write_from {lo : Nat} {m : Memory w} (hm : Memory.wfFrom lo m = true) (i j : Nat)
    (x : BitVec w) : (m.write i x).read j = if j = i then x else m.read j := by
  induction m generalizing lo with
  | nil =>
    simp only [Memory.write]
    split
    · next hx => subst hx; simp only [Memory.read]; split <;> rfl
    · rfl
  | cons e m ih =>
    obtain ⟨a, v⟩ := e
    rw [Memory.wfFrom_cons] at hm
    have hlow : ∀ k, k < a + 1 → Memory.read m k = 0 := fun k hk => Memory.read_of_lt hm.2.2 hk
    simp only [Memory.write]
    split
    · next hia =>
      split
      · next hx =>
        subst hx
        simp only [Memory.read]
        split
        · rw [if_neg (by omega)]
        · split
          · next hj => exact hlow _ (by omega)
          · rfl
      · simp only [Memory.read]
    · split
      · next hia =>
        subst hia
        split
        · next hx =>
          subst hx
          simp only [Memory.read]
          split
          · next hj => exact hlow _ (by omega)
          · rfl
        · simp only [Memory.read]
          split <;> rfl
      · next hlt hne =>
        simp only [Memory.read, ih hm.2.2]
        by_cases hj : j = i
        · subst hj; rw [if_neg hne]; simp
        · simp [hj]

/-- What is read after a write. -/
theorem Memory.read_write {m : Memory w} (hm : m.wf = true) (i j : Nat) (x : BitVec w) :
    (m.write i x).read j = if j = i then x else m.read j := Memory.read_write_from hm i j x

theorem Memory.write_wfFrom {lo : Nat} {m : Memory w} (hm : Memory.wfFrom lo m = true) {i : Nat} (hi : lo ≤ i)
    (x : BitVec w) : Memory.wfFrom lo (m.write i x) = true := by
  induction m generalizing lo with
  | nil =>
    simp only [Memory.write]
    split
    · rfl
    · next hx => rw [Memory.wfFrom_cons]; exact ⟨hi, hx, rfl⟩
  | cons e m ih =>
    obtain ⟨a, v⟩ := e
    have hm' := hm
    rw [Memory.wfFrom_cons] at hm'
    simp only [Memory.write]
    split
    · split
      · exact hm
      · next hx =>
        rw [Memory.wfFrom_cons, Memory.wfFrom_cons]
        exact ⟨hi, hx, by omega, hm'.2⟩
    · split
      · next hia =>
        subst hia
        split
        · exact Memory.wfFrom_mono (by omega) hm'.2.2
        · next hx => rw [Memory.wfFrom_cons]; exact ⟨hm'.1, hx, hm'.2.2⟩
      · rw [Memory.wfFrom_cons]
        exact ⟨hm'.1, hm'.2.1, ih hm'.2.2 (by omega)⟩

/-- A write keeps the canonical form. -/
theorem Memory.write_wf {m : Memory w} (hm : m.wf = true) (i : Nat) (x : BitVec w) :
    (m.write i x).wf = true := Memory.write_wfFrom hm (Nat.zero_le i) x

/-- The entries after a write: those that were there, or the one written. -/
theorem Memory.mem_write {m : Memory w} {i : Nat} {x : BitVec w} {e : Nat × BitVec w} (he : e ∈ m.write i x) :
    e ∈ m ∨ e = (i, x) := by
  induction m with
  | nil =>
    simp only [Memory.write] at he
    split at he
    · cases he
    · exact .inr (List.mem_singleton.mp he)
  | cons b m ih =>
    obtain ⟨a, v⟩ := b
    simp only [Memory.write] at he
    split at he
    · split at he
      · exact .inl he
      · rcases List.mem_cons.mp he with h | h
        · exact .inr h
        · exact .inl h
    · split at he
      · split at he
        · exact .inl (List.mem_cons_of_mem _ he)
        · rcases List.mem_cons.mp he with h | h
          · exact .inr h
          · exact .inl (List.mem_cons_of_mem _ h)
      · rcases List.mem_cons.mp he with h | h
        · exact .inl (h ▸ List.mem_cons_self)
        · exact (ih h).imp_left (List.mem_cons_of_mem _)

/-- A value read is 0 or listed. -/
theorem Memory.read_eq_zero_or_mem (m : Memory w) (i : Nat) : m.read i = 0 ∨ (i, m.read i) ∈ m := by
  induction m with
  | nil => exact .inl rfl
  | cons b m ih =>
    obtain ⟨a, v⟩ := b
    simp only [Memory.read]
    split
    · next h => subst h; exact .inr List.mem_cons_self
    · exact ih.imp_right (List.mem_cons_of_mem _)

/-- The ring index tells the slot and the offset apart. -/
theorem ringIndex_inj {a b o p : Nat} (ho : o < 1024) (hp : p < 1024) :
    ringIndex a o = ringIndex b p ↔ a = b ∧ o = p := by
  unfold ringIndex; omega

end Sys2Proof.Machine
end

