-- ==== Sys2Proof/Laws/State.lean ====
section
/-! SUPPORT. What each named update of the state does to each field: true by `rfl`, so that no later proof unfolds a
record update. And the reads of configuration that an update of anything else leaves alone. -/

namespace Sys2Proof.Machine

/-! ### emit -/

@[simp] theorem State.emit_ring (s : State) (o : PortOut) : (s.emit o).ring = s.ring := rfl
@[simp] theorem State.emit_trig (s : State) (o : PortOut) : (s.emit o).trig = s.trig := rfl
@[simp] theorem State.emit_scan (s : State) (o : PortOut) : (s.emit o).scan = s.scan := rfl
@[simp] theorem State.emit_metaSeq (s : State) (o : PortOut) : (s.emit o).metaSeq = s.metaSeq := rfl
@[simp] theorem State.emit_tmSeq (s : State) (o : PortOut) : (s.emit o).tmSeq = s.tmSeq := rfl
@[simp] theorem State.emit_mix (s : State) (o : PortOut) : (s.emit o).mix = s.mix := rfl
@[simp] theorem State.emit_err (s : State) (o : PortOut) : (s.emit o).err = s.err := rfl
@[simp] theorem State.emit_cfg (s : State) (o : PortOut) : (s.emit o).cfg = s.cfg := rfl
@[simp] theorem State.emit_par (s : State) (o : PortOut) : (s.emit o).par = s.par := rfl
@[simp] theorem State.emit_env (s : State) (o : PortOut) : (s.emit o).env = s.env := rfl
@[simp] theorem State.emit_inbox (s : State) (o : PortOut) : (s.emit o).inbox = s.inbox := rfl
@[simp] theorem State.emit_out (s : State) (o : PortOut) : (s.emit o).out = s.out ++ [o] := rfl

/-! ### respond -/

@[simp] theorem State.respond_ring (s : State) (n : Nat) : (s.respond n).ring = s.ring := rfl
@[simp] theorem State.respond_trig (s : State) (n : Nat) : (s.respond n).trig = s.trig := rfl
@[simp] theorem State.respond_scan (s : State) (n : Nat) : (s.respond n).scan = s.scan := rfl
@[simp] theorem State.respond_metaSeq (s : State) (n : Nat) : (s.respond n).metaSeq = s.metaSeq := rfl
@[simp] theorem State.respond_tmSeq (s : State) (n : Nat) : (s.respond n).tmSeq = s.tmSeq := rfl
@[simp] theorem State.respond_mix (s : State) (n : Nat) : (s.respond n).mix = s.mix := rfl
@[simp] theorem State.respond_err (s : State) (n : Nat) : (s.respond n).err = s.err := rfl
@[simp] theorem State.respond_cfg (s : State) (n : Nat) : (s.respond n).cfg = s.cfg := rfl
@[simp] theorem State.respond_par (s : State) (n : Nat) : (s.respond n).par = s.par := rfl
@[simp] theorem State.respond_env (s : State) (n : Nat) : (s.respond n).env = s.env := rfl
@[simp] theorem State.respond_inbox (s : State) (n : Nat) : (s.respond n).inbox = s.inbox := rfl
@[simp] theorem State.respond_out (s : State) (n : Nat) : (s.respond n).out = s.out ++ [.resp (BitVec.ofNat 32 n)] := rfl

/-! ### raise -/

@[simp] theorem State.raise_ring (s : State) (e : ErrCause) : (s.raise e).ring = s.ring := rfl
@[simp] theorem State.raise_trig (s : State) (e : ErrCause) : (s.raise e).trig = s.trig := rfl
@[simp] theorem State.raise_scan (s : State) (e : ErrCause) : (s.raise e).scan = s.scan := rfl
@[simp] theorem State.raise_metaSeq (s : State) (e : ErrCause) : (s.raise e).metaSeq = s.metaSeq := rfl
@[simp] theorem State.raise_tmSeq (s : State) (e : ErrCause) : (s.raise e).tmSeq = s.tmSeq := rfl
@[simp] theorem State.raise_mix (s : State) (e : ErrCause) : (s.raise e).mix = s.mix := rfl
@[simp] theorem State.raise_err (s : State) (e : ErrCause) : (s.raise e).err = errSet s.err e := rfl
@[simp] theorem State.raise_cfg (s : State) (e : ErrCause) : (s.raise e).cfg = s.cfg := rfl
@[simp] theorem State.raise_par (s : State) (e : ErrCause) : (s.raise e).par = s.par := rfl
@[simp] theorem State.raise_env (s : State) (e : ErrCause) : (s.raise e).env = s.env := rfl
@[simp] theorem State.raise_inbox (s : State) (e : ErrCause) : (s.raise e).inbox = s.inbox := rfl
@[simp] theorem State.raise_out (s : State) (e : ErrCause) : (s.raise e).out = s.out := rfl

/-! ### reject -/

@[simp] theorem State.reject_ring (s : State) (e : ErrCause) : (s.reject e).ring = s.ring := rfl
@[simp] theorem State.reject_trig (s : State) (e : ErrCause) : (s.reject e).trig = s.trig := rfl
@[simp] theorem State.reject_scan (s : State) (e : ErrCause) : (s.reject e).scan = s.scan := rfl
@[simp] theorem State.reject_metaSeq (s : State) (e : ErrCause) : (s.reject e).metaSeq = s.metaSeq := rfl
@[simp] theorem State.reject_tmSeq (s : State) (e : ErrCause) : (s.reject e).tmSeq = s.tmSeq := rfl
@[simp] theorem State.reject_mix (s : State) (e : ErrCause) : (s.reject e).mix = s.mix := rfl
@[simp] theorem State.reject_err (s : State) (e : ErrCause) : (s.reject e).err = errSet s.err e := rfl
@[simp] theorem State.reject_cfg (s : State) (e : ErrCause) : (s.reject e).cfg = s.cfg := rfl
@[simp] theorem State.reject_par (s : State) (e : ErrCause) : (s.reject e).par = s.par := rfl
@[simp] theorem State.reject_env (s : State) (e : ErrCause) : (s.reject e).env = s.env := rfl
@[simp] theorem State.reject_inbox (s : State) (e : ErrCause) : (s.reject e).inbox = s.inbox := rfl
@[simp] theorem State.reject_out (s : State) (e : ErrCause) : (s.reject e).out = s.out ++ [.resp (BitVec.ofNat 32 errorResponse)] := rfl

/-! ### writeSample -/

@[simp] theorem State.writeSample_ring (s : State) (slot off : Nat) (v : Half) : (s.writeSample slot off v).ring = { s.ring with sample := s.ring.sample.write (ringIndex slot off) v } := rfl
@[simp] theorem State.writeSample_trig (s : State) (slot off : Nat) (v : Half) : (s.writeSample slot off v).trig = s.trig := rfl
@[simp] theorem State.writeSample_scan (s : State) (slot off : Nat) (v : Half) : (s.writeSample slot off v).scan = s.scan := rfl
@[simp] theorem State.writeSample_metaSeq (s : State) (slot off : Nat) (v : Half) : (s.writeSample slot off v).metaSeq = s.metaSeq := rfl
@[simp] theorem State.writeSample_tmSeq (s : State) (slot off : Nat) (v : Half) : (s.writeSample slot off v).tmSeq = s.tmSeq := rfl
@[simp] theorem State.writeSample_mix (s : State) (slot off : Nat) (v : Half) : (s.writeSample slot off v).mix = s.mix := rfl
@[simp] theorem State.writeSample_err (s : State) (slot off : Nat) (v : Half) : (s.writeSample slot off v).err = s.err := rfl
@[simp] theorem State.writeSample_cfg (s : State) (slot off : Nat) (v : Half) : (s.writeSample slot off v).cfg = s.cfg := rfl
@[simp] theorem State.writeSample_par (s : State) (slot off : Nat) (v : Half) : (s.writeSample slot off v).par = s.par := rfl
@[simp] theorem State.writeSample_env (s : State) (slot off : Nat) (v : Half) : (s.writeSample slot off v).env = s.env := rfl
@[simp] theorem State.writeSample_inbox (s : State) (slot off : Nat) (v : Half) : (s.writeSample slot off v).inbox = s.inbox := rfl
@[simp] theorem State.writeSample_out (s : State) (slot off : Nat) (v : Half) : (s.writeSample slot off v).out = s.out := rfl

/-! ### writeMask -/

@[simp] theorem State.writeMask_ring (s : State) (slot off : Nat) (g : Bool) : (s.writeMask slot off g).ring = { s.ring with mask := s.ring.mask.write (ringIndex slot off) (BitVec.ofBool g) } := rfl
@[simp] theorem State.writeMask_trig (s : State) (slot off : Nat) (g : Bool) : (s.writeMask slot off g).trig = s.trig := rfl
@[simp] theorem State.writeMask_scan (s : State) (slot off : Nat) (g : Bool) : (s.writeMask slot off g).scan = s.scan := rfl
@[simp] theorem State.writeMask_metaSeq (s : State) (slot off : Nat) (g : Bool) : (s.writeMask slot off g).metaSeq = s.metaSeq := rfl
@[simp] theorem State.writeMask_tmSeq (s : State) (slot off : Nat) (g : Bool) : (s.writeMask slot off g).tmSeq = s.tmSeq := rfl
@[simp] theorem State.writeMask_mix (s : State) (slot off : Nat) (g : Bool) : (s.writeMask slot off g).mix = s.mix := rfl
@[simp] theorem State.writeMask_err (s : State) (slot off : Nat) (g : Bool) : (s.writeMask slot off g).err = s.err := rfl
@[simp] theorem State.writeMask_cfg (s : State) (slot off : Nat) (g : Bool) : (s.writeMask slot off g).cfg = s.cfg := rfl
@[simp] theorem State.writeMask_par (s : State) (slot off : Nat) (g : Bool) : (s.writeMask slot off g).par = s.par := rfl
@[simp] theorem State.writeMask_env (s : State) (slot off : Nat) (g : Bool) : (s.writeMask slot off g).env = s.env := rfl
@[simp] theorem State.writeMask_inbox (s : State) (slot off : Nat) (g : Bool) : (s.writeMask slot off g).inbox = s.inbox := rfl
@[simp] theorem State.writeMask_out (s : State) (slot off : Nat) (g : Bool) : (s.writeMask slot off g).out = s.out := rfl

/-! ### cfgWritten -/

@[simp] theorem State.cfgWritten_ring (s : State) (r : CfgReg) (v : Half) : (s.cfgWritten r v).ring = s.ring := rfl
@[simp] theorem State.cfgWritten_trig (s : State) (r : CfgReg) (v : Half) : (s.cfgWritten r v).trig = s.trig := rfl
@[simp] theorem State.cfgWritten_scan (s : State) (r : CfgReg) (v : Half) : (s.cfgWritten r v).scan = s.scan := rfl
@[simp] theorem State.cfgWritten_metaSeq (s : State) (r : CfgReg) (v : Half) : (s.cfgWritten r v).metaSeq = s.metaSeq := rfl
@[simp] theorem State.cfgWritten_tmSeq (s : State) (r : CfgReg) (v : Half) : (s.cfgWritten r v).tmSeq = s.tmSeq := rfl
@[simp] theorem State.cfgWritten_mix (s : State) (r : CfgReg) (v : Half) : (s.cfgWritten r v).mix = s.mix := rfl
@[simp] theorem State.cfgWritten_err (s : State) (r : CfgReg) (v : Half) : (s.cfgWritten r v).err = s.err := rfl
@[simp] theorem State.cfgWritten_cfg (s : State) (r : CfgReg) (v : Half) : (s.cfgWritten r v).cfg = s.cfg.write (cfgAddress r) v := rfl
@[simp] theorem State.cfgWritten_par (s : State) (r : CfgReg) (v : Half) : (s.cfgWritten r v).par = s.par := rfl
@[simp] theorem State.cfgWritten_env (s : State) (r : CfgReg) (v : Half) : (s.cfgWritten r v).env = s.env := rfl
@[simp] theorem State.cfgWritten_inbox (s : State) (r : CfgReg) (v : Half) : (s.cfgWritten r v).inbox = s.inbox := rfl
@[simp] theorem State.cfgWritten_out (s : State) (r : CfgReg) (v : Half) : (s.cfgWritten r v).out = s.out := rfl

/-! ### withSlot -/

@[simp] theorem State.withSlot_ring (s : State) (k : Fin 2) (m : MixSlot) : (s.withSlot k m).ring = s.ring := rfl
@[simp] theorem State.withSlot_trig (s : State) (k : Fin 2) (m : MixSlot) : (s.withSlot k m).trig = s.trig := rfl
@[simp] theorem State.withSlot_scan (s : State) (k : Fin 2) (m : MixSlot) : (s.withSlot k m).scan = s.scan := rfl
@[simp] theorem State.withSlot_metaSeq (s : State) (k : Fin 2) (m : MixSlot) : (s.withSlot k m).metaSeq = s.metaSeq := rfl
@[simp] theorem State.withSlot_tmSeq (s : State) (k : Fin 2) (m : MixSlot) : (s.withSlot k m).tmSeq = s.tmSeq := rfl
@[simp] theorem State.withSlot_mix (s : State) (k : Fin 2) (m : MixSlot) : (s.withSlot k m).mix = { s.mix with slots := s.mix.slots.set k m } := rfl
@[simp] theorem State.withSlot_err (s : State) (k : Fin 2) (m : MixSlot) : (s.withSlot k m).err = s.err := rfl
@[simp] theorem State.withSlot_cfg (s : State) (k : Fin 2) (m : MixSlot) : (s.withSlot k m).cfg = s.cfg := rfl
@[simp] theorem State.withSlot_par (s : State) (k : Fin 2) (m : MixSlot) : (s.withSlot k m).par = s.par := rfl
@[simp] theorem State.withSlot_env (s : State) (k : Fin 2) (m : MixSlot) : (s.withSlot k m).env = s.env := rfl
@[simp] theorem State.withSlot_inbox (s : State) (k : Fin 2) (m : MixSlot) : (s.withSlot k m).inbox = s.inbox := rfl
@[simp] theorem State.withSlot_out (s : State) (k : Fin 2) (m : MixSlot) : (s.withSlot k m).out = s.out := rfl

/-! ### produceAdvance -/

@[simp] theorem produceAdvance_ring (s : State) : (produceAdvance s).ring = { s.ring with p := nextSlot s.par.N s.ring.p } := rfl
@[simp] theorem produceAdvance_trig (s : State) : (produceAdvance s).trig = s.trig := rfl
@[simp] theorem produceAdvance_scan (s : State) : (produceAdvance s).scan = s.scan := rfl
@[simp] theorem produceAdvance_metaSeq (s : State) : (produceAdvance s).metaSeq = s.metaSeq := rfl
@[simp] theorem produceAdvance_tmSeq (s : State) : (produceAdvance s).tmSeq = s.tmSeq := rfl
@[simp] theorem produceAdvance_mix (s : State) : (produceAdvance s).mix = s.mix := rfl
@[simp] theorem produceAdvance_err (s : State) : (produceAdvance s).err = s.err := rfl
@[simp] theorem produceAdvance_cfg (s : State) : (produceAdvance s).cfg = s.cfg := rfl
@[simp] theorem produceAdvance_par (s : State) : (produceAdvance s).par = s.par := rfl
@[simp] theorem produceAdvance_env (s : State) : (produceAdvance s).env = s.env := rfl
@[simp] theorem produceAdvance_inbox (s : State) : (produceAdvance s).inbox = s.inbox := rfl
@[simp] theorem produceAdvance_out (s : State) : (produceAdvance s).out = s.out := rfl

/-! ### drawRandom -/

@[simp] theorem State.drawRandom_word (s : State) : s.drawRandom.1 = nextRandom s.env := rfl
@[simp] theorem State.drawRandom_ring (s : State) : s.drawRandom.2.ring = s.ring := rfl
@[simp] theorem State.drawRandom_trig (s : State) : s.drawRandom.2.trig = s.trig := rfl
@[simp] theorem State.drawRandom_scan (s : State) : s.drawRandom.2.scan = s.scan := rfl
@[simp] theorem State.drawRandom_metaSeq (s : State) : s.drawRandom.2.metaSeq = s.metaSeq := rfl
@[simp] theorem State.drawRandom_tmSeq (s : State) : s.drawRandom.2.tmSeq = s.tmSeq := rfl
@[simp] theorem State.drawRandom_mix (s : State) : s.drawRandom.2.mix = s.mix := rfl
@[simp] theorem State.drawRandom_err (s : State) : s.drawRandom.2.err = s.err := rfl
@[simp] theorem State.drawRandom_cfg (s : State) : s.drawRandom.2.cfg = s.cfg := rfl
@[simp] theorem State.drawRandom_par (s : State) : s.drawRandom.2.par = s.par := rfl
@[simp] theorem State.drawRandom_env (s : State) : s.drawRandom.2.env = afterRandom s.env := rfl
@[simp] theorem State.drawRandom_inbox (s : State) : s.drawRandom.2.inbox = s.inbox := rfl
@[simp] theorem State.drawRandom_out (s : State) : s.drawRandom.2.out = s.out := rfl

/-! ### Reads that depend on the configuration and the parameters alone -/

/-- A register's value depends on the stored configuration and the parameters alone. -/
theorem cfgValue_congr {s t : State} (hc : t.cfg = s.cfg) (hp : t.par = s.par) (r : CfgReg) :
    t.cfgValue r = s.cfgValue r := by
  cases r <;> simp [State.cfgValue, hc, hp]

/-- A read-write register is what is stored at its address. -/
theorem cfgValue_of_readWrite (s : State) (r : CfgReg) (h : cfgReadOnly r = false) :
    s.cfgValue r = s.cfg.read (cfgAddress r) := by
  cases r <;> first | rfl | cases h

section
variable {s t : State} (hc : t.cfg = s.cfg) (hp : t.par = s.par)
include hc hp

theorem tickEn_congr : t.tickEn = s.tickEn := by simp only [State.tickEn, cfgValue_congr hc hp]
theorem delayExp_congr : t.delayExp = s.delayExp := by simp only [State.delayExp, cfgValue_congr hc hp]
theorem metaLen_congr : t.metaLen = s.metaLen := by simp only [State.metaLen, cfgValue_congr hc hp]
theorem metaDir_congr : t.metaDir = s.metaDir := by simp only [State.metaDir, cfgValue_congr hc hp]
theorem metaDiv_congr : t.metaDiv = s.metaDiv := by simp only [State.metaDiv, cfgValue_congr hc hp]
theorem tmLen_congr : t.tmLen = s.tmLen := by simp only [State.tmLen, cfgValue_congr hc hp]
theorem tmWin_congr : t.tmWin = s.tmWin := by simp only [State.tmWin, cfgValue_congr hc hp]
theorem tmReseed_congr : t.tmReseed = s.tmReseed := by simp only [State.tmReseed, cfgValue_congr hc hp]
theorem tmDiv_congr : t.tmDiv = s.tmDiv := by simp only [State.tmDiv, cfgValue_congr hc hp]
theorem tmThresh_congr : t.tmThresh = s.tmThresh := by simp only [State.tmThresh, cfgValue_congr hc hp]
theorem stepShape_congr (n : Nat) : t.stepShape n = s.stepShape n := by
  simp only [State.stepShape, cfgValue_congr hc hp]
theorem stepPitch_congr (n : Nat) : t.stepPitch n = s.stepPitch n := by
  simp only [State.stepPitch, cfgValue_congr hc hp]
theorem stepAux_congr (n : Nat) : t.stepAux n = s.stepAux n := by
  simp only [State.stepAux, cfgValue_congr hc hp]
theorem stepRepeat_congr (n : Nat) : t.stepRepeat n = s.stepRepeat n := by
  simp only [State.stepRepeat, cfgValue_congr hc hp]
theorem modMode_congr (k : Fin 2) : t.modMode k = s.modMode k := by
  simp only [State.modMode, cfgValue_congr hc hp]
theorem rateInv_congr (k : Fin 2) : t.rateInv k = s.rateInv k := by
  simp only [State.rateInv, cfgValue_congr hc hp]
theorem modRate_congr (k : Fin 2) : t.modRate k = s.modRate k := by
  simp only [State.modRate, cfgValue_congr hc hp]
theorem modRatio_congr (k : Fin 2) : t.modRatio k = s.modRatio k := by
  simp only [State.modRatio, cfgValue_congr hc hp]
theorem xmodDepth_congr : t.xmodDepth = s.xmodDepth := by simp only [State.xmodDepth, cfgValue_congr hc hp]
theorem route_congr : t.route = s.route := by simp only [State.route, cfgValue_congr hc hp]
theorem slotKind_congr (k : Fin 2) : t.slotKind k = s.slotKind k := by
  simp only [State.slotKind, modMode_congr hc hp, hp]

end

end Sys2Proof.Machine
end

