-- ==== Sys2Proof/Laws/Tick.lean ====
section
/-! SUPPORT. What each stage of a tick, and the whole of an effective tick, does to each field of the state
(44_tick.md rule R190): said once, so that a proof about ticks unfolds no stage. -/

namespace Sys2Proof.Machine

/-! ### consumeAdvance -/

@[simp] theorem consumeAdvance_ring (s : State) :
    (consumeAdvance s).ring =
      { s.ring with c := nextSlot s.par.N s.ring.c } := by
  unfold consumeAdvance; split <;> rfl
@[simp] theorem consumeAdvance_trig (s : State) :
    (consumeAdvance s).trig =
      s.trig := by
  unfold consumeAdvance; split <;> rfl
@[simp] theorem consumeAdvance_scan (s : State) :
    (consumeAdvance s).scan =
      s.scan := by
  unfold consumeAdvance; split <;> rfl
@[simp] theorem consumeAdvance_metaSeq (s : State) :
    (consumeAdvance s).metaSeq =
      s.metaSeq := by
  unfold consumeAdvance; split <;> rfl
@[simp] theorem consumeAdvance_tmSeq (s : State) :
    (consumeAdvance s).tmSeq =
      s.tmSeq := by
  unfold consumeAdvance; split <;> rfl
@[simp] theorem consumeAdvance_mix (s : State) :
    (consumeAdvance s).mix =
      s.mix := by
  unfold consumeAdvance; split <;> rfl
@[simp] theorem consumeAdvance_err (s : State) :
    (consumeAdvance s).err =
      if nextSlot s.par.N s.ring.c = s.ring.p then errSet s.err .udr else s.err := by
  unfold consumeAdvance; split <;> rfl
@[simp] theorem consumeAdvance_cfg (s : State) :
    (consumeAdvance s).cfg =
      s.cfg := by
  unfold consumeAdvance; split <;> rfl
@[simp] theorem consumeAdvance_par (s : State) :
    (consumeAdvance s).par =
      s.par := by
  unfold consumeAdvance; split <;> rfl
@[simp] theorem consumeAdvance_env (s : State) :
    (consumeAdvance s).env =
      s.env := by
  unfold consumeAdvance; split <;> rfl
@[simp] theorem consumeAdvance_inbox (s : State) :
    (consumeAdvance s).inbox =
      s.inbox := by
  unfold consumeAdvance; split <;> rfl
@[simp] theorem consumeAdvance_out (s : State) :
    (consumeAdvance s).out =
      s.out := by
  unfold consumeAdvance; split <;> rfl

/-! ### scanStep -/

@[simp] theorem scanStep_ring (s : State) : (scanStep s).ring = s.ring := by
  unfold scanStep; split <;> rfl
@[simp] theorem scanStep_trig (s : State) : (scanStep s).trig = s.trig := by
  unfold scanStep; split <;> rfl
@[simp] theorem scanStep_scan (s : State) :
    (scanStep s).scan =
      if completesCycle s then { phase := BitVec.ofNat 16 (nextPhase s), chValue := nextAdc s.par s.env }
      else { s.scan with phase := BitVec.ofNat 16 (nextPhase s) } := by
  unfold scanStep; split <;> rfl
@[simp] theorem scanStep_metaSeq (s : State) :
    (scanStep s).metaSeq =
      s.metaSeq := by
  unfold scanStep; split <;> rfl
@[simp] theorem scanStep_tmSeq (s : State) : (scanStep s).tmSeq = s.tmSeq := by
  unfold scanStep; split <;> rfl
@[simp] theorem scanStep_mix (s : State) : (scanStep s).mix = s.mix := by
  unfold scanStep; split <;> rfl
@[simp] theorem scanStep_err (s : State) : (scanStep s).err = s.err := by
  unfold scanStep; split <;> rfl
@[simp] theorem scanStep_cfg (s : State) : (scanStep s).cfg = s.cfg := by
  unfold scanStep; split <;> rfl
@[simp] theorem scanStep_par (s : State) : (scanStep s).par = s.par := by
  unfold scanStep; split <;> rfl
@[simp] theorem scanStep_env (s : State) :
    (scanStep s).env =
      if completesCycle s then afterAdc s.env else s.env := by
  unfold scanStep; split <;> rfl
@[simp] theorem scanStep_inbox (s : State) : (scanStep s).inbox = s.inbox := by
  unfold scanStep; split <;> rfl
@[simp] theorem scanStep_out (s : State) : (scanStep s).out = s.out := by
  unfold scanStep; split <;> rfl

/-! ### tickOutput -/

@[simp] theorem tickOutput_ring (s : State) : (tickOutput s).ring = s.ring := rfl
@[simp] theorem tickOutput_trig (s : State) : (tickOutput s).trig = s.trig := rfl
@[simp] theorem tickOutput_scan (s : State) : (tickOutput s).scan = s.scan := rfl
@[simp] theorem tickOutput_metaSeq (s : State) : (tickOutput s).metaSeq = s.metaSeq := rfl
@[simp] theorem tickOutput_tmSeq (s : State) : (tickOutput s).tmSeq = s.tmSeq := rfl
@[simp] theorem tickOutput_mix (s : State) : (tickOutput s).mix = s.mix := rfl
@[simp] theorem tickOutput_err (s : State) : (tickOutput s).err = s.err := rfl
@[simp] theorem tickOutput_cfg (s : State) : (tickOutput s).cfg = s.cfg := rfl
@[simp] theorem tickOutput_par (s : State) : (tickOutput s).par = s.par := rfl
@[simp] theorem tickOutput_env (s : State) : (tickOutput s).env = s.env := rfl
@[simp] theorem tickOutput_inbox (s : State) : (tickOutput s).inbox = s.inbox := rfl
@[simp] theorem tickOutput_out (s : State) :
    (tickOutput s).out =
      s.out ++ [.dac (outMap outInvert (s.sampleAt (zext s.ring.c) (zext s.ring.s)))] := rfl

/-! ### tickGate -/

@[simp] theorem tickGate_ring (g : Bool) (s : State) :
    (tickGate g s).ring =
      { s.ring with mask := s.ring.mask.write (ringIndex (zext s.ring.c) (zext s.ring.s)) (BitVec.ofBool g) } := rfl
@[simp] theorem tickGate_trig (g : Bool) (s : State) : (tickGate g s).trig = trigDetect g s.trig := rfl
@[simp] theorem tickGate_scan (g : Bool) (s : State) : (tickGate g s).scan = s.scan := rfl
@[simp] theorem tickGate_metaSeq (g : Bool) (s : State) : (tickGate g s).metaSeq = s.metaSeq := rfl
@[simp] theorem tickGate_tmSeq (g : Bool) (s : State) : (tickGate g s).tmSeq = s.tmSeq := rfl
@[simp] theorem tickGate_mix (g : Bool) (s : State) : (tickGate g s).mix = s.mix := rfl
@[simp] theorem tickGate_err (g : Bool) (s : State) : (tickGate g s).err = s.err := rfl
@[simp] theorem tickGate_cfg (g : Bool) (s : State) : (tickGate g s).cfg = s.cfg := rfl
@[simp] theorem tickGate_par (g : Bool) (s : State) : (tickGate g s).par = s.par := rfl
@[simp] theorem tickGate_env (g : Bool) (s : State) : (tickGate g s).env = s.env := rfl
@[simp] theorem tickGate_inbox (g : Bool) (s : State) : (tickGate g s).inbox = s.inbox := rfl
@[simp] theorem tickGate_out (g : Bool) (s : State) : (tickGate g s).out = s.out := rfl

/-! ### tickPosition -/

@[simp] theorem tickPosition_ring (s : State) :
    (tickPosition s).ring =
      if zext s.ring.s + 1 = s.par.B then { s.ring with s := 0, c := nextSlot s.par.N s.ring.c }
      else { s.ring with s := BitVec.ofNat 10 (zext s.ring.s + 1) } := by
  unfold tickPosition; split <;> simp_all
@[simp] theorem tickPosition_trig (s : State) :
    (tickPosition s).trig =
      s.trig := by
  unfold tickPosition; split <;> simp_all
@[simp] theorem tickPosition_scan (s : State) :
    (tickPosition s).scan =
      s.scan := by
  unfold tickPosition; split <;> simp_all
@[simp] theorem tickPosition_metaSeq (s : State) :
    (tickPosition s).metaSeq =
      s.metaSeq := by
  unfold tickPosition; split <;> simp_all
@[simp] theorem tickPosition_tmSeq (s : State) :
    (tickPosition s).tmSeq =
      s.tmSeq := by
  unfold tickPosition; split <;> simp_all
@[simp] theorem tickPosition_mix (s : State) :
    (tickPosition s).mix =
      s.mix := by
  unfold tickPosition; split <;> simp_all
@[simp] theorem tickPosition_err (s : State) :
    (tickPosition s).err =
      if zext s.ring.s + 1 = s.par.B ∧ nextSlot s.par.N s.ring.c = s.ring.p then errSet s.err .udr else s.err := by
  unfold tickPosition; split <;> simp_all
@[simp] theorem tickPosition_cfg (s : State) :
    (tickPosition s).cfg =
      s.cfg := by
  unfold tickPosition; split <;> simp_all
@[simp] theorem tickPosition_par (s : State) :
    (tickPosition s).par =
      s.par := by
  unfold tickPosition; split <;> simp_all
@[simp] theorem tickPosition_env (s : State) :
    (tickPosition s).env =
      s.env := by
  unfold tickPosition; split <;> simp_all
@[simp] theorem tickPosition_inbox (s : State) :
    (tickPosition s).inbox =
      s.inbox := by
  unfold tickPosition; split <;> simp_all
@[simp] theorem tickPosition_out (s : State) :
    (tickPosition s).out =
      s.out := by
  unfold tickPosition; split <;> simp_all

/-! ### tickScan -/

@[simp] theorem tickScan_ring (s : State) : (tickScan s).ring = s.ring := by
  unfold tickScan; split <;> simp_all
@[simp] theorem tickScan_trig (s : State) :
    (tickScan s).trig =
      if completesCycle s then trigCycleComplete s.delayExp s.trig else s.trig := by
  unfold tickScan; split <;> simp_all [delayExp_congr (t := (scanStep s).emit _) (s := s)]
@[simp] theorem tickScan_scan (s : State) :
    (tickScan s).scan =
      if completesCycle s then { phase := BitVec.ofNat 16 (nextPhase s), chValue := nextAdc s.par s.env }
      else { s.scan with phase := BitVec.ofNat 16 (nextPhase s) } := by
  unfold tickScan; split <;> simp_all
@[simp] theorem tickScan_metaSeq (s : State) :
    (tickScan s).metaSeq =
      s.metaSeq := by
  unfold tickScan; split <;> simp_all
@[simp] theorem tickScan_tmSeq (s : State) :
    (tickScan s).tmSeq =
      s.tmSeq := by
  unfold tickScan; split <;> simp_all
@[simp] theorem tickScan_mix (s : State) : (tickScan s).mix = s.mix := by
  unfold tickScan; split <;> simp_all
@[simp] theorem tickScan_err (s : State) : (tickScan s).err = s.err := by
  unfold tickScan; split <;> simp_all
@[simp] theorem tickScan_cfg (s : State) : (tickScan s).cfg = s.cfg := by
  unfold tickScan; split <;> simp_all
@[simp] theorem tickScan_par (s : State) : (tickScan s).par = s.par := by
  unfold tickScan; split <;> simp_all
@[simp] theorem tickScan_env (s : State) :
    (tickScan s).env =
      if completesCycle s then afterAdc s.env else s.env := by
  unfold tickScan; split <;> simp_all
@[simp] theorem tickScan_inbox (s : State) :
    (tickScan s).inbox =
      s.inbox := by
  unfold tickScan; split <;> simp_all
@[simp] theorem tickScan_out (s : State) :
    (tickScan s).out =
      if completesCycle s then s.out ++ [.ui (nextAdc s.par s.env)] else s.out := by
  unfold tickScan; split <;> simp_all

/-- The next phase depends on the phase and the parameters alone. -/
theorem nextPhase_congr {s t : State} (hs : t.scan = s.scan) (hp : t.par = s.par) :
    nextPhase t = nextPhase s := by simp only [nextPhase, hs, hp]

/-- What completes a cycle depends on the phase and the parameters alone. -/
theorem completesCycle_congr {s t : State} (hs : t.scan = s.scan) (hp : t.par = s.par) :
    completesCycle t = completesCycle s := by rw [completesCycle, nextPhase_congr hs hp, completesCycle]

/-- The state in which the scan of an effective tick starts has the tick's own scan, parameters and environment. -/
theorem completesCycle_beforeScan (g : Bool) (s : State) :
    completesCycle (tickPosition (tickGate g (tickOutput s))) = completesCycle s :=
  completesCycle_congr (by simp) (by simp)

theorem nextPhase_beforeScan (g : Bool) (s : State) :
    nextPhase (tickPosition (tickGate g (tickOutput s))) = nextPhase s :=
  nextPhase_congr (by simp) (by simp)

theorem delayExp_beforeScan (g : Bool) (s : State) :
    (tickPosition (tickGate g (tickOutput s))).delayExp = s.delayExp :=
  delayExp_congr (by simp) (by simp)

/-! ### effectiveTick -/

@[simp] theorem effectiveTick_ring (g : Bool) (s : State) :
    (effectiveTick g s).ring =
      if zext s.ring.s + 1 = s.par.B then
        { s.ring with
          s := 0
          c := nextSlot s.par.N s.ring.c
          mask := s.ring.mask.write (ringIndex (zext s.ring.c) (zext s.ring.s)) (BitVec.ofBool g) }
      else
        { s.ring with
          s := BitVec.ofNat 10 (zext s.ring.s + 1)
          mask := s.ring.mask.write (ringIndex (zext s.ring.c) (zext s.ring.s)) (BitVec.ofBool g) } := by
  rw [effectiveTick, tickScan_ring, tickPosition_ring]; split <;> simp_all
@[simp] theorem effectiveTick_trig (g : Bool) (s : State) :
    (effectiveTick g s).trig =
      if completesCycle s then trigCycleComplete s.delayExp (trigDetect g s.trig) else trigDetect g s.trig := by
  simp [effectiveTick, completesCycle_beforeScan, delayExp_beforeScan]
@[simp] theorem effectiveTick_scan (g : Bool) (s : State) :
    (effectiveTick g s).scan =
      if completesCycle s then { phase := BitVec.ofNat 16 (nextPhase s), chValue := nextAdc s.par s.env }
      else { s.scan with phase := BitVec.ofNat 16 (nextPhase s) } := by
  simp [effectiveTick, completesCycle_beforeScan, nextPhase_beforeScan]
@[simp] theorem effectiveTick_metaSeq (g : Bool) (s : State) :
    (effectiveTick g s).metaSeq =
      s.metaSeq := by
  simp [effectiveTick]
@[simp] theorem effectiveTick_tmSeq (g : Bool) (s : State) :
    (effectiveTick g s).tmSeq =
      s.tmSeq := by
  simp [effectiveTick]
@[simp] theorem effectiveTick_mix (g : Bool) (s : State) :
    (effectiveTick g s).mix =
      s.mix := by
  simp [effectiveTick]
@[simp] theorem effectiveTick_err (g : Bool) (s : State) :
    (effectiveTick g s).err =
      if zext s.ring.s + 1 = s.par.B ∧ nextSlot s.par.N s.ring.c = s.ring.p then errSet s.err .udr else s.err := by
  rw [effectiveTick, tickScan_err, tickPosition_err]; rfl
@[simp] theorem effectiveTick_cfg (g : Bool) (s : State) :
    (effectiveTick g s).cfg =
      s.cfg := by
  simp [effectiveTick]
@[simp] theorem effectiveTick_par (g : Bool) (s : State) :
    (effectiveTick g s).par =
      s.par := by
  simp [effectiveTick]
@[simp] theorem effectiveTick_env (g : Bool) (s : State) :
    (effectiveTick g s).env =
      if completesCycle s then afterAdc s.env else s.env := by
  simp [effectiveTick, completesCycle_beforeScan]
@[simp] theorem effectiveTick_inbox (g : Bool) (s : State) :
    (effectiveTick g s).inbox =
      s.inbox := by
  simp [effectiveTick]
@[simp] theorem effectiveTick_out (g : Bool) (s : State) :
    (effectiveTick g s).out =
      s.out ++ [.dac (outMap outInvert (s.sampleAt (zext s.ring.c) (zext s.ring.s)))] ++
        if completesCycle s then [.ui (nextAdc s.par s.env)] else [] := by
  simp [effectiveTick, completesCycle_beforeScan]; split <;> simp_all

end Sys2Proof.Machine
end

