-- ==== Sys2Proof/Laws/Ops.lean ====
section
/-! SUPPORT. One lemma for each shared operation that says once what it can do: the bit fields, the ring's arithmetic,
the trigger's countdown, the divider, the configuration map. -/

namespace Sys2Proof.Machine

/-! ### Bit fields -/

theorem bits_lt {w : Nat} (v : BitVec w) (hi lo : Nat) : bits v hi lo < 2 ^ (hi + 1 - lo) :=
  Nat.mod_lt _ (Nat.two_pow_pos _)

/-- A register put whole into a response. -/
theorem response_of_toNat {w : Nat} (v : BitVec w) : BitVec.ofNat 32 v.toNat = v.zeroExtend 32 := by
  apply BitVec.eq_of_toNat_eq
  simp [BitVec.toNat_setWidth]

/-- What a rejected command leaves. -/
theorem reject_eq (s : State) (cause : ErrCause) :
    s.reject cause = { s with err := errSet s.err cause, out := s.out ++ [.resp 0x80000000] } := rfl

theorem clamp_eq (x : Int) {lo hi : Int} (h : lo ≤ hi) : clamp x lo hi = max lo (min hi x) := by
  unfold clamp
  split
  · omega
  · split <;> omega

/-! ### The ring's arithmetic -/

/-- The next slot, as a number: a ring has at most 256 slots. -/
theorem nextSlot_toNat (P : Params) (i : BitVec 8) : (nextSlot P.N i).toNat = (i.toNat + 1) % P.N := by
  have h₁ := P.N_le
  have h₂ := P.N_ge
  have := Nat.mod_lt (i.toNat + 1) (show 0 < P.N by omega)
  simp only [nextSlot, BitVec.toNat_ofNat]
  omega

theorem nextSlot_lt (P : Params) (i : BitVec 8) : (nextSlot P.N i).toNat < P.N := by
  rw [nextSlot_toNat]
  exact Nat.mod_lt _ (by have := P.N_ge; omega)

/-- Two slots are the same exactly when their numbers are. -/
theorem nextSlot_eq_iff (P : Params) (c p : BitVec 8) :
    nextSlot P.N c = p ↔ (c.toNat + 1) % P.N = p.toNat := by
  rw [← nextSlot_toNat, BitVec.toNat_inj]

theorem waiting_le (s : State) : waiting s ≤ s.par.N - 1 := by
  have h := s.par.N_ge
  have h₁ := Int.emod_lt_of_pos ((s.ring.p.toNat : Int) - s.ring.c.toNat - 1) (show (0 : Int) < s.par.N by omega)
  have h₂ := Int.emod_nonneg ((s.ring.p.toNat : Int) - s.ring.c.toNat - 1) (show (s.par.N : Int) ≠ 0 by omega)
  unfold waiting
  omega

/-- The waiting count of indices in range, with no remainder taken. -/
theorem waiting_cases (s : State) (hp : s.ring.p.toNat < s.par.N) (hc : s.ring.c.toNat < s.par.N) :
    waiting s = if s.ring.c.toNat < s.ring.p.toNat then s.ring.p.toNat - s.ring.c.toNat - 1
      else s.ring.p.toNat + s.par.N - s.ring.c.toNat - 1 := by
  unfold waiting
  split
  · rw [Int.emod_eq_of_lt (by omega) (by omega)]; omega
  · rw [← Int.add_emod_right, Int.emod_eq_of_lt (by omega) (by omega)]; omega

/-! ### The trigger's countdown -/

/-- The counter before the decrement of a cycle-complete event (rule R161). -/
def armedCount (e : Nat) (t : Trig) : Nat := if t.detected then armedDelay e else t.delay.toNat

/-- What a cycle-complete event does to TRIG (rule R161). -/
theorem trigCycleComplete_eq (e : Nat) (he : e < 8) (t : Trig) :
    (trigCycleComplete e t).detected = false ∧ (trigCycleComplete e t).delay.toNat = armedCount e t - 1 ∧
      (trigCycleComplete e t).fired = (t.fired || decide (armedCount e t = 1)) := by
  obtain ⟨detected, delay, fired⟩ := t
  have key : ∀ (d : BitVec 8) (x : Bool),
      (trigCount { detected := false, delay := d, fired := x }).detected = false ∧
      (trigCount { detected := false, delay := d, fired := x }).delay.toNat = d.toNat - 1 ∧
      (trigCount { detected := false, delay := d, fired := x }).fired = (x || decide (d.toNat = 1)) := by
    decide +revert
  cases detected with
  | false => exact key delay fired
  | true =>
    have hA : (BitVec.ofNat 8 (armedDelay e)).toNat = armedDelay e := by interval_cases e <;> rfl
    have h := key (BitVec.ofNat 8 (armedDelay e)) fired
    rw [hA] at h
    exact h

theorem delayExp_lt (s : State) : s.delayExp < 8 := bits_lt _ 2 0

/-! ### The clock divider -/

/-- Divide on a roll (rule R211). -/
theorem divide_of_le {cnt : BitVec 8} {div : Nat} (h : max 1 div ≤ cnt.toNat + 1) :
    divideRolls cnt div = true ∧ divideCount cnt div = 0 := by
  have : divideRolls cnt div = true := by simpa [divideRolls] using h
  exact ⟨this, by simp [divideCount, this]⟩

/-- Divide on a count (rule R211). -/
theorem divide_of_lt {cnt : BitVec 8} {div : Nat} (h : cnt.toNat + 1 < max 1 div) :
    divideRolls cnt div = false ∧ divideCount cnt div = cnt + 1 := by
  have : divideRolls cnt div = false := by simp only [divideRolls, decide_eq_false_iff_not]; omega
  refine ⟨this, ?_⟩
  rw [divideCount, this]
  apply BitVec.eq_of_toNat_eq
  simp [BitVec.toNat_add]

/-! ### The configuration map -/

theorem cfgRegister_cfgAddress (r : CfgReg) : cfgRegister (cfgAddress r) = some r := by
  cases r <;> first
    | rfl
    | (rename_i i; revert i; decide)

theorem cfgAddress_lt (r : CfgReg) : cfgAddress r < 0x800 := by
  cases r <;> simp only [cfgAddress] <;> omega

theorem cfgAddress_inj {r q : CfgReg} (h : cfgAddress r = cfgAddress q) : r = q := by
  have := cfgRegister_cfgAddress r
  rw [h, cfgRegister_cfgAddress q] at this
  exact (Option.some.inj this).symm

/-- A register's value after a write of a read-write register. -/
theorem cfgValue_cfgWritten (s : State) (hw : s.cfg.wf = true) (r q : CfgReg) (v : Half)
    (hr : cfgReadOnly r = false) : (s.cfgWritten r v).cfgValue q = if q = r then v else s.cfgValue q := by
  by_cases hq : cfgReadOnly q = true
  · have hne : q ≠ r := by rintro rfl; simp_all
    rw [if_neg hne]
    cases q <;> first | rfl | cases hq
  · have hq' : cfgReadOnly q = false := by simpa using hq
    rw [cfgValue_of_readWrite _ _ hq', cfgValue_of_readWrite _ _ hq', State.cfgWritten_cfg, Memory.read_write hw]
    by_cases h : q = r
    · simp [h]
    · rw [if_neg (fun h' => h (cfgAddress_inj h')), if_neg h]

end Sys2Proof.Machine
end

