-- ==== Sys2Proof/Laws/Exec.lean ====
section
/-! SUPPORT. What the meanings can do, said once: every instruction has a next state, and which fields each one
writes. -/

namespace Sys2Proof.Machine

/-- No instruction stops the machine (60_exceptions.md rule R280). -/
theorem exec_next (i : Instr) (s : State) : ∃ t, exec i s = .next t := by
  cases i <;> exact ⟨_, rfl⟩

/-- A word on a port, whatever it is, has a next state. -/
theorem runWord_next (port : Port) (w : Word) (s : State) : ∃ t, runWord port w s = .next t := by
  unfold runWord
  split
  · exact exec_next _ _
  · exact ⟨_, rfl⟩

/-- A trigger on the meta-sequencer writes its state, the random port and one response. -/
theorem metaTrigger_writes (s : State) :
    ∃ m e r, metaTrigger s = { s with metaSeq := m, env := e, out := s.out ++ [.resp r] } := by
  unfold metaTrigger
  dsimp only
  split
  · unfold metaRollover
    split
    · exact ⟨_, _, _, rfl⟩
    · unfold metaAdvance metaDrawn latchStep
      dsimp only
      split <;> exact ⟨_, _, _, rfl⟩
  · exact ⟨_, _, _, rfl⟩

/-- A trigger on the Turing sequencer writes its state, the random port and one response. -/
theorem tmTrigger_writes (s : State) :
    ∃ m e r, tmTrigger s = { s with tmSeq := m, env := e, out := s.out ++ [.resp r] } := by
  unfold tmTrigger
  dsimp only
  split
  · unfold tmAdvance tmWrapWork
    dsimp only
    split
    · split <;> exact ⟨_, _, _, rfl⟩
    · exact ⟨_, _, _, rfl⟩
  · exact ⟨_, _, _, rfl⟩

/-- The commands that write nothing but `err` and their response. -/
def Instr.isQuiet : Instr → Bool
  | .nop | .ringStatus | .ringAcquire | .ringReadmask _ | .errRead | .errClear _ | .trigStatus | .adcRead _
  | .adcStatus | .cfgRead _ | .seqMetaRead _ | .seqTmRead _ | .mixRead _ => true
  | .ringWrite _ _ | .ringAdvance | .trigTake | .cfgWrite _ _ | .seqMetaClock _ | .seqTmClock _ | .mixRate _ _
  | .mixLevel _ _ | .mixCombine | .tick _ => false

/-- A quiet command writes `err` at most, and its response. -/
theorem exec_quiet (i : Instr) (h : Instr.isQuiet i = true) (s : State) :
    ∃ e r, exec i s = .next { s with err := e, out := s.out ++ [.resp r] } := by
  cases i with
  | ringReadmask g => simp only [exec, execRingReadmask]; split <;> exact ⟨_, _, rfl⟩
  | adcRead c => simp only [exec, execAdcRead]; split <;> exact ⟨_, _, rfl⟩
  | cfgRead a => simp only [exec, execCfgRead]; split <;> exact ⟨_, _, rfl⟩
  | seqMetaRead q => simp only [exec, execSeqMetaRead]; split <;> exact ⟨_, _, rfl⟩
  | seqTmRead q => simp only [exec, execSeqTmRead]; split <;> exact ⟨_, _, rfl⟩
  | mixRead q => simp only [exec, execMixRead]; split <;> exact ⟨_, _, rfl⟩
  | nop | ringStatus | ringAcquire | errRead | errClear | trigStatus | adcStatus => exact ⟨_, _, rfl⟩
  | _ => cases h

/-- What RING_WRITE writes. -/
theorem execRingWrite_writes (off : Nat) (x : Half) (s : State) :
    ∃ m e r, execRingWrite off x s =
      .next { s with ring := { s.ring with sample := m }, err := e, out := s.out ++ [.resp r] } := by
  unfold execRingWrite
  split
  · exact ⟨_, _, _, rfl⟩
  · split <;> exact ⟨_, _, _, rfl⟩

/-- What RING_ADVANCE writes. -/
theorem execRingAdvance_writes (s : State) :
    ∃ e r, execRingAdvance s =
      .next { s with ring := { s.ring with p := nextSlot s.par.N s.ring.p }, err := e, out := s.out ++ [.resp r] } := by
  unfold execRingAdvance
  dsimp only
  split <;> exact ⟨_, _, rfl⟩

/-- What CFG_WRITE writes. -/
theorem execCfgWrite_writes (a : Nat) (v : Half) (s : State) :
    ∃ c e r, execCfgWrite a v s = .next { s with cfg := c, err := e, out := s.out ++ [.resp r] } := by
  unfold execCfgWrite
  split
  · exact ⟨_, _, _, rfl⟩
  · split <;> exact ⟨_, _, _, rfl⟩

/-- What SEQ_META_CLOCK writes. -/
theorem execSeqMetaClock_writes (b : Bool) (s : State) :
    ∃ m e r, execSeqMetaClock b s = .next { s with metaSeq := m, env := e, out := s.out ++ [.resp r] } := by
  unfold execSeqMetaClock
  split
  · exact ⟨_, _, _, rfl⟩
  · split
    · exact ⟨_, _, _, rfl⟩
    · obtain ⟨m, e, r, h⟩ := metaTrigger_writes s
      exact ⟨m, e, r, by rw [h]⟩

/-- What SEQ_TM_CLOCK writes. -/
theorem execSeqTmClock_writes (b : Bool) (s : State) :
    ∃ m e r, execSeqTmClock b s = .next { s with tmSeq := m, env := e, out := s.out ++ [.resp r] } := by
  unfold execSeqTmClock
  split
  · exact ⟨_, _, _, rfl⟩
  · split
    · exact ⟨_, _, _, rfl⟩
    · obtain ⟨m, e, r, h⟩ := tmTrigger_writes s
      exact ⟨m, e, r, by rw [h]⟩

/-- What MIX_RATE writes. -/
theorem execMixRate_writes (k : Nat) (cv : Half) (s : State) :
    ∃ m e r, execMixRate k cv s = .next { s with mix := m, err := e, out := s.out ++ [.resp r] } := by
  unfold execMixRate
  split <;> exact ⟨_, _, _, rfl⟩

/-- What MIX_LEVEL writes. -/
theorem execMixLevel_writes (k : Nat) (level : Half) (s : State) :
    ∃ m e r, execMixLevel k level s = .next { s with mix := m, err := e, out := s.out ++ [.resp r] } := by
  unfold execMixLevel
  split <;> exact ⟨_, _, _, rfl⟩

/-- What an enabled tick is. -/
theorem execTick_of_tickEn (g : Bool) {s : State} (h : s.tickEn = true) :
    execTick g s = .next (effectiveTick g s) := by simp [execTick, h]

/-- What a disabled tick is. -/
theorem execTick_of_not_tickEn (g : Bool) {s : State} (h : s.tickEn = false) : execTick g s = .next s := by
  simp [execTick, h]

end Sys2Proof.Machine
end

