-- ==== Sys2Proof/Laws/PerInstr.lean ====
section
/-! SUPPORT. The family `EncodeFields`: for each instruction, the fields of its word are its opcode and its operands
(30_encoding.md rules R100, R103, R104). -/

namespace Sys2Proof.Laws.EncodeFields

/-- The word of an encodable instruction holds its opcode and its operands. -/
def Statement (i : Instr) : Prop :=
  i.wellFormed = true →
    opField (encode i) = i.opcode ∧ aField (encode i) = i.operandA ∧ (dField (encode i)).toNat = i.operandD

theorem nop : Statement .nop := encode_fields _
theorem ringStatus : Statement .ringStatus := encode_fields _
theorem ringAcquire : Statement .ringAcquire := encode_fields _
theorem ringWrite (off : Nat) (sample : Half) : Statement (.ringWrite off sample) := encode_fields _
theorem ringReadmask (group : Nat) : Statement (.ringReadmask group) := encode_fields _
theorem ringAdvance : Statement .ringAdvance := encode_fields _
theorem errRead : Statement .errRead := encode_fields _
theorem errClear (mask : BitVec 5) : Statement (.errClear mask) := encode_fields _
theorem trigTake : Statement .trigTake := encode_fields _
theorem trigStatus : Statement .trigStatus := encode_fields _
theorem adcRead (ch : Nat) : Statement (.adcRead ch) := encode_fields _
theorem adcStatus : Statement .adcStatus := encode_fields _
theorem cfgWrite (addr : Nat) (value : Half) : Statement (.cfgWrite addr value) := encode_fields _
theorem cfgRead (addr : Nat) : Statement (.cfgRead addr) := encode_fields _
theorem seqMetaClock (t : Bool) : Statement (.seqMetaClock t) := encode_fields _
theorem seqMetaRead (sel : Nat) : Statement (.seqMetaRead sel) := encode_fields _
theorem seqTmClock (t : Bool) : Statement (.seqTmClock t) := encode_fields _
theorem seqTmRead (sel : Nat) : Statement (.seqTmRead sel) := encode_fields _
theorem mixRate (slot : Nat) (cv : Half) : Statement (.mixRate slot cv) := encode_fields _
theorem mixLevel (slot : Nat) (level : Half) : Statement (.mixLevel slot level) := encode_fields _
theorem mixCombine : Statement .mixCombine := encode_fields _
theorem mixRead (sel : Nat) : Statement (.mixRead sel) := encode_fields _
theorem tick (g : Bool) : Statement (.tick g) := encode_fields _

end Sys2Proof.Laws.EncodeFields
end

