-- ==== Sys2Proof/Laws/Run.lean ====
section
/-! SUPPORT. Sequences of instructions, the slots of the mixer, and the sequencers' arithmetic: what each shared
operation of these can do, said once. -/

namespace Sys2Proof.Machine

/-! ### Sequences -/

theorem runAll_cons {i : Instr} {rest : List Instr} {s t : State} (h : exec i s = .next t) :
    runAll (i :: rest) s = runAll rest t := by simp only [runAll, h]

theorem runAll_append {a b : List Instr} {s t : State} (h : runAll a s = .next t) :
    runAll (a ++ b) s = runAll b t := by
  induction a generalizing s with
  | nil => cases h; rfl
  | cons i rest ih =>
    obtain ⟨u, hu⟩ := exec_next i s
    rw [runAll_cons hu] at h
    rw [List.cons_append, runAll_cons hu]
    exact ih h

/-- An enabled tick first, then the rest. -/
theorem runAll_ticks_cons {g : Bool} {gates : List Bool} {s : State} (h : s.tickEn = true) :
    runAll (ticks (g :: gates)) s = runAll (ticks gates) (effectiveTick g s) :=
  runAll_cons (execTick_of_tickEn g h)

/-! ### One effective tick, field by field -/

theorem effectiveTick_tickEn (g : Bool) (s : State) : (effectiveTick g s).tickEn = s.tickEn :=
  tickEn_congr (by simp) (by simp)

theorem effectiveTick_delayExp (g : Bool) (s : State) : (effectiveTick g s).delayExp = s.delayExp :=
  delayExp_congr (by simp) (by simp)

theorem effectiveTick_p (g : Bool) (s : State) : (effectiveTick g s).ring.p = s.ring.p := by
  rw [effectiveTick_ring]; split <;> rfl

theorem effectiveTick_sampleAt (g : Bool) (s : State) (slot off : Nat) :
    (effectiveTick g s).sampleAt slot off = s.sampleAt slot off := by
  simp only [State.sampleAt, effectiveTick_ring]; split <;> rfl

theorem effectiveTick_mask (g : Bool) (s : State) : (effectiveTick g s).ring.mask =
    s.ring.mask.write (ringIndex (zext s.ring.c) (zext s.ring.s)) (BitVec.ofBool g) := by
  rw [effectiveTick_ring]; split <;> rfl

/-! ### The slots of the mixer -/

theorem slot_withSlot (s : State) (k j : Fin 2) (m : MixSlot) :
    (s.withSlot k m).slot j = if j = k then m else s.slot j := by
  simp only [State.slot, State.withSlot_mix]
  split
  · next h => subst h; simp
  · next h =>
    have : j.val ≠ k.val := fun h' => h (Fin.ext h')
    simp [Ne.symm this]

@[simp] theorem slot_respond (s : State) (n : Nat) (k : Fin 2) : (s.respond n).slot k = s.slot k := rfl

@[simp] theorem slot_mixCombined (s : State) (k : Fin 2) : (mixCombined s).slot k = s.slot k := rfl

theorem rateOf_le (s : State) (k : Fin 2) (cv : Half) : rateOf s k cv ≤ 127 := by
  unfold rateOf
  rw [clamp_eq _ (by norm_num)]
  dsimp only
  split <;> omega

/-! ### The sequencers' arithmetic -/

theorem metaNext_lt (s : State) (r : Word) (h : s.metaLen ≠ 0) : (metaNext s r).1 < s.metaLen := by
  unfold metaNext
  split
  · simp only [swingNext]
    split_ifs <;> simp <;> omega
  · have hr := r.isLt
    simp only [randomNext, zext]
    rw [Nat.div_lt_iff_lt_mul (by norm_num), Nat.mul_comm]
    exact Nat.mul_lt_mul_of_pos_left hr (by omega)
  · simp only [loopNext]; split_ifs <;> omega

theorem rotateRight_lt (len r : Nat) (h : 1 ≤ len) : rotateRight len r < 2 ^ len := by
  obtain ⟨k, rfl⟩ : ∃ k, len = k + 1 := ⟨len - 1, by omega⟩
  have h₁ := Nat.mod_lt r (show 0 < 2 ^ (k + 1) by positivity)
  have h₂ : r % 2 * 2 ^ k ≤ 1 * 2 ^ k := Nat.mul_le_mul_right _ (by omega)
  simp only [rotateRight, Nat.add_sub_cancel]
  rw [Nat.pow_succ] at *
  omega

end Sys2Proof.Machine
end

