-- ==== Sys2Proof/Machine/Assembler.lean ====
section
/-! DEFINITION. The assembly form of a command (30_encoding.md rule R108) and the pseudo-instructions (rule R109):
from a line of text to the instructions it stands for. -/

namespace Sys2Proof.Machine

/-! ### Pseudo-instructions -/

/-- The pseudo-instructions of rule R109. -/
inductive Pseudo where
  | ticksOn
  | ticksOff
  | clrErr
  | set (addr : Nat) (value : Half)
  | mixRate1 (cv : Half)
  | mixRate2 (cv : Half)
  | mixLevel1 (level : Half)
  | mixLevel2 (level : Half)
  | seqClock (t : Bool)
deriving DecidableEq, Repr

/-- The expansion of a pseudo-instruction (rule R109). -/
def expandPseudo : Pseudo → List Instr
  | .ticksOn => [.cfgWrite (cfgAddress .ctrl) 1]
  | .ticksOff => [.cfgWrite (cfgAddress .ctrl) 0]
  | .clrErr => [.errClear 0x1F]
  | .set addr value => [.cfgWrite addr value]
  | .mixRate1 cv => [.mixRate 0 cv]
  | .mixRate2 cv => [.mixRate 1 cv]
  | .mixLevel1 level => [.mixLevel 0 level]
  | .mixLevel2 level => [.mixLevel 1 level]
  | .seqClock t => [.seqMetaClock t, .seqTmClock t]

/-! ### Text -/

/-- The pieces of a text between separators. -/
def splitChars (sep : Char) : List Char → List (List Char)
  | [] => [[]]
  | c :: cs =>
    match splitChars sep cs with
    | [] => [[c]]
    | piece :: more => if c = sep then [] :: piece :: more else (c :: piece) :: more

/-- A text without the blanks around it. -/
def trimBlanks (cs : List Char) : List Char :=
  ((cs.dropWhile (· = ' ')).reverse.dropWhile (· = ' ')).reverse

/-- The value of a digit in a base up to 16. -/
def digitValue (base : Nat) (c : Char) : Option Nat :=
  let v :=
    if '0'.toNat ≤ c.toNat ∧ c.toNat ≤ '9'.toNat then some (c.toNat - '0'.toNat)
    else if 'a'.toNat ≤ c.toNat ∧ c.toNat ≤ 'f'.toNat then some (c.toNat - 'a'.toNat + 10)
    else if 'A'.toNat ≤ c.toNat ∧ c.toNat ≤ 'F'.toNat then some (c.toNat - 'A'.toNat + 10)
    else none
  v.filter (· < base)

/-- The digits of a numeral read on from a value. -/
def readDigits (base : Nat) : Nat → List Char → Option Nat
  | acc, [] => some acc
  | acc, c :: cs => (digitValue base c).bind fun d => readDigits base (acc * base + d) cs

/-- A decimal or `0x` hexadecimal numeral (rule R108). -/
def readNat : List Char → Option Nat
  | [] => none
  | ['0', 'x'] => none
  | '0' :: 'x' :: digits => readDigits 16 0 digits
  | digits => readDigits 10 0 digits

/-- A numeral that may be written negative (rule R108). -/
def readInt : List Char → Option Int
  | '-' :: digits => (readNat digits).map fun n => -(n : Int)
  | digits => (readNat digits).map fun n => (n : Int)

/-- The registers named without an index (10_state.md rule R40). -/
def plainRegister (name : String) : Option CfgReg :=
  match name with
  | "ID" => some .id
  | "CFG_N" => some .cfgN
  | "CFG_B" => some .cfgB
  | "CFG_SCAN" => some .cfgScan
  | "CTRL" => some .ctrl
  | "TRIG_CFG" => some .trigCfg
  | "META_CTRL" => some .metaCtrl
  | "META_DIV" => some .metaDiv
  | "TM_CTRL" => some .tmCtrl
  | "TM_DIV" => some .tmDiv
  | "TM_THRESH" => some .tmThresh
  | "XMOD_DEPTH" => some .xmodDepth
  | "ROUTE" => some .route
  | "BASE_T" => some .baseT
  | "BASE_C" => some .baseC
  | "BASE_G" => some .baseG
  | _ => none

/-- The registers named with an index: STEP registers 0..63, MOD registers 0..1 (10_state.md rule R40). -/
def indexedRegister (name : String) (n : Nat) : Option CfgReg :=
  if hi : n < 64 then
    match name with
    | "STEP_SHAPE" => some (.stepShape ⟨n, hi⟩)
    | "STEP_PITCH" => some (.stepPitch ⟨n, hi⟩)
    | "STEP_AUX" => some (.stepAux ⟨n, hi⟩)
    | "STEP_REPEAT" => some (.stepRepeat ⟨n, hi⟩)
    | _ =>
      if hk : n < 2 then
        match name with
        | "MOD_CTRL" => some (.modCtrl ⟨n, hk⟩)
        | "MOD_RATE" => some (.modRate ⟨n, hk⟩)
        | "MOD_RATIO" => some (.modRatio ⟨n, hk⟩)
        | "MOD_DEPTH_T" => some (.modDepthT ⟨n, hk⟩)
        | "MOD_DEPTH_C" => some (.modDepthC ⟨n, hk⟩)
        | "MOD_DEPTH_V" => some (.modDepthV ⟨n, hk⟩)
        | "MOD_DEPTH_G" => some (.modDepthG ⟨n, hk⟩)
        | _ => none
      else none
  else none

/-- A register by its name: `CTRL`, `STEP_PITCH[2]` (rule R108). -/
def readRegister (cs : List Char) : Option CfgReg :=
  match splitChars '[' cs with
  | [name] => plainRegister (String.ofList name)
  | [name, rest] =>
    match splitChars ']' rest with
    | [digits, []] => (readNat digits).bind (indexedRegister (String.ofList name))
    | _ => none
  | _ => none

/-! ### Operands -/

/-- A number below a bound. -/
def readBelow (bound : Nat) (cs : List Char) : Option Nat := (readNat cs).filter (· < bound)

/-- An index operand: the 11 bits of A (rule R103). -/
def readIndex (cs : List Char) : Option Nat := readBelow indexBound cs

/-- A configuration address: a number or a register's name (rule R108). -/
def readAddress (cs : List Char) : Option Nat :=
  match readRegister cs with
  | some r => some (cfgAddress r)
  | none => readIndex cs

/-- An unsigned 16-bit operand. -/
def readUnsigned (cs : List Char) : Option Half := (readBelow 65536 cs).map (BitVec.ofNat 16)

/-- A 16-bit operand that may be written negative, as its two's-complement pattern (rule R108). -/
def readSigned (cs : List Char) : Option Half :=
  ((readInt cs).filter fun x => decide (-32768 ≤ x) && decide (x ≤ 65535)).map (BitVec.ofInt 16)

/-- A one-bit operand. -/
def readBit (cs : List Char) : Option Bool := (readBelow 2 cs).map (· = 1)

/-- The operand of ERR_CLEAR. -/
def readMask (cs : List Char) : Option (BitVec 5) := (readBelow 32 cs).map (BitVec.ofNat 5)

/-! ### Lines -/

/-- The pseudo-instruction of a mnemonic and its operands (rule R109). -/
def assemblePseudo (mnemonic : String) (args : List (List Char)) : Option Pseudo :=
  match mnemonic, args with
  | "TICKS_ON", [] => some .ticksOn
  | "TICKS_OFF", [] => some .ticksOff
  | "CLR_ERR", [] => some .clrErr
  | "SET", [a, d] => (readAddress a).bind fun a => (readSigned d).map (.set a)
  | "MIX_RATE1", [d] => (readSigned d).map .mixRate1
  | "MIX_RATE2", [d] => (readSigned d).map .mixRate2
  | "MIX_LEVEL1", [d] => (readUnsigned d).map .mixLevel1
  | "MIX_LEVEL2", [d] => (readUnsigned d).map .mixLevel2
  | "SEQ_CLOCK", [d] => (readBit d).map .seqClock
  | _, _ => none

/-- The instruction of a mnemonic and its operands, A then D (rule R108). -/
def assembleInstr (mnemonic : String) (args : List (List Char)) : Option Instr :=
  match mnemonic, args with
  | "NOP", [] => some .nop
  | "RING_STATUS", [] => some .ringStatus
  | "RING_ACQUIRE", [] => some .ringAcquire
  | "RING_WRITE", [a, d] => (readIndex a).bind fun a => (readSigned d).map (.ringWrite a)
  | "RING_READMASK", [a] => (readIndex a).map .ringReadmask
  | "RING_ADVANCE", [] => some .ringAdvance
  | "ERR_READ", [] => some .errRead
  | "ERR_CLEAR", [d] => (readMask d).map .errClear
  | "TRIG_TAKE", [] => some .trigTake
  | "TRIG_STATUS", [] => some .trigStatus
  | "ADC_READ", [a] => (readIndex a).map .adcRead
  | "ADC_STATUS", [] => some .adcStatus
  | "CFG_WRITE", [a, d] => (readAddress a).bind fun a => (readSigned d).map (.cfgWrite a)
  | "CFG_READ", [a] => (readAddress a).map .cfgRead
  | "SEQ_META_CLOCK", [d] => (readBit d).map .seqMetaClock
  | "SEQ_META_READ", [a] => (readIndex a).map .seqMetaRead
  | "SEQ_TM_CLOCK", [d] => (readBit d).map .seqTmClock
  | "SEQ_TM_READ", [a] => (readIndex a).map .seqTmRead
  | "MIX_RATE", [a, d] => (readIndex a).bind fun a => (readSigned d).map (.mixRate a)
  | "MIX_LEVEL", [a, d] => (readIndex a).bind fun a => (readUnsigned d).map (.mixLevel a)
  | "MIX_COMBINE", [] => some .mixCombine
  | "MIX_READ", [a] => (readIndex a).map .mixRead
  | "TICK", [d] => (readBit d).map .tick
  | _, _ => none

/-- A line without its label (rule R108). -/
def dropLabel (cs : List Char) : List Char :=
  match splitChars ':' cs with
  | [_, rest] => rest
  | _ => cs

/-- The operands of a line: the pieces between commas, none where nothing stands. -/
def readOperands (cs : List Char) : List (List Char) :=
  if trimBlanks cs = [] then [] else (splitChars ',' cs).map trimBlanks

/-- The instructions a line of assembly stands for (rules R108, R109); none where it is no line of the assembly. -/
def assembleLine (line : String) : Option (List Instr) :=
  let text := trimBlanks (dropLabel line.toList)
  let mnemonic := String.ofList (text.takeWhile (· ≠ ' '))
  let args := readOperands (text.dropWhile (· ≠ ' '))
  if text = [] then some []
  else
    match assembleInstr mnemonic args with
    | some i => some [i]
    | none => (assemblePseudo mnemonic args).map expandPseudo

end Sys2Proof.Machine
end

