-- ==== Sys2Proof/Tests/Slice0.lean ====
section
/-! SUPPORT. Tests of the model. Every expected value is taken from spec/95_test_vectors.md or from the encoding table of
30_encoding.md rule R104, none from the model. The witnesses at the end show, for each statement with hypotheses, a
concrete state and operands that meet them. -/

namespace Sys2Proof.Machine

/-! ### The machines of the tests: the parameters of 95_test_vectors.md -/

/-- N = 4, B = 24, SCAN_LEN = 8, ADC_BITS = 16, PARAM_MAX = 32767, TM_SCALE[i] = i. -/
def testPar : Params where
  N := 4
  B := 24
  scanLen := 8
  adcBits := 16
  tmScale := #v[0, 1, 2, 3, 4, 5, 6, 7, 8, 9, 10, 11, 12, 13, 14, 15]
  modKind := #v[.off, .env, .env, .lfo, .lfo, .env, .lfo, .off]
  paramMax := 32767
  N_ge := by decide
  N_le := by decide
  B_ge := by decide
  B_le := by decide
  scanLen_ge := by decide
  scanLen_le := by decide
  adcBits_ge := by decide
  adcBits_le := by decide
  paramMax_ge := by decide
  paramMax_le := by decide
  modKind_zero := rfl
  modKind_two := by decide

/-- The same machine with B = 2 and SCAN_LEN = 1. -/
def tinyPar : Params :=
  { testPar with
    B := 2, scanLen := 1
    B_ge := by decide, B_le := by decide, scanLen_ge := by decide, scanLen_le := by decide }

/-- The machine after reset and then configuration writes of legal values. -/
def configured (P : Params) (writes : List (CfgReg × Half)) : State :=
  writes.foldl (fun s e => s.cfgWritten e.1 e.2) (State.resetWith P)

/-- The machine after reset. -/
def start : State := State.resetWith testPar

/-- After TICKS_ON. -/
def ticking : State := configured testPar [(.ctrl, 1)]

/-- The ring full: p = c = 2. -/
def full : State := { start with ring := { start.ring with p := 2 } }

/-- A field of the next state. -/
def after {α : Type} (r : Result) (f : State → α) : Option α :=
  match r with
  | .next t => some (f t)
  | .fault _ => none
  | .refused _ => none

/-- The responses of one instruction from a state with nothing put out. -/
def answer (i : Instr) (s : State) : Option (List PortOut) := after (exec i s) State.out

/-! ### WellFormed: an ill-formed term for each check -/

theorem test_wellFormed_ringWrite : (Instr.ringWrite 2048 0).wellFormed = false := by decide
theorem test_wellFormed_ringReadmask : (Instr.ringReadmask 2048).wellFormed = false := by decide
theorem test_wellFormed_adcRead : (Instr.adcRead 2048).wellFormed = false := by decide
theorem test_wellFormed_cfgWrite : (Instr.cfgWrite 2048 0).wellFormed = false := by decide
theorem test_wellFormed_cfgRead : (Instr.cfgRead 2048).wellFormed = false := by decide
theorem test_wellFormed_seqMetaRead : (Instr.seqMetaRead 2048).wellFormed = false := by decide
theorem test_wellFormed_seqTmRead : (Instr.seqTmRead 2048).wellFormed = false := by decide
theorem test_wellFormed_mixRate : (Instr.mixRate 2048 0).wellFormed = false := by decide
theorem test_wellFormed_mixLevel : (Instr.mixLevel 2048 0).wellFormed = false := by decide
theorem test_wellFormed_mixRead : (Instr.mixRead 2048).wellFormed = false := by decide

/-! ### Decode: words written out as OP, A, D from rule R104 -/

theorem test_decode_nop : decode .P 0b00000_11111111111_1111111111111111 = .ok .nop := by decide
theorem test_decode_ringStatus : decode .P 0b00001_00000000000_0000000000000000 = .ok .ringStatus := by decide
theorem test_decode_ringAcquire : decode .P 0b00010_00000000000_0000000000000000 = .ok .ringAcquire := by decide
theorem test_decode_ringWrite :
    decode .P 0b00011_10000000001_1000000000000001 = .ok (.ringWrite 1025 0x8001) := by decide
theorem test_decode_ringReadmask :
    decode .P 0b00100_00000000010_0000000000000000 = .ok (.ringReadmask 2) := by decide
theorem test_decode_ringAdvance : decode .P 0b00101_00000000000_0000000000000000 = .ok .ringAdvance := by decide
theorem test_decode_errRead : decode .P 0b00110_00000000000_0000000000000000 = .ok .errRead := by decide
theorem test_decode_errClear :
    decode .P 0b00111_00000000000_0000000000110010 = .ok (.errClear 0b10010) := by decide
theorem test_decode_trigTake : decode .P 0b01000_00000000000_0000000000000000 = .ok .trigTake := by decide
theorem test_decode_trigStatus : decode .P 0b01001_00000000000_0000000000000000 = .ok .trigStatus := by decide
theorem test_decode_adcRead : decode .P 0b01010_00000000011_0000000000000000 = .ok (.adcRead 3) := by decide
theorem test_decode_adcStatus : decode .P 0b01011_00000000000_0000000000000000 = .ok .adcStatus := by decide
theorem test_decode_cfgWrite :
    decode .P 0b01100_01100110010_1100001101010000 = .ok (.cfgWrite 0x332 0xC350) := by decide
theorem test_decode_cfgRead : decode .P 0b01101_00000000011_0000000000000000 = .ok (.cfgRead 0x003) := by decide
theorem test_decode_seqMetaClock :
    decode .P 0b10000_00000000000_0000000000000001 = .ok (.seqMetaClock true) := by decide
theorem test_decode_seqMetaRead :
    decode .P 0b10001_00000000011_0000000000000000 = .ok (.seqMetaRead 3) := by decide
theorem test_decode_seqTmClock :
    decode .P 0b10010_00000000000_1111111111111110 = .ok (.seqTmClock false) := by decide
theorem test_decode_seqTmRead : decode .P 0b10011_00000000010_0000000000000000 = .ok (.seqTmRead 2) := by decide
theorem test_decode_mixRate :
    decode .P 0b11000_00000000001_1111111100000000 = .ok (.mixRate 1 0xFF00) := by decide
theorem test_decode_mixLevel :
    decode .P 0b11001_00000000001_0100111000100000 = .ok (.mixLevel 1 20000) := by decide
theorem test_decode_mixCombine : decode .P 0b11010_00000000000_0000000000000000 = .ok .mixCombine := by decide
theorem test_decode_mixRead : decode .P 0b11011_00000001000_0000000000000000 = .ok (.mixRead 8) := by decide
theorem test_decode_tick : decode .T 0b11111_00000000000_0000000000000001 = .ok (.tick true) := by decide
theorem test_decode_tick_on_P :
    decode .P 0b11111_00000000000_0000000000000001 = .error (.reservedOpcode 31) := by decide
theorem test_decode_command_on_T : decode .T 0x00000001 = .error (.notATick 0) := by decide

/-! ### System and configuration (L2.1) -/

theorem test_nop : answer .nop start = some [.resp 0] := by decide
theorem test_errRead : answer .errRead { start with err := 0b10100 } = some [.resp 0x14] := by decide
theorem test_errClear : answer (.errClear 0b10101) { start with err := 0b11101 } = some [.resp 0x08] := by decide
theorem test_cfgRead : answer (.cfgRead 0x002) start = some [.resp 0x18] := by decide
theorem test_cfgRead_unmapped : answer (.cfgRead 0x005) start = some [.resp 0x80000000] := by decide
theorem test_cfgWrite_warl : answer (.cfgWrite 0x022 0xFF3F) start = some [.resp 0x1420] := by decide
theorem test_cfgWrite_readOnly : after (exec (.cfgWrite 0x000 0) start) State.err = some 0b10000 := by decide

/-! ### RING (L2.2) -/

theorem test_ringStatus : answer .ringStatus start = some [.resp 0x04000200] := by decide
theorem test_ringStatus_full : answer .ringStatus full = some [.resp 0x00000202] := by decide
theorem test_ringAcquire : answer .ringAcquire full = some [.resp 0x00000002] := by decide
theorem test_ringWrite :
    after (exec (.ringWrite 23 0x8000) start) (fun t => t.sampleAt 0 23) = some 0x8000 := by decide
theorem test_ringWrite_priority : after (exec (.ringWrite 30 5) full) State.err = some 0b00100 := by decide
theorem test_ringReadmask :
    answer (.ringReadmask 1) ((start.writeMask 0 17 true).writeMask 0 23 true) = some [.resp 0x0082] := by decide
theorem test_ringReadmask_range : answer (.ringReadmask 2) start = some [.resp 0x80000000] := by decide
theorem test_ringAdvance : answer .ringAdvance start = some [.resp 0x04000001] := by decide
theorem test_ringAdvance_full : answer .ringAdvance full = some [.resp 0x80000003] := by decide

/-! ### TRIG and SCAN (L2.3, L2.4) -/

theorem test_trigTake :
    answer .trigTake { start with trig := { start.trig with fired := true } } = some [.resp 1] := by decide
theorem test_trigStatus :
    answer .trigStatus { start with trig := { start.trig with delay := 2, detected := true } } =
      some [.resp 0x0202] := by decide
theorem test_adcRead :
    answer (.adcRead 3) { start with scan := { start.scan with chValue := #v[1, 2, 3, 0xFFFF] } } =
      some [.resp 0xFFFF] := by decide
theorem test_adcRead_range : answer (.adcRead 4) start = some [.resp 0x80000000] := by decide
theorem test_adcStatus :
    answer .adcStatus { start with scan := { start.scan with phase := 5 } } = some [.resp 5] := by decide

/-! ### TICK (L2.2, L2.3, L2.5) -/

/-- With exponent 3 and SCAN_LEN = 1 the arming tick leaves delay 8. -/
theorem test_tick_arms :
    after (exec (.tick true) (configured tinyPar [(.ctrl, 1), (.trigCfg, 3)])) State.trig =
      some { detected := false, delay := 8, fired := false } := by decide
/-- Tick 4 of the underrun table: c moves onto p. -/
theorem test_tick_underrun :
    after (exec (.tick false)
      { configured tinyPar [(.ctrl, 1)] with ring := { p := 0, c := 3, s := 1, sample := [], mask := [] } })
      (fun t => (t.ring.c, t.ring.s, t.err)) = some (0, 0, 0b01000) := by decide

/-! ### SEQ (L1.3, L1.4, L2.6, L2.7) -/

/-- Swing at LEN 4, arrival at the top: index 3, direction descending. -/
theorem test_seqMetaClock_swing :
    after (exec (.seqMetaClock true)
      { configured testPar [(.metaCtrl, 0x104), (.stepShape 3, 1)] with
        metaSeq := { start.metaSeq with idx := 2 } })
      (fun t => (t.metaSeq.idx, t.metaSeq.dir, t.out)) = some (3, true, [.resp 0x0307]) := by decide
/-- Q4: LEN 5, random, draw 0xFFFFFFFF: index 4. -/
theorem test_seqMetaClock_random :
    after (exec (.seqMetaClock true)
      { configured testPar [(.metaCtrl, 0x205)] with env := { start.env with random := [0xFFFFFFFF] } })
      (fun t => t.metaSeq.idx) = some 4 := by decide
theorem test_seqMetaRead :
    answer (.seqMetaRead 1) { start with metaSeq := { start.metaSeq with pitch := 0xFFFF } } =
      some [.resp 0xFFFF] := by decide
theorem test_seqMetaRead_range : answer (.seqMetaRead 4) start = some [.resp 0x80000000] := by decide
/-- TM2 at the wrap: 0x7FFF is below 0x8000, so bit 3 flips. -/
theorem test_seqTmClock_flip :
    after (exec (.seqTmClock true)
      { configured testPar [(.tmCtrl, 0x0204), (.tmThresh, 0x8000)] with
        tmSeq := { reg := 0b0110, pos := 3, div := 0, pitch := 256 }
        env := { start.env with random := [0x00007FFF] } })
      (fun t => (t.tmSeq.reg, t.tmSeq.pitch, t.out)) = some (0b1011, 384, [.resp 7]) := by decide
/-- TM4 at the wrap: the reseed draw 0xDEADBEEF replaces the register. -/
theorem test_seqTmClock_reseed :
    after (exec (.seqTmClock true)
      { configured testPar [(.tmCtrl, 0x1404)] with
        tmSeq := { reg := 0b0010, pos := 3, div := 0, pitch := 256 }
        env := { start.env with random := [0x0000FFFF, 0xDEADBEEF] } })
      (fun t => (t.tmSeq.reg, t.tmSeq.pitch, t.env.randomTaken)) = some (0b1111, 1920, 2) := by decide
theorem test_seqTmRead :
    answer (.seqTmRead 2) { start with tmSeq := { start.tmSeq with reg := 0xC0000000 } } =
      some [.resp 0xC000] := by decide
theorem test_seqTmRead_range : answer (.seqTmRead 4) start = some [.resp 0x80000000] := by decide

/-! ### MIX (L2.8) -/

/-- M2: an inverted LFO slot. -/
theorem test_mixRate_inverted :
    answer (.mixRate 0 0) (configured testPar [(.modCtrl 0, 0x000B), (.modRate 0, 10), (.modRatio 0, 127)]) =
      some [.resp 0x02007575] := by decide
/-- M4: cross-modulation. -/
theorem test_mixRate_cross :
    answer (.mixRate 1 0)
      ((configured testPar [(.modRate 1, 10), (.xmodDepth, 16384)]).withSlot 0
        { rate := 0, atk := 0, dec := 0, level := 65535 }) = some [.resp 0x00490049] := by decide
theorem test_mixLevel :
    after (exec (.mixLevel 0 0xFFFF) start) (fun t => (t.slot 0).level) = some 65535 := by decide
theorem test_mixLevel_range : answer (.mixLevel 2 0) start = some [.resp 0x80000000] := by decide
/-- M10: gain, with timbre clamped to PARAM_MAX and color to 0. -/
theorem test_mixCombine :
    after (exec .mixCombine
      ((configured testPar [(.modCtrl 0, 1), (.modDepthT 0, 0x7FFF), (.modDepthC 0, 0x8000),
        (.modDepthV 0, 0x7FFF), (.modDepthG 0, 0x7FFF)]).withSlot 0
        { rate := 0, atk := 0, dec := 0, level := 65535 }))
      (fun t => (t.mix.timbre, t.mix.color, t.mix.gain, t.mix.vib)) =
      some (32767, 0, 65533, 32767) := by decide
/-- M13: the bipolar vibrato at level 0. -/
theorem test_mixCombine_vibrato :
    after (exec .mixCombine (configured testPar [(.modCtrl 0, 1), (.modDepthV 0, 0x7FFF)]))
      (fun t => t.mix.vib) = some (BitVec.ofInt 32 (-32767)) := by decide
theorem test_mixRead_high :
    answer (.mixRead 4) { start with mix := { start.mix with vib := BitVec.ofInt 32 (-32767) } } =
      some [.resp 0xFFFF] := by decide
theorem test_mixRead_packed :
    answer (.mixRead 5) (start.withSlot 0 { rate := 47, atk := 12, dec := 35, level := 49152 }) =
      some [.resp 0x00230C2F] := by decide

/-! ### Steps: one word presented on its port -/

theorem test_step_reserved :
    after (step (start.withFetchWord 32 0x70000000)) (fun t => (t.err, t.out)) =
      some (0b00001, [.resp 0x80000000]) := by decide
theorem test_step_tick :
    after (step (ticking.withFetchWord 32 0xF8000001)) (fun t => (t.out, t.trig.detected)) =
      some ([.dac 0x8000], true) := by decide

/-! ### Assembly (30_encoding.md rules R108, R109) -/

theorem test_assemble_negative : assembleLine "loop: RING_WRITE 5, -2" = some [.ringWrite 5 0xFFFE] := by decide
theorem test_assemble_register : assembleLine "CFG_WRITE STEP_PITCH[2], 0x10" = some [.cfgWrite 0x049 0x10] := by
  decide
theorem test_assemble_ticksOn : (assembleLine "TICKS_ON").map (·.map encode) = some [0x60040001] := by decide
theorem test_assemble_seqClock : assembleLine "SEQ_CLOCK 1" = some [.seqMetaClock true, .seqTmClock true] := by
  decide
theorem test_assemble_set : (assembleLine "SET MOD_CTRL[1], 3").map (·.map encode) = some [0x63100003] := by decide

/-! ### Witnesses: a state and operands that meet the hypotheses of each statement, clause by clause -/

/-- One word for every opcode of rule R104. -/
theorem witness_opcodes :
    opField 0x07FFFFFF = 0x00 ∧ opField 0x08000000 = 0x01 ∧ opField 0x10000000 = 0x02 ∧
    opField 0x1FFFFFFF = 0x03 ∧ opField 0x20000000 = 0x04 ∧ opField 0x28000000 = 0x05 ∧
    opField 0x30000000 = 0x06 ∧ opField 0x3800001F = 0x07 ∧ opField 0x40000000 = 0x08 ∧
    opField 0x48000000 = 0x09 ∧ opField 0x50030000 = 0x0A ∧ opField 0x58000000 = 0x0B ∧
    opField 0x60040001 = 0x0C ∧ opField 0x68040000 = 0x0D ∧ opField 0x80000001 = 0x10 ∧
    opField 0x88030000 = 0x11 ∧ opField 0x90000001 = 0x12 ∧ opField 0x98030000 = 0x13 ∧
    opField 0xC0010005 = 0x18 ∧ opField 0xC801FFFF = 0x19 ∧ opField 0xD0000000 = 0x1A ∧
    opField 0xD8080000 = 0x1B ∧ opField 0xF8000001 = 0x1F := by decide

/-- A full machine, about to present a word on each port. -/
def presented : State :=
  { full with inbox := [{ tick := some 0xF8000001, command := some 0x28000000 }, { reset := true }] }

theorem witness_DecodeInvertsEncode :
    (Instr.ringWrite 2047 0xFFFF).wellFormed = true ∧ (Instr.mixRead 0).wellFormed = true := by decide

theorem witness_DecodedInstructionIsEncodable :
    decode .P 0xDFFFFFFF = .ok (.mixRead 2047) ∧ decode .T 0xFFFFFFFE = .ok (.tick false) := by decide

theorem witness_ReservedOpcodeRaisesIll :
    ({ start with inbox := [{ command := some 0xF8000001 }] } : State).inbox = { command := some 0xF8000001 } :: [] ∧
    opField 0xF8000001 ∈ [0x0E, 0x0F, 0x14, 0x15, 0x16, 0x17, 0x1C, 0x1D, 0x1E, 0x1F] ∧
    opField 0x77FFFFFF ∈ [0x0E, 0x0F, 0x14, 0x15, 0x16, 0x17, 0x1C, 0x1D, 0x1E, 0x1F] ∧
    opField 0xDFFFFFFF ∉ [0x0E, 0x0F, 0x14, 0x15, 0x16, 0x17, 0x1C, 0x1D, 0x1E, 0x1F] := by decide

theorem witness_TPortAcceptsOnlyTick :
    opField 0xFFFFFFFF = 0x1F ∧
    ({ start with inbox := [{ tick := some 0x00000001 }] } : State).inbox = { tick := some 0x00000001 } :: [] ∧
    opField 0x00000001 ≠ 0x1F := by decide

theorem witness_StepRunsThePresentedInstruction :
    (({ start with inbox := [{ command := some 0x28000000 }] } : State).inbox =
        { command := some 0x28000000 } :: [] ∧ decode .P 0x28000000 = .ok .ringAdvance) ∧
    (({ start with inbox := [{ tick := some 0xF8000001 }] } : State).inbox =
        { tick := some 0xF8000001 } :: [] ∧ decode .T 0xF8000001 = .ok (.tick true)) := by decide

theorem witness_TickGoesBeforeTheCommand :
    presented.inbox = { tick := some 0xF8000001, command := some 0x28000000 } :: [{ reset := true }] := by decide

theorem witness_ResetLineResets :
    ({ full with inbox := [{ reset := true, tick := some 0xF8000001 }] } : State).inbox =
      { reset := true, tick := some 0xF8000001 } :: [] ∧
    ({ reset := true, tick := some 0xF8000001 } : Instant).reset = true := by decide

theorem witness_ResetLosesItsWordsAndKeepsThePorts :
    ({ presented with inbox := [{ reset := true, tick := some 0xF8000001 }, {}] } : State).inbox =
      { reset := true, tick := some 0xF8000001 } :: [{}] ∧
    ({ reset := true, tick := some 0xF8000001 } : Instant).reset = true := by decide

theorem witness_EveryStepCompletes : start.inbox = [] := by decide

theorem witness_ErrClearClearsTheChosenBits : (0 : Nat) < 5 ∧ (4 : Nat) < 5 := by decide

theorem witness_CfgReadAnswersTheRegister :
    cfgRegister 0x000 = some .id ∧ cfgRegister 0x13F = some (.stepRepeat 63) ∧ cfgRegister 0x332 = some .baseG ∧
    cfgRegister 0x140 = none ∧ cfgRegister 0x7FF = none := by decide

theorem witness_CfgWriteStoresTheLegalValue :
    cfgRegister 0x005 = none ∧ (cfgRegister 0x003 = some .cfgScan ∧ cfgReadOnly .cfgScan = true) ∧
    (ticking.cfg.wf = true ∧ cfgRegister 0x004 = some .ctrl ∧ cfgReadOnly .ctrl = false ∧ CfgReg.baseG ≠ .ctrl) := by
  decide

theorem witness_StoredValueIsLegal :
    cfgReadOnly .metaCtrl = false ∧ cfgReadOnly (.stepAux 63) = false := by decide

theorem witness_ConfigurationMapIsOneToOne : cfgRegister 0x316 = some (.modDepthG 1) := by decide

theorem witness_RingAcquireAnswersTheFreeSlot :
    (start.ring.p ≠ start.ring.c ∧
      after (exec .ringAdvance { start with ring := { start.ring with p := 1 } }) (fun t => decide (t.ring.p = t.ring.c)) =
        some true) ∧
    after (exec (.tick false)
      { configured tinyPar [(.ctrl, 1)] with ring := { p := 0, c := 3, s := 1, sample := [], mask := [] } })
      (fun t => decide (t.ring.p = t.ring.c)) = some true := by decide

theorem witness_RingWriteStoresOneSample :
    (start.ring.sample.wf = true ∧ 23 < start.par.B ∧ start.ring.p ≠ start.ring.c ∧ (1023 : Nat) < 1024 ∧
      (3 ≠ start.ring.p.toNat ∨ 1023 ≠ 23)) ∧
    start.par.B ≤ 24 ∧ (23 < full.par.B ∧ full.ring.p = full.ring.c) := by decide

theorem witness_RingReadmaskAnswersTheGroup :
    (16 * 1 < start.par.B ∧ (15 : Nat) < 16) ∧ start.par.B ≤ 16 * 2 := by decide

theorem witness_RingAdvanceMovesTheProducer :
    ({ start with ring := { start.ring with p := 3 } } : State).ring.p ≠ start.ring.c ∧
    (full.ring.p = full.ring.c ∧ full.ring.c.toNat < full.par.N) := by decide

theorem witness_WaitingCountMoves :
    (start.ring.p.toNat < start.par.N ∧ start.ring.c.toNat < start.par.N ∧ start.ring.p ≠ start.ring.c ∧
      after (exec .ringAdvance start) waiting = some 2) ∧
    (({ ticking with ring := { ticking.ring with s := 23 } } : State).tickEn = true ∧
      ({ ticking with ring := { ticking.ring with s := 23 } } : State).ring.s.toNat + 1 = ticking.par.B ∧
      after (exec (.tick false) { ticking with ring := { ticking.ring with s := 23 } }) waiting = some 0) := by decide

theorem witness_PublishedBlockHoldsTheSamples :
    start.ring.sample.wf = true ∧ start.ring.p ≠ start.ring.c ∧
    (List.replicate 24 (7 : Half)).length = start.par.B ∧ (23 : Nat) < (List.replicate 24 (7 : Half)).length ∧
    (3 : Nat) ≠ start.ring.p.toNat := by decide

theorem witness_TriggerFiresAfterTheDelay :
    ticking.tickEn = true ∧ ticking.trig = { detected := false, delay := 0, fired := false } ∧
    ({ ticking with scan := { ticking.scan with phase := 7 } } : State).scan.phase.toNat < ticking.par.scanLen := by
  decide

theorem witness_ScanCycleArmsAtMostOnce :
    ticking.tickEn = true ∧ ticking.trig = { detected := false, delay := 0, fired := false } ∧
    ticking.scan.phase.toNat + [true, true, false, false, false, false, false, true].length = ticking.par.scanLen ∧
    [true, true, false, false, false, false, false, true] ≠ [] := by decide

theorem witness_FiredIsSetOnlyAtTheEndOfACountdown :
    (after (exec (.tick true) (configured tinyPar [(.ctrl, 1)])) (fun t => t.trig.fired) = some true ∧
      (configured tinyPar [(.ctrl, 1)]).trig.fired = false) ∧
    (({ start with trig := { start.trig with fired := true } } : State).trig.fired = true ∧
      after (exec .trigTake { start with trig := { start.trig with fired := true } }) (fun t => t.trig.fired) =
        some false) := by decide

theorem witness_AdcCommands : (4 : Nat) ≤ 4 ∧ (4 : Nat) ≤ 2047 := by decide

theorem witness_EveryScanLenTicksCompleteACycle :
    ticking.tickEn = true ∧ ticking.scan.phase.toNat < ticking.par.scanLen := by decide

theorem witness_DisabledTickHasNoEffect : start.tickEn = false := by decide

/-- A disabled tick, a tick inside a scan cycle and a block, and one that ends both. -/
theorem witness_EffectiveTickDoesItsFiveSteps :
    opField 0xFFFFFFFF = 0x1F ∧ start.tickEn = false ∧
    (ticking.tickEn = true ∧ ticking.ring.mask.wf = true ∧
      (ticking.scan.phase.toNat + 1) % ticking.par.scanLen ≠ 0) ∧
    (({ configured tinyPar [(.ctrl, 1)] with ring := { p := 0, c := 3, s := 1, sample := [], mask := [] } } :
        State).tickEn = true ∧
      ((configured tinyPar [(.ctrl, 1)]).scan.phase.toNat + 1) % tinyPar.scanLen = 0 ∧
      ((false || true) = true → (5 : Nat) = (if (2 : Nat) = 0 then 0 else 2 ^ 2) + 1)) := by decide

theorem witness_UnderrunExactlyWhenNoSlotWaits :
    ∃ s : State, s.tickEn = true ∧ s.ring.p.toNat < s.par.N ∧ s.ring.c.toNat < s.par.N ∧
      after (exec (.tick false) s) (fun t => t.err) = some 0b01000 ∧ s.ring.s.toNat + 1 = s.par.B ∧ waiting s = 0 :=
  ⟨{ configured tinyPar [(.ctrl, 1)] with ring := { p := 0, c := 3, s := 1, sample := [], mask := [] } }, by decide⟩

theorem witness_BlockPlaysInOrder :
    ticking.tickEn = true ∧ ticking.ring.mask.wf = true ∧ ticking.ring.s = 0 ∧
    (List.replicate 24 true).length = ticking.par.B ∧ (23 : Nat) < (List.replicate 24 true).length := by decide

/-- Clause 1 at the slot being played and at the last waiting slot, clause 2 at the last offset. -/
theorem witness_SampleIsPlayedWithinTheRing :
    (ticking.tickEn = true ∧ ticking.ring.p.toNat < ticking.par.N ∧ ticking.ring.c.toNat < ticking.par.N ∧
      ticking.ring.s.toNat < ticking.par.B) ∧
    (0 ≤ waiting ticking ∧ 0 < ticking.par.B ∧
      ([] : List Bool).length + ticking.ring.s.toNat = 0 * ticking.par.B + 0) ∧
    (1 ≤ waiting ticking ∧ 23 < ticking.par.B ∧
      (List.replicate 47 false).length + ticking.ring.s.toNat = 1 * ticking.par.B + 23) ∧
    (ticking.ring.sample.wf = true ∧ ticking.ring.p ≠ ticking.ring.c ∧
      (List.replicate 71 false).length + ticking.ring.s.toNat = (waiting ticking + 1) * ticking.par.B + 23) := by decide

theorem witness_DividerRollsEveryDivCalls :
    (255 ≤ 255 ∧ max 1 255 ≤ (254 : BitVec 8).toNat + 1) ∧ (max 1 0 ≤ (0 : BitVec 8).toNat + 1) ∧
    ((253 : BitVec 8).toNat + 1 < max 1 255) ∧ ((1 : Nat) ≤ 255 ∧ (255 : Nat) ≤ 255) := by decide

theorem witness_SequencersIdleWithoutTrigger :
    start.metaLen = 0 ∧ start.tmLen = 0 ∧ (configured testPar [(.metaCtrl, 1)]).metaLen ≠ 0 ∧
    (configured testPar [(.tmCtrl, 1)]).tmLen ≠ 0 := by decide

/-- An inactive sequencer, a count, a repeat, and an advance in each direction mode. -/
theorem witness_SeqMetaClockAdvances :
    (start.metaLen = 0 ∨ true = false) ∧ ((configured testPar [(.metaCtrl, 64)]).metaLen = 0 ∨ false = false) ∧
    ((configured testPar [(.metaCtrl, 3), (.metaDiv, 2)]).metaLen ≠ 0 ∧
      (configured testPar [(.metaCtrl, 3), (.metaDiv, 2)]).metaSeq.div.toNat + 1 <
        max 1 (configured testPar [(.metaCtrl, 3), (.metaDiv, 2)]).metaDiv) ∧
    (max 1 (configured testPar [(.metaCtrl, 3), (.stepRepeat 0, 2)]).metaDiv ≤
        (configured testPar [(.metaCtrl, 3), (.stepRepeat 0, 2)]).metaSeq.div.toNat + 1 ∧
      (configured testPar [(.metaCtrl, 3), (.stepRepeat 0, 2)]).metaSeq.rep.toNat + 1 <
        max 1 ((configured testPar [(.metaCtrl, 3), (.stepRepeat 0, 2)]).stepRepeat 0)) ∧
    ((configured testPar [(.metaCtrl, 3)]).metaDir = 0 ∧ (1, false) = loopNext 0 false 3) ∧
    ((configured testPar [(.metaCtrl, 0x103)]).metaDir = 1 ∧ (1, false) = swingNext 0 false 3) ∧
    ((configured testPar [(.metaCtrl, 0x203)]).metaDir = 2 ∧ (1, false) = randomNext 0x80000000 false 3) ∧
    max 1 ((configured testPar [(.metaCtrl, 3)]).stepRepeat 0) ≤ start.metaSeq.rep.toNat + 1 := by decide

theorem witness_LoopAndRandomNext : (1 : Nat) ≤ 1 ∧ (1 : Nat) ≤ 64 := by decide

theorem witness_SwingIsATriangleWave : ((1 : Nat) ≤ 1 ∧ (1 : Nat) ≤ 64) ∧ (2 : Nat) ≤ 2 ∧ (2 : Nat) ≤ 64 := by decide

theorem witness_SequencersSelfCorrect :
    (∃ s : State, 1 ≤ s.metaLen ∧ max 1 s.metaDiv ≤ s.metaSeq.div.toNat + 1 ∧
      max 1 (s.stepRepeat s.metaSeq.idx.toNat) ≤ s.metaSeq.rep.toNat + 1 ∧
      after (exec (.seqMetaClock true) s) (fun t => t.metaSeq.idx) = some 0) ∧
    (∃ s : State, 1 ≤ s.tmLen ∧ s.tmLen ≤ 32 ∧ max 1 s.tmDiv ≤ s.tmSeq.div.toNat + 1 ∧
      after (exec (.seqTmClock true) s) (fun t => t.tmSeq.pos) = some 0) :=
  ⟨⟨{ configured testPar [(.metaCtrl, 3)] with metaSeq := { start.metaSeq with idx := 63 } }, by decide⟩,
    ⟨{ configured testPar [(.tmCtrl, 4)] with
        tmSeq := { start.tmSeq with pos := 31 }, env := { start.env with random := [0] } }, by decide⟩⟩

theorem witness_SeqMetaReadSelects : (4 : Nat) ≤ 4 ∧ (4 : Nat) ≤ 2047 := by decide

/-- An inactive sequencer, a count, an advance below the wrap point, and a wrap. -/
theorem witness_SeqTmClockAdvances :
    (start.tmLen = 0 ∨ true = false) ∧ ((configured testPar [(.tmCtrl, 32)]).tmLen = 0 ∨ false = false) ∧
    ((configured testPar [(.tmCtrl, 4), (.tmDiv, 2)]).tmLen ≠ 0 ∧
      (configured testPar [(.tmCtrl, 4), (.tmDiv, 2)]).tmSeq.div.toNat + 1 <
        max 1 (configured testPar [(.tmCtrl, 4), (.tmDiv, 2)]).tmDiv) ∧
    (max 1 (configured testPar [(.tmCtrl, 4)]).tmDiv ≤ (configured testPar [(.tmCtrl, 4)]).tmSeq.div.toNat + 1 ∧
      (configured testPar [(.tmCtrl, 4)]).tmSeq.pos.toNat + 1 < (configured testPar [(.tmCtrl, 4)]).tmLen ∧
      0 = rotateRight 4 0) ∧
    (configured testPar [(.tmCtrl, 1)]).tmLen ≤ (configured testPar [(.tmCtrl, 1)]).tmSeq.pos.toNat + 1 := by decide

theorem witness_RotationIsCircular : (1 : Nat) ≤ 1 ∧ (1 : Nat) ≤ 32 := by decide

theorem witness_SeqTmReadSelects : (4 : Nat) ≤ 4 := by decide

/-- Two machines that differ in WIN, in the pitch and in `err`. -/
theorem witness_TuringRegisterHasNoHiddenState :
    ∃ s₁ s₂ : State, s₁ ≠ s₂ ∧ s₁.tmSeq.reg = s₂.tmSeq.reg ∧ s₁.tmSeq.pos = s₂.tmSeq.pos ∧
      s₁.tmSeq.div = s₂.tmSeq.div ∧ s₁.tmLen = s₂.tmLen ∧ s₁.tmDiv = s₂.tmDiv ∧ s₁.tmReseed = s₂.tmReseed ∧
      s₁.tmThresh = s₂.tmThresh ∧ s₁.env = s₂.env ∧
      after (exec (.seqTmClock true) s₁) (fun t => t.tmSeq.pos) = some 1 ∧
      after (exec (.seqTmClock true) s₂) (fun t => t.tmSeq.pos) = some 1 :=
  ⟨configured testPar [(.tmCtrl, 0x0104)],
    { configured testPar [(.tmCtrl, 0x0404)] with tmSeq := { start.tmSeq with pitch := 5 }, err := 1 }, by decide⟩

/-- M2 of L2.8, and a slot that does not exist. -/
theorem witness_MixRateDerivesTheSlot :
    ∃ (s : State) (x : Int) (c r : Nat),
      x = ((s.cfgValue (.modRate 0)).toNat % 128 : Nat) + (if s.route = 1 then (0 : Int) else 0) + 0 ∧
      c = (max 0 (min 127 x)).toNat ∧
      r = (if s.slotKind 0 = .lfo ∧ s.rateInv 0 = true then 127 - c else c) ∧ r = 117 ∧ (2 : Nat) ≤ 2 :=
  ⟨configured testPar [(.modCtrl 0, 0x000B), (.modRate 0, 10)], 10, 10, 117, by decide⟩

theorem witness_AttackAndDecayShareTheRate : (127 : Nat) ≤ 127 ∧ (0 : Nat) ≤ 127 := by decide

theorem witness_MixLevelHoldsTheLevel : (1 : Fin 2) ≠ 0 ∧ (2 : Nat) ≤ 2 := by decide

/-- M10 of L2.8: the sums before their clamps. -/
theorem witness_MixCombineClampsTheSums :
    ∃ (s : State) (T C G V L₀ L₁ : Int), L₀ = (s.slot 0).level.toNat ∧ L₁ = (s.slot 1).level.toNat ∧
      T = ((s.cfgValue .baseT).toNat : Int) + contribution s 0 L₀ (s.cfgValue (.modDepthT 0)).toInt
        + contribution s 1 L₁ (s.cfgValue (.modDepthT 1)).toInt ∧
      C = ((s.cfgValue .baseC).toNat : Int) + contribution s 0 L₀ (s.cfgValue (.modDepthC 0)).toInt
        + contribution s 1 L₁ (s.cfgValue (.modDepthC 1)).toInt ∧
      G = ((s.cfgValue .baseG).toNat : Int) + contribution s 0 L₀ (s.cfgValue (.modDepthG 0)).toInt
        + contribution s 1 L₁ (s.cfgValue (.modDepthG 1)).toInt ∧
      V = contribution s 0 (L₀ - 32767) (s.cfgValue (.modDepthV 0)).toInt
        + contribution s 1 (L₁ - 32767) (s.cfgValue (.modDepthV 1)).toInt :=
  ⟨(configured testPar [(.modCtrl 0, 1), (.modDepthT 0, 0x7FFF), (.modDepthC 0, 0x8000),
      (.modDepthV 0, 0x7FFF), (.modDepthG 0, 0x7FFF)]).withSlot 0 { rate := 0, atk := 0, dec := 0, level := 65535 },
    65533, -65535, 65533, 32767, 65535, 0, by decide⟩

theorem witness_ContributionsFollowTheDepths :
    start.slotKind 0 = .off ∧ (configured testPar [(.modCtrl 1, 2)]).slotKind 1 ≠ .off := by decide

theorem witness_MixReadSelects : (9 : Nat) ≤ 9 ∧ (9 : Nat) ≤ 2047 := by decide

theorem witness_ErrorsAreRaisedExactly :
    (∀ mask, Instr.nop ≠ .errClear mask) ∧ Instr.nop.port = .P ∧ (Instr.tick true).port = .T := by
  refine ⟨fun _ => ?_, ?_, ?_⟩
  · intro h; cases h
  · decide
  · decide

theorem witness_EachAgentWritesItsOwnState :
    (after (exec (.tick true) ticking) (fun t => t.trig.detected) = some true) ∧
    (Instr.ringAdvance.port = .P ∧ after (exec .ringAdvance start) (fun t => t.ring.p) = some 1) := by decide

/-- Each kind of state changed by the command that may change it. -/
theorem witness_EachCommandWritesItsOwnUnit :
    after (exec .ringAdvance start) (fun t => decide (t.ring.p ≠ start.ring.p)) = some true ∧
    after (exec (.ringWrite 0 1) start) (fun t => decide (t.ring.sample ≠ start.ring.sample)) = some true ∧
    start.ring.sample.wf = true ∧
    after (exec (.cfgWrite 4 1) start) (fun t => decide (t.cfg ≠ start.cfg)) = some true ∧
    after (exec (.seqMetaClock true) (configured testPar [(.metaCtrl, 3)]))
      (fun t => decide (t.metaSeq ≠ start.metaSeq)) = some true ∧
    after (exec (.seqTmClock true) (configured testPar [(.tmCtrl, 3)]))
      (fun t => decide (t.tmSeq ≠ start.tmSeq)) = some true ∧
    after (exec (.mixLevel 0 1) start) (fun t => decide (t.mix ≠ start.mix)) = some true ∧
    after (exec .mixCombine (configured testPar [(.baseG, 1)])) (fun t => decide (t.mix ≠ start.mix)) = some true := by
  decide

theorem witness_ReadCommandsHaveNoSideEffect :
    Instr.nop ∈ [Instr.nop, .ringStatus, .ringAcquire, .errRead, .trigStatus, .adcStatus] ∧
    16 * 1 < start.par.B ∧ (3 : Nat) < 4 ∧ cfgRegister 0x332 ≠ none ∧ (8 : Nat) < 9 := by decide

theorem witness_MixBlockUsesThisBlocksLevel :
    ∃ (s : State) (x : Int), x = (s.modRate 1 : Int) + (if s.route = 2 then (5 : Int) else 0)
      + ((65535 : Half).toNat : Int) * (s.cfgValue .xmodDepth).toInt / 16777216 ∧ x = 78 :=
  ⟨configured testPar [(.modRate 1, 10), (.xmodDepth, 16384), (.route, 2)], 78, by decide⟩

/-- A legal state, and a step from it. -/
theorem witness_EveryStepKeepsTheStateLegal : Inv start ∧ step start = .next start := by
  refine ⟨?_, rfl⟩
  constructor <;> first | decide | (intro e he; cases he) | (unfold slotLegal; decide)

end Sys2Proof.Machine
end

section
/-! What a step does with an instant that holds a single word (00_scope.md rule R9, 30_encoding.md rule R110). -/

namespace Sys2Proof.Machine

/-! ### The word on a port -/

theorem runWord_of_decode_ok {port : Port} {w : Word} {i : Instr} (h : decode port w = .ok i) (s : State) :
    runWord port w s = exec i s := by
  simp only [runWord, h]

/-! ### Taking the next instant -/

/-- An instant of one word is that word's event, and leaves nothing of itself. -/
theorem event_ofWord (port : Port) (w : Word) : (Instant.ofWord port w).event = (.word port w, []) := by
  cases port with
  | P => rfl
  | T => rfl

theorem takeEvent_cons {s : State} {i : Instant} {rest : List Instant} (h : s.inbox = i :: rest) :
    takeEvent s = (i.event.1, { s with inbox := i.event.2 ++ rest }) := by
  simp only [takeEvent, h]

/-- A step on an instant of one word runs that word once it is taken from the port. -/
theorem step_of_ofWord {s : State} {port : Port} {w : Word} {rest : List Instant}
    (h : s.inbox = Instant.ofWord port w :: rest) : step s = runWord port w { s with inbox := rest } := by
  have htake : takeEvent s = (.word port w, { s with inbox := rest }) := by
    rw [takeEvent_cons h, event_ofWord, List.nil_append]
  simp only [step, htake]

theorem step_of_decode_ok {s : State} {port : Port} {w : Word} {i : Instr} {rest : List Instant}
    (h : s.inbox = Instant.ofWord port w :: rest) (hdec : decode port w = .ok i) :
    step s = exec i { s with inbox := rest } :=
  (step_of_ofWord h).trans (runWord_of_decode_ok hdec _)

/-- Settles O6: on each port the presented instant is `Instant.ofWord` of that port. -/
theorem stepRunsThePresentedInstruction : Obligations.StepRunsThePresentedInstruction := by
  intro s w i rest
  constructor
  · intro (h : s.inbox = Instant.ofWord .P w :: rest)
    exact step_of_decode_ok h
  · intro (h : s.inbox = Instant.ofWord .T w :: rest)
    exact step_of_decode_ok h

end Sys2Proof.Machine
end

section
/-! The configuration map read backwards, and the value a register stores (10_state.md rules R40 to R44). -/

namespace Sys2Proof.Machine

/-! ### The address of a register that the map names -/

theorem cfgAddress_of_stepRegister {i : Fin 64} {n : Nat} {r : CfgReg} (h : stepRegister i n = some r) :
    cfgAddress r = 0x040 + 4 * i + n := by
  unfold stepRegister at h
  split at h <;> cases h <;> simp only [cfgAddress] <;> omega

theorem cfgAddress_of_modRegister {k : Fin 2} {n : Nat} {r : CfgReg} (h : modRegister k n = some r) :
    cfgAddress r = 0x300 + 0x10 * k + n := by
  unfold modRegister at h
  split at h <;> cases h <;> simp only [cfgAddress] <;> omega

/-- One line of a list of addresses that names a register at its own address. -/
theorem cfgAddress_of_ite {a n : Nat} {q r : CfgReg} {rest : Option CfgReg} (hq : cfgAddress q = n)
    (hrest : rest = some r → cfgAddress r = a) (h : (if a = n then some q else rest) = some r) :
    cfgAddress r = a := by
  split at h
  · next ha => rw [← Option.some.inj h, hq, ha]
  · exact hrest h

theorem cfgAddress_of_singleRegister {a : Nat} {r : CfgReg} :
    singleRegister a = some r → cfgAddress r = a := by
  unfold singleRegister
  iterate 16 refine cfgAddress_of_ite rfl ?_
  nofun

/-- The map names a register nowhere but at its address: the step table, the two modulation slots, and the rest. -/
theorem cfgAddress_of_cfgRegister {a : Nat} {r : CfgReg} (h : cfgRegister a = some r) : cfgAddress r = a := by
  unfold cfgRegister at h
  split_ifs at h with hstep hmod0 hmod1
  · rw [cfgAddress_of_stepRegister h, Fin.val_ofNat]
    omega
  · rw [cfgAddress_of_modRegister h, Fin.val_zero]
    omega
  · rw [cfgAddress_of_modRegister h, Fin.val_one]
    omega
  · exact cfgAddress_of_singleRegister h

/-- Settles O16: each address of the table is its register's own, so `cfgRegister_cfgAddress` reads it. -/
theorem configurationMapIsOneToOne : Obligations.ConfigurationMapIsOneToOne := by
  refine ⟨fun r => ⟨cfgRegister_cfgAddress r, cfgAddress_lt r⟩,
    fun a r h => (cfgAddress_of_cfgRegister h).symm, ?_, fun i => ?_, fun k => ?_⟩
  · exact ⟨rfl, rfl, rfl, rfl, rfl, rfl, rfl, rfl, rfl, rfl, rfl, rfl, rfl, rfl, rfl, rfl⟩
  · exact ⟨cfgRegister_cfgAddress (.stepShape i), cfgRegister_cfgAddress (.stepPitch i),
      cfgRegister_cfgAddress (.stepAux i), cfgRegister_cfgAddress (.stepRepeat i)⟩
  · exact ⟨cfgRegister_cfgAddress (.modCtrl k), cfgRegister_cfgAddress (.modRate k),
      cfgRegister_cfgAddress (.modRatio k), cfgRegister_cfgAddress (.modDepthT k),
      cfgRegister_cfgAddress (.modDepthC k), cfgRegister_cfgAddress (.modDepthV k),
      cfgRegister_cfgAddress (.modDepthG k)⟩

/-! ### Fields under a mask -/

/-- A field of a masked value is the field under the field of the mask. -/
theorem bits_and {w : Nat} (v m : BitVec w) (hi lo : Nat) : bits (v &&& m) hi lo = bits v hi lo &&& bits m hi lo := by
  simp only [bits, BitVec.toNat_and, ← Nat.shiftRight_eq_div_pow, Nat.shiftRight_and_distrib, Nat.and_mod_two_pow]

/-- A field that the mask lets through whole. -/
theorem bits_and_of_ones {w : Nat} (v : BitVec w) {m : BitVec w} {hi lo : Nat}
    (hm : bits m hi lo = 2 ^ (hi + 1 - lo) - 1) : bits (v &&& m) hi lo = bits v hi lo := by
  rw [bits_and, hm, Nat.and_two_pow_sub_one_eq_mod, Nat.mod_eq_of_lt (bits_lt v hi lo)]

theorem and_ffff (v : Half) : v &&& 0xFFFF = v := BitVec.and_allOnes

/-! ### META_CTRL and TM_CTRL by their fields -/

/-- META_CTRL with the given LEN and DIR. -/
def packMeta (len dir : Nat) : Half := BitVec.ofNat 16 (len + dir * 2 ^ 8)

/-- TM_CTRL with the given LEN, WIN and RESEED. -/
def packTm (len win reseed : Nat) : Half := BitVec.ofNat 16 (len + win * 2 ^ 8 + reseed * 2 ^ 12)

/-- DIR as it is stored: 3 stores 0 (rule R42). -/
def legalDir (dir : Nat) : Nat := if dir = 3 then 0 else dir

theorem legalDir_le {dir : Nat} (h : dir < 4) : legalDir dir ≤ 2 := by
  unfold legalDir
  split <;> omega

theorem legalDir_of_le {dir : Nat} (h : dir ≤ 2) : legalDir dir = dir := if_neg (by omega)

theorem bits_packMeta {len dir : Nat} (hlen : len ≤ 64) (hdir : dir ≤ 2) :
    bits (packMeta len dir) 6 0 = len ∧ bits (packMeta len dir) 9 8 = dir := by
  simp only [bits, packMeta, BitVec.toNat_ofNat]
  omega

theorem packMeta_reserved {len dir : Nat} (hlen : len ≤ 64) (hdir : dir ≤ 2) :
    packMeta len dir &&& 0xFC80 = 0 := by
  have key : ∀ l : Fin 65, ∀ d : Fin 3, packMeta l d &&& 0xFC80 = 0 := by decide
  exact key ⟨len, by omega⟩ ⟨dir, by omega⟩

theorem bits_packTm {len win reseed : Nat} (hlen : len ≤ 32) (hwin : win ≤ 4) (hreseed : reseed ≤ 1) :
    bits (packTm len win reseed) 5 0 = len ∧ bits (packTm len win reseed) 10 8 = win ∧
      bits (packTm len win reseed) 12 12 = reseed := by
  simp only [bits, packTm, BitVec.toNat_ofNat]
  omega

theorem packTm_reserved {len win reseed : Nat} (hlen : len ≤ 32) (hwin : win ≤ 4) (hreseed : reseed ≤ 1) :
    packTm len win reseed &&& 0xE8C0 = 0 := by
  have key : ∀ l : Fin 33, ∀ d : Fin 5, ∀ e : Fin 2, packTm l d e &&& 0xE8C0 = 0 := by decide
  exact key ⟨len, by omega⟩ ⟨win, by omega⟩ ⟨reseed, by omega⟩

theorem cfgStored_metaCtrl (v : Half) :
    cfgStored .metaCtrl v = packMeta (min (bits v 6 0) 64) (legalDir (bits v 9 8)) := by
  change packMeta (min (bits (v &&& 0x037F) 6 0) 64) (legalDir (bits (v &&& 0x037F) 9 8)) = _
  rw [bits_and_of_ones v (hi := 6) (by decide), bits_and_of_ones v (hi := 9) (by decide)]

theorem cfgStored_tmCtrl (v : Half) :
    cfgStored .tmCtrl v = packTm (min (bits v 5 0) 32) (min (bits v 10 8) 4) (bits v 12 12) := by
  change packTm (min (bits (v &&& 0x173F) 5 0) 32) (min (bits (v &&& 0x173F) 10 8) 4) (bits (v &&& 0x173F) 12 12) = _
  rw [bits_and_of_ones v (hi := 5) (by decide), bits_and_of_ones v (hi := 10) (by decide),
    bits_and_of_ones v (hi := 12) (by decide)]

/-- The fields of a stored META_CTRL (rule R42), and its reserved bits (rule R41). -/
theorem cfgStored_metaCtrl_fields (v : Half) :
    bits (cfgStored .metaCtrl v) 6 0 = min (bits v 6 0) 64 ∧
      bits (cfgStored .metaCtrl v) 9 8 = legalDir (bits v 9 8) ∧ cfgStored .metaCtrl v &&& 0xFC80 = 0 := by
  have hdir := legalDir_le (bits_lt v 9 8)
  obtain ⟨h₁, h₂⟩ := bits_packMeta (Nat.min_le_right (bits v 6 0) 64) hdir
  rw [cfgStored_metaCtrl]
  exact ⟨h₁, h₂, packMeta_reserved (Nat.min_le_right _ _) hdir⟩

/-- The fields of a stored TM_CTRL (rule R42), and its reserved bits (rule R41). -/
theorem cfgStored_tmCtrl_fields (v : Half) :
    bits (cfgStored .tmCtrl v) 5 0 = min (bits v 5 0) 32 ∧ bits (cfgStored .tmCtrl v) 10 8 = min (bits v 10 8) 4 ∧
      bits (cfgStored .tmCtrl v) 12 12 = bits v 12 12 ∧ cfgStored .tmCtrl v &&& 0xE8C0 = 0 := by
  have hreseed : bits v 12 12 ≤ 1 := Nat.le_of_lt_succ (bits_lt v 12 12)
  obtain ⟨h₁, h₂, h₃⟩ := bits_packTm (Nat.min_le_right (bits v 5 0) 32) (Nat.min_le_right (bits v 10 8) 4) hreseed
  rw [cfgStored_tmCtrl]
  exact ⟨h₁, h₂, h₃, packTm_reserved (Nat.min_le_right _ _) (Nat.min_le_right _ _) hreseed⟩

/-! ### Stored values -/

/-- Storing a stored value gives it back: the limits and the masks are idempotent. -/
theorem cfgStored_cfgStored (r : CfgReg) (v : Half) : cfgStored r (cfgStored r v) = cfgStored r v := by
  cases r with
  | metaCtrl =>
    obtain ⟨hlen, hdir, -⟩ := cfgStored_metaCtrl_fields v
    rw [cfgStored_metaCtrl (cfgStored .metaCtrl v), hlen, hdir, legalDir_of_le (legalDir_le (bits_lt v 9 8)),
      min_assoc, min_self, ← cfgStored_metaCtrl]
  | tmCtrl =>
    obtain ⟨hlen, hwin, hreseed, -⟩ := cfgStored_tmCtrl_fields v
    rw [cfgStored_tmCtrl (cfgStored .tmCtrl v), hlen, hwin, hreseed, min_assoc, min_self, min_assoc, min_self,
      ← cfgStored_tmCtrl]
  | _ => simp only [cfgStored, BitVec.and_assoc, BitVec.and_self]

/-- Every register can store 0. -/
theorem cfgStored_zero (r : CfgReg) : cfgStored r 0 = 0 := by
  cases r with
  | metaCtrl | tmCtrl => decide
  | _ => exact BitVec.zero_and

/-- Settles O15: the two registers with WARL fields by their fields, every other one by its mask. -/
theorem storedValueIsLegal : Obligations.StoredValueIsLegal := by
  refine ⟨fun r v _ => cfgStored_cfgStored r v, cfgStored_metaCtrl_fields, cfgStored_tmCtrl_fields,
    fun v => ⟨rfl, rfl, rfl, rfl, ?_, ?_, rfl, ?_, ?_, ?_⟩, fun i v => ⟨rfl, ?_, ?_, rfl⟩,
    fun k v => ⟨rfl, rfl, rfl, ?_, ?_, ?_, ?_⟩⟩
  all_goals exact and_ffff v

end Sys2Proof.Machine
end

section
/-! What one instruction can do to the state, said once for all of them, and who writes what (10_state.md rules R22 to
R34, R40). -/

namespace Sys2Proof.Machine

/-! ### What the clock commands do to the counters that have a range -/

theorem metaAdvance_idx (s : State) :
    (metaAdvance s).metaSeq.idx = BitVec.ofNat 7 (metaNext s s.drawRandom.1).1 := rfl

theorem metaAdvance_idx_lt (s : State) (h : s.metaLen ≠ 0) : (metaAdvance s).metaSeq.idx.toNat < s.metaLen := by
  rw [metaAdvance_idx, BitVec.toNat_ofNat]
  exact (Nat.mod_le _ _).trans_lt (metaNext_lt s _ h)

/-- A trigger on an active meta-sequencer keeps the step index, or brings it below LEN (rule R219). -/
theorem metaTrigger_idx (s : State) (h : s.metaLen ≠ 0) :
    (metaTrigger s).metaSeq.idx = s.metaSeq.idx ∨ (metaTrigger s).metaSeq.idx.toNat < s.metaLen := by
  unfold metaTrigger
  dsimp only
  split
  · unfold metaRollover
    split
    · exact .inl rfl
    · exact .inr (metaAdvance_idx_lt { s with metaSeq := { s.metaSeq with div := _ } } h)
  · exact .inl rfl

theorem tmAdvance_pos (s : State) :
    (tmAdvance s).tmSeq.pos = BitVec.ofNat 6 (if tmWraps s then 0 else s.tmSeq.pos.toNat + 1) := rfl

theorem tmAdvance_pos_lt (s : State) (h : s.tmLen ≠ 0) : (tmAdvance s).tmSeq.pos.toNat < s.tmLen := by
  rw [tmAdvance_pos, BitVec.toNat_ofNat]
  refine (Nat.mod_le _ _).trans_lt ?_
  split
  · exact Nat.pos_of_ne_zero h
  · next hw => simpa [tmWraps] using hw

/-- A trigger on an active Turing sequencer keeps the position, or brings it below LEN (rule R220). -/
theorem tmTrigger_pos (s : State) (h : s.tmLen ≠ 0) :
    (tmTrigger s).tmSeq.pos = s.tmSeq.pos ∨ (tmTrigger s).tmSeq.pos.toNat < s.tmLen := by
  unfold tmTrigger
  dsimp only
  split
  · exact .inr (tmAdvance_pos_lt { s with tmSeq := { s.tmSeq with div := _ } } h)
  · exact .inl rfl

/-! ### One instruction's effect -/

/-- The registers MIX_RATE stores in a slot (46_mixer.md rule R254). -/
def ratedSlot (s : State) (k : Fin 2) (cv : Half) : MixSlot :=
  { s.slot k with
    rate := BitVec.ofNat 7 (rateOf s k cv)
    atk := BitVec.ofNat 7 (attackOf (rateOf s k cv) (s.modRatio k))
    dec := BitVec.ofNat 7 (decayOf (rateOf s k cv) (s.modRatio k)) }

/-- What an instruction does to the state, case by case: the state it may lead to, the response and the random port
left open. `exec_effect` ties it to the model. -/
inductive Effect (s : State) : Instr → State → Prop
  /-- nothing but `err` and the response: a read, or a command rejected or idle -/
  | report {i : Instr} (e : BitVec 5) (o : List PortOut) : Effect s i { s with err := e, out := o }
  | ringWrite (off : Nat) (x : Half) (n : Nat) (hoff : off < s.par.B) (hfree : s.ring.p ≠ s.ring.c) :
      Effect s (.ringWrite off x) ((s.writeSample s.ring.p.toNat off x).respond n)
  | ringAdvance (e : BitVec 5) (o : List PortOut) : Effect s .ringAdvance { produceAdvance s with err := e, out := o }
  | trigTake (o : List PortOut) :
      Effect s .trigTake { s with trig := { s.trig with fired := false }, out := o }
  | cfgWrite (r : CfgReg) (v : Half) (n : Nat) (hr : cfgReadOnly r = false) :
      Effect s (.cfgWrite (cfgAddress r) v) ((s.cfgWritten r (cfgStored r v)).respond n)
  | metaClock (m : MetaSeq) (e : EnvPorts) (o : List PortOut)
      (hidx : m.idx = s.metaSeq.idx ∨ m.idx.toNat < s.metaLen) :
      Effect s (.seqMetaClock true) { s with metaSeq := m, env := e, out := o }
  | tmClock (m : TmSeq) (e : EnvPorts) (o : List PortOut) (hpos : m.pos = s.tmSeq.pos ∨ m.pos.toNat < s.tmLen) :
      Effect s (.seqTmClock true) { s with tmSeq := m, env := e, out := o }
  | mixRate (k : Fin 2) (cv : Half) (n : Nat) :
      Effect s (.mixRate k cv) ((s.withSlot k (ratedSlot s k cv)).respond n)
  | mixLevel (k : Fin 2) (level : Half) (n : Nat) :
      Effect s (.mixLevel k level) ((s.withSlot k { s.slot k with level := level }).respond n)
  | mixCombine (n : Nat) : Effect s .mixCombine ((mixCombined s).respond n)
  | disabledTick (g : Bool) : Effect s (.tick g) s
  | enabledTick (g : Bool) (hen : s.tickEn = true) : Effect s (.tick g) (effectiveTick g s)

section
variable {s t : State}

theorem effect_of_isQuiet {i : Instr} (hq : Instr.isQuiet i = true) (h : exec i s = .next t) : Effect s i t := by
  obtain ⟨e, r, hexec⟩ := exec_quiet i hq s
  cases hexec.symm.trans h
  exact .report _ _

theorem effect_of_execRingWrite {off : Nat} {x : Half} (h : execRingWrite off x s = .next t) :
    Effect s (.ringWrite off x) t := by
  unfold execRingWrite at h
  split at h
  · cases h; exact .report _ _
  · next hoff =>
    split at h
    · cases h; exact .report _ _
    · next hfree => cases h; exact .ringWrite off x 0 (by omega) (by simpa [ringFree] using hfree)

theorem effect_of_execRingAdvance (h : execRingAdvance s = .next t) : Effect s .ringAdvance t := by
  obtain ⟨e, r, hexec⟩ := execRingAdvance_writes s
  cases hexec.symm.trans h
  exact .ringAdvance _ _

theorem effect_of_execCfgWrite {a : Nat} {v : Half} (h : execCfgWrite a v s = .next t) :
    Effect s (.cfgWrite a v) t := by
  unfold execCfgWrite at h
  split at h
  · cases h; exact .report _ _
  · next r hr =>
    obtain rfl := cfgAddress_of_cfgRegister hr
    split at h
    · cases h; exact .report _ _
    · next hro => cases h; exact .cfgWrite r v _ (by simpa using hro)

theorem effect_of_execSeqMetaClock {b : Bool} (h : execSeqMetaClock b s = .next t) :
    Effect s (.seqMetaClock b) t := by
  unfold execSeqMetaClock at h
  split_ifs at h with hlen hb
  · cases h; exact .report _ _
  · cases h; exact .report _ _
  · obtain rfl : b = true := by simpa using hb
    obtain ⟨m, e, r, hm⟩ := metaTrigger_writes s
    have hidx := metaTrigger_idx s hlen
    rw [hm] at h hidx
    cases h
    exact .metaClock m e _ hidx

theorem effect_of_execSeqTmClock {b : Bool} (h : execSeqTmClock b s = .next t) : Effect s (.seqTmClock b) t := by
  unfold execSeqTmClock at h
  split_ifs at h with hlen hb
  · cases h; exact .report _ _
  · cases h; exact .report _ _
  · obtain rfl : b = true := by simpa using hb
    obtain ⟨m, e, r, hm⟩ := tmTrigger_writes s
    have hpos := tmTrigger_pos s hlen
    rw [hm] at h hpos
    cases h
    exact .tmClock m e _ hpos

theorem effect_of_execMixRate {k : Nat} {cv : Half} (h : execMixRate k cv s = .next t) :
    Effect s (.mixRate k cv) t := by
  unfold execMixRate at h
  split at h
  · next hk => cases h; exact .mixRate ⟨k, hk⟩ cv _
  · cases h; exact .report _ _

theorem effect_of_execMixLevel {k : Nat} {level : Half} (h : execMixLevel k level s = .next t) :
    Effect s (.mixLevel k level) t := by
  unfold execMixLevel at h
  split at h
  · next hk => cases h; exact .mixLevel ⟨k, hk⟩ level 0
  · cases h; exact .report _ _

theorem effect_of_execTick {g : Bool} (h : execTick g s = .next t) : Effect s (.tick g) t := by
  cases hen : s.tickEn with
  | true =>
    cases (execTick_of_tickEn g hen).symm.trans h
    exact .enabledTick g hen
  | false =>
    cases (execTick_of_not_tickEn g hen).symm.trans h
    exact .disabledTick g

/-- Every instruction does one of these things. -/
theorem exec_effect {i : Instr} (h : exec i s = .next t) : Effect s i t := by
  cases i with
  | ringWrite off x => exact effect_of_execRingWrite h
  | ringAdvance => exact effect_of_execRingAdvance h
  | trigTake => cases h; exact .trigTake _
  | cfgWrite a v => exact effect_of_execCfgWrite h
  | seqMetaClock b => exact effect_of_execSeqMetaClock h
  | seqTmClock b => exact effect_of_execSeqTmClock h
  | mixRate k cv => exact effect_of_execMixRate h
  | mixLevel k level => exact effect_of_execMixLevel h
  | mixCombine => cases h; exact .mixCombine _
  | tick g => exact effect_of_execTick h
  | _ => exact effect_of_isQuiet rfl h

/-! ### Who writes what -/

theorem effectiveTick_sample (g : Bool) (s : State) : (effectiveTick g s).ring.sample = s.ring.sample := by
  rw [effectiveTick_ring]; split <;> rfl

/-- No instruction changes the parameters or takes a word from the ports. -/
theorem Effect.keeps_par_inbox {i : Instr} (h : Effect s i t) : t.par = s.par ∧ t.inbox = s.inbox := by
  cases h with
  | enabledTick g hen => exact ⟨effectiveTick_par g s, effectiveTick_inbox g s⟩
  | _ => exact ⟨rfl, rfl⟩

/-- A tick leaves the producer's state alone (rules R22 to R24). -/
theorem Effect.tick_keeps {g : Bool} (h : Effect s (.tick g) t) :
    t.ring.p = s.ring.p ∧ t.ring.sample = s.ring.sample ∧ t.cfg = s.cfg ∧ t.metaSeq = s.metaSeq ∧
      t.tmSeq = s.tmSeq ∧ t.mix = s.mix := by
  cases h with
  | report | disabledTick => exact ⟨rfl, rfl, rfl, rfl, rfl, rfl⟩
  | enabledTick g hen =>
    exact ⟨effectiveTick_p g s, effectiveTick_sample g s, effectiveTick_cfg g s, effectiveTick_metaSeq g s,
      effectiveTick_tmSeq g s, effectiveTick_mix g s⟩

/-- A command leaves the consumer's state alone (rules R22 to R24, R31). -/
theorem Effect.command_keeps {i : Instr} (hi : i.port = .P) (h : Effect s i t) :
    t.ring.c = s.ring.c ∧ t.ring.s = s.ring.s ∧ t.ring.mask = s.ring.mask ∧ t.scan = s.scan ∧
      t.trig.detected = s.trig.detected ∧ t.trig.delay = s.trig.delay := by
  cases h with
  | enabledTick | disabledTick => cases hi
  | _ => exact ⟨rfl, rfl, rfl, rfl, rfl, rfl⟩

end

/-- Settles O54, from what an instruction can do. -/
theorem eachAgentWritesItsOwnState : Obligations.EachAgentWritesItsOwnState :=
  ⟨fun _ _ _ h => (exec_effect h).tick_keeps, fun _ _ _ hi h => (exec_effect h).command_keeps hi,
    fun _ _ _ h => (exec_effect h).keeps_par_inbox⟩

/-- A write in one slot leaves every other slot's samples alone. -/
theorem sampleAt_writeSample_of_ne {s : State} (hw : s.ring.sample.wf = true) {a b off o : Nat} (hab : a ≠ b)
    (ho : o < 1024) (hoff : off < 1024) (x : Half) : (s.writeSample a off x).sampleAt b o = s.sampleAt b o := by
  simp only [State.sampleAt, State.writeSample_ring]
  rw [Memory.read_write hw, if_neg]
  rw [ringIndex_inj ho hoff]
  exact fun h => hab h.1.symm

/-- The samples of the slot being played are no instruction's to write: RING_WRITE goes to slot `p`, and only while
`p` is not `c` (rule R28). -/
theorem Effect.keeps_played_samples {s t : State} {i : Instr} (h : Effect s i t) (hw : s.ring.sample.wf = true)
    {o : Nat} (ho : o < 1024) : t.sampleAt s.ring.c.toNat o = s.sampleAt s.ring.c.toNat o := by
  cases h with
  | ringWrite off x n hoff hfree =>
    have hne : s.ring.p.toNat ≠ s.ring.c.toNat := fun heq => hfree (BitVec.eq_of_toNat_eq heq)
    exact sampleAt_writeSample_of_ne hw hne ho (hoff.trans_le s.par.B_le) x
  | enabledTick g hen => exact effectiveTick_sampleAt g s _ _
  | _ => rfl

section
variable {s t : State} {i : Instr}

theorem Effect.writer_of_p (h : Effect s i t) (hne : t.ring.p ≠ s.ring.p) : i = .ringAdvance := by
  cases h with
  | ringAdvance => rfl
  | enabledTick g hen => exact absurd (effectiveTick_p g s) hne
  | _ => exact absurd rfl hne

theorem Effect.writer_of_sample (h : Effect s i t) (hne : t.ring.sample ≠ s.ring.sample) :
    ∃ off x, i = .ringWrite off x := by
  cases h with
  | ringWrite off x => exact ⟨off, x, rfl⟩
  | enabledTick g hen => exact absurd (effectiveTick_sample g s) hne
  | _ => exact absurd rfl hne

theorem Effect.writer_of_cfg (h : Effect s i t) (hne : t.cfg ≠ s.cfg) : ∃ a v, i = .cfgWrite a v := by
  cases h with
  | cfgWrite r v => exact ⟨cfgAddress r, v, rfl⟩
  | enabledTick g hen => exact absurd (effectiveTick_cfg g s) hne
  | _ => exact absurd rfl hne

theorem Effect.writer_of_metaSeq (h : Effect s i t) (hne : t.metaSeq ≠ s.metaSeq) : i = .seqMetaClock true := by
  cases h with
  | metaClock => rfl
  | enabledTick g hen => exact absurd (effectiveTick_metaSeq g s) hne
  | _ => exact absurd rfl hne

theorem Effect.writer_of_tmSeq (h : Effect s i t) (hne : t.tmSeq ≠ s.tmSeq) : i = .seqTmClock true := by
  cases h with
  | tmClock => rfl
  | enabledTick g hen => exact absurd (effectiveTick_tmSeq g s) hne
  | _ => exact absurd rfl hne

theorem Effect.writer_of_mix (h : Effect s i t) (hne : t.mix ≠ s.mix) :
    (∃ k x, i = .mixRate k x) ∨ (∃ k x, i = .mixLevel k x) ∨ i = .mixCombine := by
  cases h with
  | mixRate k cv => exact Or.inl ⟨k, cv, rfl⟩
  | mixLevel k level => exact Or.inr (Or.inl ⟨k, level, rfl⟩)
  | mixCombine => exact Or.inr (Or.inr rfl)
  | enabledTick g hen => exact absurd (effectiveTick_mix g s) hne
  | _ => exact absurd rfl hne

end

/-- Settles O55: each piece of the producer's state with its own writers. -/
theorem eachCommandWritesItsOwnUnit : Obligations.EachCommandWritesItsOwnUnit := by
  intro i s t h
  have heff := exec_effect h
  exact ⟨heff.writer_of_p, heff.writer_of_sample, fun hw _ ho => heff.keeps_played_samples hw ho,
    heff.writer_of_cfg, heff.writer_of_metaSeq, heff.writer_of_tmSeq, heff.writer_of_mix⟩

end Sys2Proof.Machine
end

section
/-! How the waiting count moves, and when `fired` is set and cleared (10_state.md rules R27, R30). -/

namespace Sys2Proof.Machine

/-! ### The waiting count -/

/-- The next slot with no remainder taken. -/
theorem nextSlot_toNat_of_lt (P : Params) {i : BitVec 8} (h : i.toNat < P.N) :
    (nextSlot P.N i).toNat = if i.toNat + 1 = P.N then 0 else i.toNat + 1 := by
  rw [nextSlot_toNat]
  split
  · next hlast => rw [hlast, Nat.mod_self]
  · exact Nat.mod_eq_of_lt (by omega)

/-- An advance of a free producer leaves one more slot waiting. -/
theorem waiting_of_p_advances {s t : State} (hp : s.ring.p.toNat < s.par.N) (hc : s.ring.c.toNat < s.par.N)
    (hfree : s.ring.p ≠ s.ring.c) (hpar : t.par = s.par) (hc' : t.ring.c = s.ring.c)
    (hp' : t.ring.p = nextSlot s.par.N s.ring.p) : waiting t = waiting s + 1 := by
  have hne : s.ring.p.toNat ≠ s.ring.c.toNat := fun h => hfree (BitVec.eq_of_toNat_eq h)
  have hlt := nextSlot_lt s.par s.ring.p
  rw [waiting_cases s hp hc, waiting_cases t (by rwa [hp', hpar]) (by rwa [hc', hpar]), hp', hc', hpar,
    nextSlot_toNat_of_lt s.par hp]
  split_ifs <;> omega

/-- An advance of the consumer takes a waiting slot, or finds none and has the whole ring before it. -/
theorem waiting_of_c_advances {s t : State} (hp : s.ring.p.toNat < s.par.N) (hc : s.ring.c.toNat < s.par.N)
    (hpar : t.par = s.par) (hp' : t.ring.p = s.ring.p) (hc' : t.ring.c = nextSlot s.par.N s.ring.c) :
    waiting t = if waiting s = 0 then s.par.N - 1 else waiting s - 1 := by
  have hlt := nextSlot_lt s.par s.ring.c
  rw [waiting_cases s hp hc, waiting_cases t (by rwa [hp', hpar]) (by rwa [hc', hpar]), hp', hc', hpar,
    nextSlot_toNat_of_lt s.par hc]
  split_ifs <;> omega

/-- Settles O22: RING_ADVANCE moves `p` to the next slot, a tick at the end of a block moves `c`. -/
theorem waitingCountMoves : Obligations.WaitingCountMoves := by
  refine ⟨waiting_le, fun s t hp hc hfree h => ?_, fun s t g hp hc hen hend h => ?_⟩
  · obtain ⟨e, r, hexec⟩ := execRingAdvance_writes s
    cases hexec.symm.trans h
    exact waiting_of_p_advances hp hc hfree rfl rfl rfl
  · cases (execTick_of_tickEn g hen).symm.trans h
    have hring := effectiveTick_ring g s
    rw [if_pos (show zext s.ring.s + 1 = s.par.B from hend)] at hring
    exact waiting_of_c_advances hp hc (effectiveTick_par g s) (by rw [hring]) (by rw [hring])

/-! ### The trigger -/

theorem trigDetect_fired (g : Bool) (t : Trig) : (trigDetect g t).fired = t.fired := rfl

/-- A count of 1 before the decrement was armed there, or stood at 1 (rule R161). -/
theorem armed_or_one_of_armedCount {e : Nat} {g : Bool} {t : Trig} (h : armedCount e (trigDetect g t) = 1) :
    (t.detected = true ∨ g = true) ∨ t.delay = 1 := by
  unfold armedCount trigDetect at h
  split at h
  · next hdet => exact .inl (by simpa using hdet)
  · exact .inr (BitVec.eq_of_toNat_eq h)

/-- What an effective tick does to `fired`: it is kept, or set by a completed cycle whose count ends (rule R163). -/
theorem effectiveTick_fired (g : Bool) (s : State) :
    (effectiveTick g s).trig.fired =
      (s.trig.fired || (completesCycle s && decide (armedCount s.delayExp (trigDetect g s.trig) = 1))) := by
  rw [effectiveTick_trig]
  cases completesCycle s with
  | true => exact (trigCycleComplete_eq _ (delayExp_lt s) _).2.2
  | false => simp [trigDetect_fired]

theorem effectiveTick_delay_of_completesCycle (g : Bool) {s : State} (h : completesCycle s = true) :
    (effectiveTick g s).trig.delay.toNat = armedCount s.delayExp (trigDetect g s.trig) - 1 := by
  rw [effectiveTick_trig, if_pos h]
  exact (trigCycleComplete_eq _ (delayExp_lt s) _).2.1

/-- A tick that sets `fired` completes a cycle in which the countdown ends. -/
theorem effectiveTick_sets_fired {g : Bool} {s : State} (hbefore : s.trig.fired = false)
    (hafter : (effectiveTick g s).trig.fired = true) :
    completesCycle s = true ∧ armedCount s.delayExp (trigDetect g s.trig) = 1 := by
  rw [effectiveTick_fired, hbefore] at hafter
  simpa using hafter

/-- Settles O27: of all effects only an enabled tick can set `fired`, and only TRIG_TAKE clears it. -/
theorem firedIsSetOnlyAtTheEndOfACountdown : Obligations.FiredIsSetOnlyAtTheEndOfACountdown := by
  intro s t i h
  cases exec_effect h with
  | enabledTick g hen =>
    constructor
    · intro hbefore hafter
      obtain ⟨hcycle, hcount⟩ := effectiveTick_sets_fired hbefore hafter
      have hdelay := effectiveTick_delay_of_completesCycle g hcycle
      rw [hcount] at hdelay
      exact ⟨⟨g, rfl, armed_or_one_of_armedCount hcount⟩, of_decide_eq_true hcycle, hen,
        BitVec.eq_of_toNat_eq hdelay⟩
    · intro hbefore hafter
      rw [effectiveTick_fired, hbefore] at hafter
      cases hafter
  | trigTake => exact ⟨fun _ hafter => absurd hafter Bool.false_ne_true, fun _ _ => rfl⟩
  | _ =>
    exact ⟨fun hbefore hafter => absurd (hbefore.symm.trans hafter) Bool.false_ne_true,
      fun hbefore hafter => absurd (hafter.symm.trans hbefore) Bool.false_ne_true⟩

end Sys2Proof.Machine
end

section
/-! Every step keeps the state legal (10_state.md): each unit's ranges under the effects that write the unit, then the
invariant effect by effect. -/

namespace Sys2Proof.Machine

/-! ### The ring -/

/-- A write inside the ring spaces stays inside them. -/
theorem ringInRange_write {w : Nat} {P : Params} {m : Memory w} (hm : ringInRange P m) {slot off : Nat}
    (hslot : slot < P.N) (hoff : off < P.B) (x : BitVec w) : ringInRange P (m.write (ringIndex slot off) x) := by
  intro e he
  rcases Memory.mem_write he with hold | rfl
  · exact hm e hold
  · have := P.B_le
    unfold ringIndex
    dsimp only
    constructor
    · rwa [Nat.mul_comm, Nat.mul_add_div (by norm_num), Nat.div_eq_of_lt (by omega), Nat.add_zero]
    · rwa [Nat.mul_comm, Nat.mul_add_mod, Nat.mod_eq_of_lt (by omega)]

theorem effectiveTick_c_lt (g : Bool) {s : State} (hc : s.ring.c.toNat < s.par.N) :
    (effectiveTick g s).ring.c.toNat < s.par.N := by
  rw [effectiveTick_ring]
  split
  · exact nextSlot_lt s.par s.ring.c
  · exact hc

theorem effectiveTick_s_lt (g : Bool) {s : State} (hs : s.ring.s.toNat < s.par.B) :
    (effectiveTick g s).ring.s.toNat < s.par.B := by
  rw [effectiveTick_ring]
  split
  · exact s.par.B_ge
  · next hend =>
    have : s.ring.s.toNat + 1 ≠ s.par.B := hend
    exact (BitVec.toNat_ofNat .. ▸ Nat.mod_le _ _).trans_lt (show s.ring.s.toNat + 1 < s.par.B by omega)

/-! ### The trigger -/

theorem armedDelay_le {e : Nat} (he : e < 8) : armedDelay e ≤ 2 ^ eMax + 1 := by
  interval_cases e <;> decide

theorem armedCount_le {e : Nat} (he : e < 8) {t : Trig} (ht : t.delay.toNat ≤ 2 ^ eMax + 1) :
    armedCount e t ≤ 2 ^ eMax + 1 := by
  unfold armedCount
  split
  · exact armedDelay_le he
  · exact ht

theorem effectiveTick_delay_le (g : Bool) {s : State} (hd : s.trig.delay.toNat ≤ 2 ^ eMax + 1) :
    (effectiveTick g s).trig.delay.toNat ≤ 2 ^ eMax + 1 := by
  cases hcycle : completesCycle s with
  | true =>
    rw [effectiveTick_delay_of_completesCycle g hcycle]
    exact (Nat.sub_le _ _).trans (armedCount_le (delayExp_lt s) hd)
  | false =>
    rw [effectiveTick_trig, hcycle]
    exact hd

/-! ### The scan -/

theorem effectiveTick_phase_lt (g : Bool) (s : State) : (effectiveTick g s).scan.phase.toNat < s.par.scanLen := by
  have hphase : (effectiveTick g s).scan.phase = BitVec.ofNat 16 (nextPhase s) := by
    rw [effectiveTick_scan]; split <;> rfl
  rw [hphase, BitVec.toNat_ofNat]
  exact (Nat.mod_le _ _).trans_lt (Nat.mod_lt _ s.par.scanLen_ge)

theorem adcInRange_lt (P : Params) (v : Half) : (adcInRange P v).toNat < 2 ^ P.adcBits := by
  rw [adcInRange, BitVec.toNat_ofNat]
  exact (Nat.mod_le _ _).trans_lt (Nat.mod_lt _ (Nat.two_pow_pos _))

/-- The converter delivers values of ADC_BITS bits. -/
theorem nextAdc_lt (P : Params) (e : EnvPorts) (k : Fin 4) : (nextAdc P e)[k].toNat < 2 ^ P.adcBits := by
  unfold nextAdc
  split <;> simpa using adcInRange_lt P _

theorem effectiveTick_channel_lt (g : Bool) {s : State}
    (hch : ∀ k : Fin 4, s.scan.chValue[k].toNat < 2 ^ s.par.adcBits) (k : Fin 4) :
    (effectiveTick g s).scan.chValue[k].toNat < 2 ^ s.par.adcBits := by
  rw [effectiveTick_scan]
  split
  · exact nextAdc_lt s.par s.env k
  · exact hch k

/-! ### The configuration -/

/-- Every read-write register of a legal configuration reads as a value a write can store. -/
theorem cfgStored_cfgValue {s : State} (hcfg : cfgLegal s.cfg) {r : CfgReg} (hr : cfgReadOnly r = false) :
    cfgStored r (s.cfgValue r) = s.cfgValue r := by
  rw [cfgValue_of_readWrite s r hr]
  rcases Memory.read_eq_zero_or_mem s.cfg (cfgAddress r) with hzero | hmem
  · rw [hzero]
    exact cfgStored_zero r
  · obtain ⟨q, hq, -, hstored⟩ := hcfg _ hmem
    rw [cfgRegister_cfgAddress] at hq
    cases hq
    exact hstored

theorem metaLen_le {s : State} (hcfg : cfgLegal s.cfg) : s.metaLen ≤ sMax := by
  rw [State.metaLen, ← cfgStored_cfgValue hcfg rfl, (cfgStored_metaCtrl_fields _).1]
  exact Nat.min_le_right _ _

theorem tmLen_le {s : State} (hcfg : cfgLegal s.cfg) : s.tmLen ≤ tmMax := by
  rw [State.tmLen, ← cfgStored_cfgValue hcfg rfl, (cfgStored_tmCtrl_fields _).1]
  exact Nat.min_le_right _ _

/-- Storing in a read-write register keeps the configuration legal. -/
theorem cfgLegal_write {m : Memory 16} (hm : cfgLegal m) {r : CfgReg} (hr : cfgReadOnly r = false) (v : Half) :
    cfgLegal (m.write (cfgAddress r) (cfgStored r v)) := by
  intro e he
  rcases Memory.mem_write he with hold | rfl
  · exact hm e hold
  · exact ⟨r, cfgRegister_cfgAddress r, hr, cfgStored_cfgStored r v⟩

/-! ### The mixer -/

/-- The two fractions of a 7-bit rate fit 7 bits and add up to it, but for one lost in rounding (46_mixer.md rule
R252). -/
theorem attackOf_add_decayOf {r q : Nat} (hr : r ≤ 127) (hq : q ≤ 127) :
    attackOf r q ≤ 127 ∧ decayOf r q ≤ 127 ∧
      (attackOf r q + decayOf r q = r ∨ attackOf r q + decayOf r q + 1 = r) := by
  have hsum : 2 * r * (1 + q) + 2 * r * (128 - q) = 258 * r := by
    rw [← Nat.mul_add, show 1 + q + (128 - q) = 129 by omega]
    omega
  have hatk : 2 * r * (1 + q) ≤ 2 * 127 * 128 := Nat.mul_le_mul (by omega) (by omega)
  have hdec : 2 * r * (128 - q) ≤ 2 * 127 * 128 := Nat.mul_le_mul (by omega) (by omega)
  unfold attackOf decayOf
  omega

theorem slotLegal_ratedSlot (s : State) (k : Fin 2) (cv : Half) : slotLegal (ratedSlot s k cv) := by
  have hr := rateOf_le s k cv
  have hq : s.modRatio k ≤ 127 := Nat.le_of_lt_succ (bits_lt _ 6 0)
  obtain ⟨hatk, hdec, hsum⟩ := attackOf_add_decayOf hr hq
  simp only [slotLegal, ratedSlot, BitVec.toNat_ofNat]
  omega

/-- Replacing a slot by a legal one keeps both slots legal. -/
theorem slotLegal_withSlot {s : State} (hs : ∀ k : Fin 2, slotLegal (s.slot k)) {k : Fin 2} {m : MixSlot}
    (hm : slotLegal m) (j : Fin 2) : slotLegal ((s.withSlot k m).slot j) := by
  rw [slot_withSlot]
  split
  · exact hm
  · exact hs j

/-- An output clamped to a 16-bit range stays below its upper end. -/
theorem toHalf_clamp_le (x : Int) {hi : Nat} (h : hi ≤ 65535) : (toHalf (clamp x 0 hi)).toNat ≤ hi := by
  rw [clamp_eq x (Int.natCast_nonneg hi), toHalf, BitVec.toNat_ofInt]
  omega

/-- A slot contributes at most 2^15 either way: signal and depth have 15 bits and a sign (46_mixer.md rule R256). -/
theorem contribution_bounds (s : State) (k : Fin 2) {signal depth : Int} (hsig : |signal| ≤ 2 ^ 15)
    (hdep : |depth| ≤ 2 ^ 15) : -32768 ≤ contribution s k signal depth ∧ contribution s k signal depth ≤ 32768 := by
  have hprod : |signal * depth| ≤ 2 ^ 15 * 2 ^ 15 := by
    rw [abs_mul]
    exact mul_le_mul hsig hdep (abs_nonneg _) (by norm_num)
  obtain ⟨hlo, hhi⟩ := abs_le.mp hprod
  unfold contribution polarity asr depthShift
  split_ifs <;> omega

theorem sext16_abs_le (v : Half) : |sext16 v| ≤ 2 ^ 15 := by
  have hlo := BitVec.le_toInt v
  have hhi := BitVec.toInt_lt (x := v)
  unfold sext16
  exact abs_le.mpr ⟨by simpa using hlo, by simpa using hhi.le⟩

theorem levelOf_sub_abs_le (s : State) (k : Fin 2) : |levelOf s k - 32767| ≤ 2 ^ 15 := by
  have := (s.slot k).level.isLt
  unfold levelOf zext
  exact abs_le.mpr ⟨by omega, by omega⟩

theorem vibratoSum_bounds (s : State) : -65536 ≤ vibratoSum s ∧ vibratoSum s ≤ 65536 := by
  obtain ⟨hlo₀, hhi₀⟩ := contribution_bounds s 0 (levelOf_sub_abs_le s 0) (sext16_abs_le (s.cfgValue (.modDepthV 0)))
  obtain ⟨hlo₁, hhi₁⟩ := contribution_bounds s 1 (levelOf_sub_abs_le s 1) (sext16_abs_le (s.cfgValue (.modDepthV 1)))
  unfold vibratoSum State.depthV
  omega

theorem mixCombined_vib_toInt (s : State) : (mixCombined s).mix.vib.toInt = vibratoSum s := by
  obtain ⟨hlo, hhi⟩ := vibratoSum_bounds s
  exact BitVec.toInt_ofInt_eq_self (by norm_num) (by omega) (by omega)

/-! ### The invariant -/

/-- The state an effective tick leads to, as an update of the fields a tick writes. -/
theorem effectiveTick_eq (g : Bool) (s : State) :
    effectiveTick g s =
      { s with
        ring :=
          { s.ring with
            c := (effectiveTick g s).ring.c
            s := (effectiveTick g s).ring.s
            mask := (effectiveTick g s).ring.mask }
        trig := (effectiveTick g s).trig
        scan := (effectiveTick g s).scan
        err := (effectiveTick g s).err
        env := (effectiveTick g s).env
        out := (effectiveTick g s).out } := by
  dsimp only
  rw [← effectiveTick_p g s, ← effectiveTick_sample g s, ← effectiveTick_metaSeq g s, ← effectiveTick_tmSeq g s,
    ← effectiveTick_mix g s, ← effectiveTick_cfg g s, ← effectiveTick_par g s, ← effectiveTick_inbox g s]

theorem inv_effectiveTick (g : Bool) {s : State} (hs : Inv s) : Inv (effectiveTick g s) := by
  have hmask := effectiveTick_mask g s
  rw [effectiveTick_eq]
  exact
    { hs with
      c_lt := effectiveTick_c_lt g hs.c_lt
      s_lt := effectiveTick_s_lt g hs.s_lt
      mask_wf := hmask ▸ Memory.write_wf hs.mask_wf _ _
      mask_range := hmask ▸ ringInRange_write hs.mask_range hs.c_lt hs.s_lt _
      delay_le := effectiveTick_delay_le g hs.delay_le
      phase_lt := effectiveTick_phase_lt g s
      channel_lt := effectiveTick_channel_lt g hs.channel_lt }

/-- No instruction leaves the legal states: each effect keeps the ranges of the unit it writes. -/
theorem Effect.inv {s t : State} {i : Instr} (h : Effect s i t) (hs : Inv s) : Inv t := by
  cases h with
  | report e o => exact { hs with p_lt := hs.p_lt }
  | ringWrite off x n hoff hfree =>
    exact
      { hs with
        sample_wf := Memory.write_wf hs.sample_wf _ _
        sample_range := ringInRange_write hs.sample_range hs.p_lt hoff x }
  | ringAdvance e o => exact { hs with p_lt := nextSlot_lt s.par s.ring.p }
  | trigTake o => exact { hs with delay_le := hs.delay_le }
  | cfgWrite r v n hr =>
    exact
      { hs with
        cfg_wf := Memory.write_wf hs.cfg_wf _ _
        cfg_legal := cfgLegal_write hs.cfg_legal hr v }
  | metaClock m e o hidx =>
    have hlt : m.idx.toNat < sMax := hidx.elim (· ▸ hs.idx_lt) (·.trans_le (metaLen_le hs.cfg_legal))
    exact { hs with idx_lt := hlt }
  | tmClock m e o hpos =>
    have hlt : m.pos.toNat < tmMax := hpos.elim (· ▸ hs.pos_lt) (·.trans_le (tmLen_le hs.cfg_legal))
    exact { hs with pos_lt := hlt }
  | mixRate k cv n =>
    exact { hs with slot_legal := slotLegal_withSlot hs.slot_legal (slotLegal_ratedSlot s k cv) }
  | mixLevel k level n =>
    exact { hs with slot_legal := slotLegal_withSlot hs.slot_legal (hs.slot_legal k) }
  | mixCombine n =>
    obtain ⟨hlo, hhi⟩ := vibratoSum_bounds s
    rw [← mixCombined_vib_toInt] at hlo hhi
    exact
      { hs with
        timbre_le := toHalf_clamp_le _ s.par.paramMax_le
        color_le := toHalf_clamp_le _ s.par.paramMax_le
        vib_ge := hlo
        vib_le := hhi }
  | disabledTick g => exact hs
  | enabledTick g hen => exact inv_effectiveTick g hs

theorem inv_rejectWord {s : State} (hs : Inv s) (port : Port) : Inv (s.rejectWord port) := by
  cases port with
  | P | T => exact { hs with p_lt := hs.p_lt }

theorem inv_runWord {s t : State} {port : Port} {w : Word} (hs : Inv s) (h : runWord port w s = .next t) : Inv t := by
  unfold runWord at h
  split at h
  · exact (exec_effect h).inv hs
  · cases h
    exact inv_rejectWord hs port

/-- The reset state of a machine with any parameters is legal (70_reset_and_hazards.md rule R310). -/
theorem inv_resetWith (P : Params) : Inv (State.resetWith P) where
  p_lt := by have := P.N_ge; show 0 < P.N; omega
  c_lt := by
    have := P.N_ge
    exact (BitVec.toNat_ofNat .. ▸ Nat.mod_le _ _).trans_lt (show P.N / 2 < P.N by omega)
  s_lt := P.B_ge
  sample_wf := rfl
  sample_range := fun _ he => nomatch he
  mask_wf := rfl
  mask_range := fun _ he => nomatch he
  delay_le := Nat.zero_le _
  phase_lt := P.scanLen_ge
  channel_lt := fun k => by
    have : (State.resetWith P).scan.chValue[k] = 0 := by simp [State.resetWith]
    rw [this]
    exact Nat.two_pow_pos _
  idx_lt := show 0 < sMax by decide
  pos_lt := show 0 < tmMax by decide
  slot_legal := fun k => .inl (by simp [State.slot, State.resetWith])
  timbre_le := Nat.zero_le _
  color_le := Nat.zero_le _
  vib_ge := show -65536 ≤ (0 : BitVec 32).toInt by decide
  vib_le := show (0 : BitVec 32).toInt ≤ 65536 by decide
  cfg_wf := rfl
  cfg_legal := fun _ he => nomatch he

/-- Reset leaves what stands on the ports, of which the invariant says nothing. -/
theorem inv_applyReset (s : State) : Inv (applyReset s) :=
  { inv_resetWith s.par with p_lt := (inv_resetWith s.par).p_lt }

theorem inv_takeEvent {s : State} (hs : Inv s) : Inv (takeEvent s).2 := by
  unfold takeEvent
  split
  · exact hs
  · exact { hs with p_lt := hs.p_lt }

/-- Settles O59: whatever the step is about, by the effects of the instructions. -/
theorem everyStepKeepsTheStateLegal : Obligations.EveryStepKeepsTheStateLegal := by
  intro s t hs h
  have htaken := inv_takeEvent hs
  unfold step at h
  split at h
  · next u hu => cases h; rwa [hu] at htaken
  · next u hu => cases h; exact inv_applyReset u
  · next port w u hu =>
    rw [hu] at htaken
    exact inv_runWord htaken h

end Sys2Proof.Machine
end

section
/-! The commands free of side effects (20_memory.md rule R75): each answers a number that does not depend on what the
ports carried before, and does nothing else. -/

namespace Sys2Proof.Machine

/-! ### The reads with an operand, their operand in range -/

theorem execRingReadmask_of_lt {g : Nat} {s : State} (h : 16 * g < s.par.B) :
    execRingReadmask g s = .next (s.respond (maskBits s (zext s.ring.p) g 16)) := by
  rw [execRingReadmask, if_neg (Nat.not_le.mpr h)]

theorem execAdcRead_of_lt {c : Nat} (h : c < 4) (s : State) :
    execAdcRead c s = .next (s.respond (zext s.scan.chValue[c])) := by
  rw [execAdcRead, dif_pos h]

theorem execCfgRead_of_mapped {a : Nat} {r : CfgReg} (h : cfgRegister a = some r) (s : State) :
    execCfgRead a s = .next (s.respond (zext (s.cfgValue r))) := by
  simp only [execCfgRead, h]

/-- The mask bits are read from the ring and the block length alone. -/
theorem maskBits_congr {s t : State} (hring : t.ring = s.ring) (hpar : t.par = s.par) (slot g n : Nat) :
    maskBits t slot g n = maskBits s slot g n := by
  induction n with
  | zero => rfl
  | succ n ih => simp only [maskBits, State.maskAt, ih, hring, hpar]

/-! ### Commands that only answer -/

/-- The instruction answers one number, whatever the output ports have carried, and changes nothing else. -/
def OnlyAnswers (i : Instr) (s : State) : Prop :=
  ∃ n : Nat, ∀ o : List PortOut, exec i { s with out := o } = .next (State.respond { s with out := o } n)

/-- Such a command, issued again, gives the same answer: its first response reaches the output ports only. -/
theorem OnlyAnswers.repeats {i : Instr} {s : State} (h : OnlyAnswers i s) :
    ∃ r : Word, exec i s = .next { s with out := s.out ++ [.resp r] } ∧
      exec i { s with out := s.out ++ [.resp r] } = .next { s with out := s.out ++ [.resp r] ++ [.resp r] } := by
  obtain ⟨n, hn⟩ := h
  exact ⟨BitVec.ofNat 32 n, hn s.out, hn (s.out ++ [.resp (BitVec.ofNat 32 n)])⟩

section
variable {s : State}

/-- A command that in every state of the machine answers a number, one in which the output ports have no part. -/
theorem onlyAnswers_of_responds {i : Instr} {f : State → Nat}
    (hexec : ∀ t : State, t.par = s.par → exec i t = .next (t.respond (f t)))
    (hf : ∀ o : List PortOut, f { s with out := o } = f s) : OnlyAnswers i s :=
  ⟨f s, fun o => by rw [hexec { s with out := o } rfl, hf]⟩

/-- The six reads with no operand. -/
theorem onlyAnswers_of_mem {i : Instr}
    (h : i ∈ [.nop, .ringStatus, .ringAcquire, .errRead, .trigStatus, .adcStatus]) : OnlyAnswers i s := by
  simp only [List.mem_cons, List.not_mem_nil, or_false] at h
  rcases h with rfl | rfl | rfl | rfl | rfl | rfl
  all_goals exact onlyAnswers_of_responds (fun _ _ => rfl) (fun _ => rfl)

theorem onlyAnswers_ringReadmask {g : Nat} (h : 16 * g < s.par.B) : OnlyAnswers (.ringReadmask g) s :=
  onlyAnswers_of_responds (fun _ hpar => execRingReadmask_of_lt (hpar ▸ h))
    (fun _ => maskBits_congr rfl rfl _ g 16)

theorem onlyAnswers_adcRead {c : Nat} (h : c < 4) : OnlyAnswers (.adcRead c) s :=
  onlyAnswers_of_responds (fun t _ => execAdcRead_of_lt h t) (fun _ => rfl)

theorem onlyAnswers_cfgRead {a : Nat} (h : cfgRegister a ≠ none) : OnlyAnswers (.cfgRead a) s := by
  obtain ⟨r, hr⟩ := Option.ne_none_iff_exists'.mp h
  exact onlyAnswers_of_responds (fun t _ => execCfgRead_of_mapped hr t)
    (fun _ => congrArg zext (cfgValue_congr rfl rfl r))

theorem onlyAnswers_seqMetaRead {q : Nat} (h : q < 4) : OnlyAnswers (.seqMetaRead q) s := by
  interval_cases q <;> exact onlyAnswers_of_responds (fun _ _ => rfl) (fun _ => rfl)

theorem onlyAnswers_seqTmRead {q : Nat} (h : q < 4) : OnlyAnswers (.seqTmRead q) s := by
  interval_cases q <;> exact onlyAnswers_of_responds (fun _ _ => rfl) (fun _ => rfl)

theorem onlyAnswers_mixRead {q : Nat} (h : q < 9) : OnlyAnswers (.mixRead q) s := by
  interval_cases q <;> exact onlyAnswers_of_responds (fun _ _ => rfl) (fun _ => rfl)

end

/-- Settles O56: each command of the list only answers, so the second answer is the first one. -/
theorem readCommandsHaveNoSideEffect : Obligations.ReadCommandsHaveNoSideEffect := by
  intro i s h
  apply OnlyAnswers.repeats
  rcases h with h | ⟨g, rfl, hg⟩ | ⟨c, rfl, hc⟩ | ⟨a, rfl, ha⟩ | ⟨q, rfl, hq⟩ | ⟨q, rfl, hq⟩ | ⟨q, rfl, hq⟩
  · exact onlyAnswers_of_mem h
  · exact onlyAnswers_ringReadmask hg
  · exact onlyAnswers_adcRead hc
  · exact onlyAnswers_cfgRead ha
  · exact onlyAnswers_seqMetaRead hq
  · exact onlyAnswers_seqTmRead hq
  · exact onlyAnswers_mixRead hq

end Sys2Proof.Machine
end

section
/-! What a word decodes to, in both directions, and that decoder and encoder agree (30_encoding.md rules R100 to R106,
R110). -/

namespace Sys2Proof

/-! ### The operands an instruction reads from a word -/

/-- The instruction's operands are those its command reads from the word: field A, and of field D all 16 bits, bits
4..0 or bit 0 (rules R101, R103, R106). -/
def Instr.ReadsFrom (w : Word) : Instr → Prop
  | .ringWrite a d | .cfgWrite a d | .mixRate a d | .mixLevel a d => a = aField w ∧ d = w.extractLsb' 0 16
  | .ringReadmask a | .adcRead a | .cfgRead a | .seqMetaRead a | .seqTmRead a | .mixRead a => a = aField w
  | .errClear mask => mask = w.extractLsb' 0 5
  | .seqMetaClock t | .seqTmClock t | .tick t => t = w.getLsbD 0
  | .nop | .ringStatus | .ringAcquire | .ringAdvance | .errRead | .trigTake | .trigStatus | .adcStatus
  | .mixCombine => True

/-- Field A has 11 bits, so an operand read from it fits it. -/
theorem Instr.ReadsFrom.wellFormed {w : Word} {i : Instr} (h : i.ReadsFrom w) : i.wellFormed = true := by
  cases i with
  | ringWrite a d | cfgWrite a d | mixRate a d | mixLevel a d =>
    obtain ⟨rfl, -⟩ := h
    exact decide_eq_true (aField_lt w)
  | ringReadmask a | adcRead a | cfgRead a | seqMetaRead a | seqTmRead a | mixRead a =>
    cases h
    exact decide_eq_true (aField_lt w)
  | _ => rfl

/-- An encoded word holds its instruction's operands. -/
theorem Instr.readsFrom_encode {i : Instr} (h : i.wellFormed = true) : i.ReadsFrom (encode i) := by
  obtain ⟨-, ha, -⟩ := encode_fields i h
  cases i with
  | ringWrite a d | cfgWrite a d | mixRate a d | mixLevel a d =>
    have hd := dField_encode _ h d rfl
    exact And.intro ha.symm (hd.symm.trans (dField_eq _))
  | ringReadmask a | adcRead a | cfgRead a | seqMetaRead a | seqTmRead a | mixRead a => exact ha.symm
  | errClear mask => exact (maskField_encode_errClear mask).symm.trans (maskField_eq _)
  | seqMetaClock t => exact (bitZero_encode_seqMetaClock t).symm.trans (bitZero_eq _)
  | seqTmClock t => exact (bitZero_encode_seqTmClock t).symm.trans (bitZero_eq _)
  | tick g => exact (bitZero_encode_tick g).symm.trans (bitZero_eq _)
  | _ => trivial

/-! ### Words that decode -/

/-- What a decoded instruction has of its word. -/
theorem of_decode_ok {port : Port} {w : Word} {i : Instr} (h : decode port w = .ok i) :
    i.port = port ∧ i.opcode = opField w ∧ i.ReadsFrom w := by
  cases port with
  | P =>
    simp only [decode, decodeP, dField_eq, maskField_eq, bitZero_eq] at h
    split at h <;> cases h
    all_goals
      refine ⟨rfl, Eq.symm ‹opField w = _›, ?_⟩
      simp only [Instr.ReadsFrom, and_self]
  | T =>
    simp only [decode, decodeT, bitZero_eq] at h
    split_ifs at h with hop
    cases h
    exact ⟨rfl, hop.symm, rfl⟩

/-- Port, opcode and the operands read leave the decoder no choice (rules R104, R110). -/
theorem decode_of_readsFrom {w : Word} {i : Instr} (hread : i.ReadsFrom w) (hop : i.opcode = opField w) :
    decode i.port w = .ok i := by
  cases i with
  | ringWrite a d | cfgWrite a d | mixRate a d | mixLevel a d =>
    obtain ⟨rfl, rfl⟩ := hread
    simp only [Instr.port, decode, decodeP, ← hop, Instr.opcode, dField_eq]
  | tick g =>
    cases hread
    simp only [Instr.port, decode, decodeT, ← hop, Instr.opcode, bitZero_eq, if_true]
  | _ =>
    cases hread
    simp only [Instr.port, decode, decodeP, ← hop, Instr.opcode, maskField_eq, bitZero_eq]

/-- Settles O1: an encoded word has its instruction's opcode and operands, which determine what it decodes to. -/
theorem decodeInvertsEncode : Obligations.DecodeInvertsEncode := by
  intro i h
  obtain ⟨hop, -, -⟩ := encode_fields i h
  exact decode_of_readsFrom (Instr.readsFrom_encode h) hop.symm

/-- Settles O2: the operands are read from the word's fields, so they fit them, and O1 gives the last clause. -/
theorem decodedInstructionIsEncodable : Obligations.DecodedInstructionIsEncodable := by
  intro port w i h
  obtain ⟨rfl, hop, hread⟩ := of_decode_ok h
  exact ⟨hread.wellFormed, rfl, hop, hread, decodeInvertsEncode i hread.wellFormed⟩

/-- Settles O3: each word is a closed term, on which the decoder computes. -/
theorem wordsOfTheSpecDecode : Obligations.WordsOfTheSpecDecode := by
  unfold Obligations.WordsOfTheSpecDecode
  decide

/-! ### Words that do not decode -/

/-- The opcodes that name nothing on the P-port (rule R105), TICK's among them. -/
def reservedOpcodes : List Nat := [0x0E, 0x0F, 0x14, 0x15, 0x16, 0x17, 0x1C, 0x1D, 0x1E, 0x1F]

theorem opcode_notMem_reservedOpcodes {i : Instr} (h : i.port = .P) : i.opcode ∉ reservedOpcodes := by
  cases i with
  | tick g => cases h
  | _ => simp [reservedOpcodes, Instr.opcode]

/-- On the P-port the reserved opcodes, and no others, are refused. -/
theorem decode_P_error_iff {w : Word} : (∃ e, decode .P w = .error e) ↔ opField w ∈ reservedOpcodes := by
  constructor
  · rintro ⟨e, h⟩
    have hlt := opField_lt w
    simp only [decode, decodeP] at h
    split at h <;> cases h
    simp only [imp_false, reservedOpcodes, List.mem_cons, List.not_mem_nil, or_false] at *
    omega
  · intro hmem
    cases h : decode .P w with
    | error e => exact ⟨e, rfl⟩
    | ok i =>
      obtain ⟨hport, hop, -⟩ := of_decode_ok h
      exact absurd (hop ▸ hmem) (opcode_notMem_reservedOpcodes hport)

theorem decode_T_of_ne {w : Word} (h : opField w ≠ 0x1F) : decode .T w = .error (.notATick (opField w)) :=
  if_neg h

end Sys2Proof

namespace Sys2Proof.Machine

/-! ### Steps on words that do not decode -/

theorem step_of_decode_error {s : State} {port : Port} {w : Word} {e : DecodeError} {rest : List Instant}
    (h : s.inbox = Instant.ofWord port w :: rest) (hdec : decode port w = .error e) :
    step s = .next (State.rejectWord { s with inbox := rest } port) := by
  rw [step_of_ofWord h]
  simp only [runWord, hdec]

/-- Settles O4: a reserved opcode is refused, which is `State.reject`; a word that is not refused decodes. -/
theorem reservedOpcodeRaisesIll : Obligations.ReservedOpcodeRaisesIll := by
  constructor
  · intro s w rest (hin : s.inbox = Instant.ofWord .P w :: rest) hmem
    obtain ⟨e, he⟩ := decode_P_error_iff.mpr hmem
    rw [step_of_decode_error hin he]
    exact congrArg _ (reject_eq _ .ill)
  · intro w hnot
    cases h : decode .P w with
    | ok i => exact ⟨i, rfl⟩
    | error e => exact absurd (decode_P_error_iff.mp ⟨e, h⟩) hnot

/-- Settles O5: TICK is the one instruction of the T-port, and a refused word there only raises ILL. -/
theorem tPortAcceptsOnlyTick : Obligations.TPortAcceptsOnlyTick := by
  constructor
  · intro w hop
    have hread : (Instr.tick (w.getLsbD 0)).ReadsFrom w := rfl
    exact decode_of_readsFrom hread hop.symm
  · intro s w rest (hin : s.inbox = Instant.ofWord .T w :: rest) hne
    exact step_of_decode_error hin (decode_T_of_ne hne)

end Sys2Proof.Machine
end

section
/-! The system, configuration and error commands (40_system.md rules R120 to R124). Decoding is `decode_of_readsFrom`;
below, what each command does to the state, branch by branch. -/

namespace Sys2Proof.Machine

/-! ### Responses -/

/-- Answering a register writes its zero extension to the response port, and nothing else. -/
theorem respond_zext {w : Nat} (s : State) (v : BitVec w) :
    s.respond (zext v) = { s with out := s.out ++ [.resp (v.zeroExtend 32)] } := by
  rw [← response_of_toNat]
  rfl

/-! ### The error register -/

theorem getLsbD_errCleared (e mask : BitVec 5) {j : Nat} (hj : j < 5) :
    (errCleared e mask).getLsbD j = (e.getLsbD j && !mask.getLsbD j) := by
  rw [errCleared, BitVec.getLsbD_and, BitVec.getLsbD_not, decide_eq_true hj, Bool.true_and]

theorem execErrClear_eq (mask : BitVec 5) (s : State) :
    execErrClear mask s =
      .next { s with
        err := errCleared s.err mask
        out := s.out ++ [.resp ((errCleared s.err mask).zeroExtend 32)] } :=
  congrArg _ (respond_zext { s with err := errCleared s.err mask } _)

/-! ### The configuration commands, case by case -/

theorem execCfgRead_of_unmapped {a : Nat} (h : cfgRegister a = none) (s : State) :
    execCfgRead a s = .next (s.reject .rng) := by
  simp only [execCfgRead, h]

section
variable {a : Nat} {r : CfgReg} (v : Half) (s : State)

theorem execCfgWrite_of_unmapped (h : cfgRegister a = none) : execCfgWrite a v s = .next (s.reject .rng) := by
  simp only [execCfgWrite, h]

theorem execCfgWrite_of_readOnly (h : cfgRegister a = some r) (hr : cfgReadOnly r = true) :
    execCfgWrite a v s = .next (s.reject .row) := by
  simp only [execCfgWrite, h, hr, if_true]

theorem execCfgWrite_of_readWrite (h : cfgRegister a = some r) (hr : cfgReadOnly r = false) :
    execCfgWrite a v s = .next ((s.cfgWritten r (cfgStored r v)).respond (zext (cfgStored r v))) := by
  simp only [execCfgWrite, h, hr, Bool.false_eq_true, if_false]

end

/-- The RO registers hold the machine's parameters, whose ranges fit 16 bits (00_scope.md rule R11). -/
theorem cfgValue_parameters (s : State) :
    (s.cfgValue .cfgN).toNat = s.par.N ∧ (s.cfgValue .cfgB).toNat = s.par.B ∧
      (s.cfgValue .cfgScan).toNat = s.par.scanLen := by
  have hN := s.par.N_le
  have hB := s.par.B_le
  have hscan := s.par.scanLen_le
  simp only [State.cfgValue, BitVec.toNat_ofNat]
  omega

/-! ### The obligations -/

/-- Settles O13: a mapped address answers its register, an unmapped one is rejected, and the RO constants are the
parameters. -/
theorem cfgReadAnswersTheRegister : Obligations.CfgReadAnswersTheRegister := by
  refine ⟨fun w hop => ?_, fun a r s h => ?_, fun a s h => ?_, fun s => ⟨rfl, cfgValue_parameters s⟩⟩
  · have hread : (Instr.cfgRead (aField w)).ReadsFrom w := rfl
    exact decode_of_readsFrom hread hop.symm
  · exact (execCfgRead_of_mapped h s).trans (congrArg _ (respond_zext s _))
  · exact (execCfgRead_of_unmapped h s).trans (congrArg _ (reject_eq s .rng))

/-- Settles O14: the two rejections, and for an RW register the state after the write, whose registers
`cfgValue_cfgWritten` reads. -/
theorem cfgWriteStoresTheLegalValue : Obligations.CfgWriteStoresTheLegalValue := by
  refine ⟨fun w hop => ?_, fun a v s h => ?_, fun a r v s h hr => ?_, fun a r v s hw h hr => ?_⟩
  · have hread : (Instr.cfgWrite (aField w) (w.extractLsb' 0 16)).ReadsFrom w := ⟨rfl, rfl⟩
    exact decode_of_readsFrom hread hop.symm
  · exact (execCfgWrite_of_unmapped v s h).trans (congrArg _ (reject_eq s .rng))
  · exact (execCfgWrite_of_readOnly v s h hr).trans (congrArg _ (reject_eq s .row))
  · refine ⟨_, execCfgWrite_of_readWrite v s h hr, ?_, fun q hq => ?_, respond_zext _ _⟩
    · exact (cfgValue_cfgWritten s hw r r _ hr).trans (if_pos rfl)
    · exact (cfgValue_cfgWritten s hw r q _ hr).trans (if_neg hq)

/-- Settles O11: neither command reads an operand, so the opcode alone decides; each is one answer. -/
theorem nopAndErrRead : Obligations.NopAndErrRead := by
  refine ⟨fun w hop => ?_, fun w hop => ?_, fun s => ⟨rfl, congrArg _ (respond_zext s s.err)⟩⟩
  · exact decode_of_readsFrom (i := .nop) trivial hop.symm
  · exact decode_of_readsFrom (i := .errRead) trivial hop.symm

/-- Settles O12: the mask is the word's low five bits, and the new `err` is the old one without them. -/
theorem errClearClearsTheChosenBits : Obligations.ErrClearClearsTheChosenBits := by
  refine ⟨fun w hop => ?_, fun mask s => ⟨_, execErrClear_eq mask s, fun j hj => ?_, rfl⟩⟩
  · have hread : (Instr.errClear (w.extractLsb' 0 5)).ReadsFrom w := rfl
    exact decode_of_readsFrom hread hop.symm
  · exact getLsbD_errCleared s.err mask hj

end Sys2Proof.Machine
end

section
/-! The ring's commands (41_ring.md rules R140 to R146). Decoding is `decode_of_readsFrom`; below, the fields of a
packed response, then what each command does to the state, branch by branch. -/

namespace Sys2Proof.Machine

/-! ### Fields of a response -/

/-- A field of a response is the field of the number it stands for. -/
theorem extractLsb'_response {lo len n : Nat} {v : BitVec len} (h : lo + len ≤ 32)
    (hv : n / 2 ^ lo % 2 ^ len = v.toNat) : (BitVec.ofNat 32 n).extractLsb' lo len = v := by
  apply BitVec.eq_of_getLsbD_eq
  intro i hi
  rw [BitVec.getLsbD_extractLsb', BitVec.getLsbD_ofNat, decide_eq_true hi, decide_eq_true (by omega : lo + i < 32),
    Bool.true_and, Bool.true_and, ← BitVec.testBit_toNat, ← hv, Nat.testBit_mod_two_pow, decide_eq_true hi,
    Bool.true_and, Nat.testBit_div_two_pow, Nat.add_comm]

/-- A reserved field of a response. -/
theorem extractLsb'_response_eq_zero {lo len n : Nat} (h : lo + len ≤ 32) (hv : n / 2 ^ lo % 2 ^ len = 0) :
    (BitVec.ofNat 32 n).extractLsb' lo len = 0 :=
  extractLsb'_response h (by simpa using hv)

theorem flagBit_le (b : Bool) : flagBit b ≤ 1 := Bool.toNat_le b

theorem flagBit_eq_one (b : Bool) : decide (flagBit b = 1) = b := by cases b <;> rfl

theorem testBit_flagBit (b : Bool) : (flagBit b).testBit 0 = b := by cases b <;> rfl

/-- A bit of a response is the flag put there. -/
theorem getLsbD_response {i n : Nat} {b : Bool} (h : i < 32) (hb : n / 2 ^ i % 2 = flagBit b) :
    (BitVec.ofNat 32 n).getLsbD i = b := by
  rw [BitVec.getLsbD_ofNat, decide_eq_true h, Bool.true_and, Nat.testBit_eq_decide_div_mod_eq, hb, flagBit_eq_one]

/-- Answering a register beside a flag (rule R146). -/
theorem respond_add_zext (s : State) (n : Nat) {w : Nat} (v : BitVec w) :
    s.respond (n + zext v) = { s with out := s.out ++ [.resp (BitVec.ofNat 32 n + v.zeroExtend 32)] } := by
  rw [← response_of_toNat, ← BitVec.ofNat_add]
  rfl

/-! ### The FREE predicate -/

section
variable {s : State}

theorem ringFree_of_ne (h : s.ring.p ≠ s.ring.c) : ringFree s = true := decide_eq_true h

theorem ringFree_of_eq (h : s.ring.p = s.ring.c) : ringFree s = false := decide_eq_false (not_not_intro h)

/-- An effective tick that brings the consumer onto the producer's slot is an underrun (rule R147). -/
theorem effectiveTick_err_of_meets {g : Bool} (hfree : s.ring.p ≠ s.ring.c)
    (hmeet : (effectiveTick g s).ring.p = (effectiveTick g s).ring.c) :
    (effectiveTick g s).err = errSet s.err .udr := by
  rw [effectiveTick_p, effectiveTick_ring] at hmeet
  split at hmeet
  · next hend => rw [effectiveTick_err, if_pos ⟨hend, hmeet.symm⟩]
  · exact absurd hmeet hfree

/-- A free slot is lost by the producer's advance or by an underrun, and by nothing else (rule R142). -/
theorem Effect.loses_free {t : State} {i : Instr} (h : Effect s i t) (hfree : s.ring.p ≠ s.ring.c)
    (hmeet : t.ring.p = t.ring.c) : i = .ringAdvance ∨ ((∃ g, i = .tick g) ∧ t.err = errSet s.err .udr) := by
  cases h with
  | ringAdvance => exact .inl rfl
  | enabledTick g hen => exact .inr ⟨⟨g, rfl⟩, effectiveTick_err_of_meets hfree hmeet⟩
  | _ => exact absurd hmeet hfree

end

/-! ### The commands, case by case -/

section
variable {s : State} {off : Nat} (x : Half)

theorem execRingWrite_of_le (h : s.par.B ≤ off) : execRingWrite off x s = .next (s.reject .rng) := by
  rw [execRingWrite, if_pos h]

theorem execRingWrite_of_full (h : off < s.par.B) (hfull : s.ring.p = s.ring.c) :
    execRingWrite off x s = .next (s.reject .ovr) := by
  rw [execRingWrite, if_neg (Nat.not_le.mpr h), if_pos (ringFree_of_eq hfull)]

theorem execRingWrite_of_free (h : off < s.par.B) (hfree : s.ring.p ≠ s.ring.c) :
    execRingWrite off x s = .next ((s.writeSample s.ring.p.toNat off x).respond 0) := by
  rw [execRingWrite, if_neg (Nat.not_le.mpr h), ringFree_of_ne hfree, if_neg Bool.noConfusion]
  rfl

theorem execRingReadmask_of_le {g : Nat} (h : s.par.B ≤ 16 * g) :
    execRingReadmask g s = .next (s.reject .rng) := by
  rw [execRingReadmask, if_pos h]

theorem execRingAdvance_of_free (hfree : s.ring.p ≠ s.ring.c) :
    execRingAdvance s =
      .next ((produceAdvance s).respond (2 ^ 26 + zext (nextSlot s.par.N s.ring.p))) := by
  simp only [execRingAdvance, ringFree_of_ne hfree, if_true, produceAdvance_ring]

theorem execRingAdvance_of_full (hfull : s.ring.p = s.ring.c) :
    execRingAdvance s =
      .next (((produceAdvance s).raise .ovr).respond (2 ^ 31 + zext (nextSlot s.par.N s.ring.p))) := by
  simp only [execRingAdvance, ringFree_of_eq hfull, Bool.false_eq_true, if_false, produceAdvance_ring]

/-- What is read from the ring after a store: the sample stored, or what was there. -/
theorem sampleAt_writeSample (hw : s.ring.sample.wf = true) (slot a : Nat) {o : Nat} (hoff : off < 1024)
    (ho : o < 1024) :
    (s.writeSample slot off x).sampleAt a o = if a = slot ∧ o = off then x else s.sampleAt a o := by
  simp only [State.sampleAt, State.writeSample_ring, Memory.read_write hw, ringIndex_inj ho hoff]

end

/-! ### The mask of a group -/

section
variable (s : State) (slot g : Nat)

theorem maskBits_lt (n : Nat) : maskBits s slot g n < 2 ^ n := by
  induction n with
  | zero => exact Nat.one_pos
  | succ n ih =>
    have hbit := Nat.mul_le_mul_right (2 ^ n)
      (flagBit_le (decide (16 * g + n < s.par.B) && s.maskAt slot (16 * g + n)))
    rw [maskBits, Nat.pow_succ]
    omega

/-- Bit `j` of a group's mask (rule R144). -/
theorem testBit_maskBits {n j : Nat} (hj : j < n) :
    (maskBits s slot g n).testBit j = (decide (16 * g + j < s.par.B) && s.maskAt slot (16 * g + j)) := by
  induction n with
  | zero => exact absurd hj (Nat.not_lt_zero j)
  | succ n ih =>
    rw [maskBits, Nat.add_comm, Nat.mul_comm, Nat.testBit_two_pow_mul_add _ (maskBits_lt s slot g n)]
    split
    · next hlt => exact ih hlt
    · next hge =>
      obtain rfl : j = n := by omega
      rw [Nat.sub_self]
      exact testBit_flagBit _

end

/-! ### Advancing a full ring -/

/-- A producer that advances from the slot being played leaves none waiting (rule R146). -/
theorem waiting_of_full_p_advances {s t : State} (hc : s.ring.c.toNat < s.par.N) (hfull : s.ring.p = s.ring.c)
    (hpar : t.par = s.par) (hc' : t.ring.c = s.ring.c) (hp' : t.ring.p = nextSlot s.par.N s.ring.p) :
    waiting t = 0 := by
  have hlt := nextSlot_lt s.par s.ring.c
  rw [hfull] at hp'
  rw [waiting_cases t (by rwa [hp', hpar]) (by rwa [hc', hpar]), hp', hc', hpar, nextSlot_toNat_of_lt s.par hc]
  split_ifs <;> omega

/-! ### A block of writes -/

/-- What the writes of a block from offset `off` on do: the samples are in slot `p`, no other sample of the ring has
changed, nor has anything a later command of the producer reads. -/
structure BlockStored (s t : State) (off : Nat) (samples : List Half) : Prop where
  ring_eq : t.ring = { s.ring with sample := t.ring.sample }
  par_eq : t.par = s.par
  err_eq : t.err = s.err
  stored : ∀ j (h : j < samples.length), t.sampleAt s.ring.p.toNat (off + j) = samples[j]
  kept : ∀ slot o, o < 1024 → (slot ≠ s.ring.p.toNat ∨ o < off) → t.sampleAt slot o = s.sampleAt slot o

/-- One write, then the rest of the block. -/
theorem BlockStored.cons {s t : State} {off : Nat} {x : Half} {rest : List Half} (hw : s.ring.sample.wf = true)
    (hoff : off < 1024) (h : BlockStored ((s.writeSample s.ring.p.toNat off x).respond 0) t (off + 1) rest) :
    BlockStored s t off (x :: rest) where
  ring_eq := h.ring_eq
  par_eq := h.par_eq
  err_eq := h.err_eq
  stored j hj := by
    cases j with
    | zero =>
      refine (h.kept _ off hoff (.inr (Nat.lt_succ_self off))).trans ?_
      exact (sampleAt_writeSample x hw _ _ hoff hoff).trans (if_pos ⟨rfl, rfl⟩)
    | succ j =>
      have hstored := h.stored j (Nat.lt_of_succ_lt_succ hj)
      rwa [Nat.add_right_comm] at hstored
  kept slot o ho hne := by
    refine (h.kept slot o ho (hne.imp_right Nat.lt_succ_of_lt)).trans ?_
    refine (sampleAt_writeSample x hw _ _ hoff ho).trans (if_neg ?_)
    rintro ⟨rfl, rfl⟩
    exact hne.elim (· rfl) (Nat.lt_irrefl _)

/-- A free producer stores a block sample by sample (rule R143). -/
theorem runAll_blockWrites {s : State} {off : Nat} {samples : List Half} (hw : s.ring.sample.wf = true)
    (hfree : s.ring.p ≠ s.ring.c) (hfits : off + samples.length ≤ s.par.B) :
    ∃ t, runAll (blockWrites off samples) s = .next t ∧ BlockStored s t off samples := by
  induction samples generalizing s off with
  | nil => exact ⟨s, rfl, rfl, rfl, rfl, fun j h => absurd h (Nat.not_lt_zero j), fun _ _ _ _ => rfl⟩
  | cons x rest ih =>
    rw [List.length_cons] at hfits
    have hoff : off < s.par.B := by omega
    obtain ⟨t, hrun, hstored⟩ :=
      ih (s := (s.writeSample s.ring.p.toNat off x).respond 0) (off := off + 1) (Memory.write_wf hw _ _) hfree
        (show off + 1 + rest.length ≤ s.par.B by omega)
    exact ⟨t, (runAll_cons (i := .ringWrite off x) (execRingWrite_of_free x hoff hfree)).trans hrun,
      hstored.cons hw (hoff.trans_le s.par.B_le)⟩

/-! ### The obligations -/

/-- Settles O18: the answer is packed from `p` and FREE, and an effect that loses FREE is an advance or an underrun. -/
theorem ringAcquireAnswersTheFreeSlot : Obligations.RingAcquireAnswersTheFreeSlot := by
  refine ⟨fun w hop => ?_, fun s => ⟨_, rfl, ?_⟩,
    fun s t i hfree h hmeet => (exec_effect h).loses_free hfree hmeet⟩
  · exact decode_of_readsFrom (i := .ringAcquire) trivial hop.symm
  · have hp := s.ring.p.isLt
    have hflag := flagBit_le (ringFree s)
    refine ⟨extractLsb'_response (by omega) ?_, getLsbD_response (b := ringFree s) (by omega) ?_,
      extractLsb'_response_eq_zero (by omega) ?_, extractLsb'_response_eq_zero (by omega) ?_⟩
    all_goals simp only [zext]; omega

/-- Settles O17: the five fields do not overlap. -/
theorem ringStatusPacksTheIndices : Obligations.RingStatusPacksTheIndices := by
  refine ⟨fun w hop => ?_, fun s => ⟨_, rfl, ?_⟩⟩
  · exact decode_of_readsFrom (i := .ringStatus) trivial hop.symm
  · have hp := s.ring.p.isLt
    have hc := s.ring.c.isLt
    have hs := s.ring.s.isLt
    have hflag := flagBit_le (ringFree s)
    refine ⟨extractLsb'_response (by omega) ?_, extractLsb'_response (by omega) ?_,
      extractLsb'_response (by omega) ?_, getLsbD_response (b := ringFree s) (by omega) ?_,
      extractLsb'_response_eq_zero (by omega) ?_⟩
    all_goals simp only [zext]; omega

/-- Settles O19: the store and the two rejections, RNG before OVR. -/
theorem ringWriteStoresOneSample : Obligations.RingWriteStoresOneSample := by
  refine ⟨fun w hop => ?_, fun off x s hw hoff hfree => ?_, fun off x s hoff => ?_, fun off x s hoff hfull => ?_⟩
  · have hread : (Instr.ringWrite (aField w) (w.extractLsb' 0 16)).ReadsFrom w := ⟨rfl, rfl⟩
    exact decode_of_readsFrom hread hop.symm
  · have hoff' : off < 1024 := hoff.trans_le s.par.B_le
    refine ⟨_, execRingWrite_of_free x hoff hfree, ?_, fun slot o ho hne => ?_, rfl⟩
    · exact (sampleAt_writeSample x hw _ _ hoff' hoff').trans (if_pos ⟨rfl, rfl⟩)
    · exact (sampleAt_writeSample x hw _ _ hoff' ho).trans (if_neg (not_and_or.mpr hne))
  · exact (execRingWrite_of_le x hoff).trans (congrArg _ (reject_eq s .rng))
  · exact (execRingWrite_of_full x hoff hfull).trans (congrArg _ (reject_eq s .ovr))

/-- Settles O20: the response is the group's mask, a number below 2^16. -/
theorem ringReadmaskAnswersTheGroup : Obligations.RingReadmaskAnswersTheGroup := by
  refine ⟨fun w hop => ?_, fun g s hg => ⟨_, execRingReadmask_of_lt hg, fun j hj => ?_, ?_⟩, fun g s hg => ?_⟩
  · have hread : (Instr.ringReadmask (aField w)).ReadsFrom w := rfl
    exact decode_of_readsFrom hread hop.symm
  · rw [BitVec.getLsbD_ofNat, decide_eq_true (by omega : j < 32), Bool.true_and]
    exact testBit_maskBits s _ g hj
  · have hlt := maskBits_lt s (zext s.ring.p) g 16
    exact extractLsb'_response_eq_zero (by omega) (by omega)
  · exact (execRingReadmask_of_le hg).trans (congrArg _ (reject_eq s .rng))

/-- Settles O21: the producer moves in both cases, and on a full ring its new slot follows the one being played. -/
theorem ringAdvanceMovesTheProducer : Obligations.RingAdvanceMovesTheProducer := by
  refine ⟨fun w hop => ?_, fun s hfree => ?_, fun s hfull => ?_⟩
  · exact decode_of_readsFrom (i := .ringAdvance) trivial hop.symm
  · exact ⟨_, execRingAdvance_of_free hfree, nextSlot_toNat s.par s.ring.p, respond_add_zext _ _ _⟩
  · exact ⟨_, execRingAdvance_of_full hfull, nextSlot_toNat s.par s.ring.p,
      fun hc => waiting_of_full_p_advances hc hfull rfl rfl rfl, respond_add_zext _ _ _⟩

/-- Settles O23: the writes store the block, and the advance moves `p` alone. -/
theorem publishedBlockHoldsTheSamples : Obligations.PublishedBlockHoldsTheSamples := by
  intro s samples hw hfree hlen
  obtain ⟨u, hrun, hblock⟩ := runAll_blockWrites (off := 0) (samples := samples) hw hfree (by omega)
  have hp : u.ring.p = s.ring.p := by rw [hblock.ring_eq]
  have hc : u.ring.c = s.ring.c := by rw [hblock.ring_eq]
  have hadvance := execRingAdvance_of_free (s := u) (by rwa [hp, hc])
  refine ⟨_, (runAll_append hrun).trans (runAll_cons (i := .ringAdvance) hadvance), fun j hj => ?_,
    fun slot o ho hne => ?_, ?_, hc, hblock.err_eq⟩
  · have hstored := hblock.stored j hj
    rwa [Nat.zero_add] at hstored
  · exact hblock.kept slot o ho (.inl hne)
  · exact (nextSlot_toNat u.par u.ring.p).trans (by rw [hp, hblock.par_eq])

end Sys2Proof.Machine
end

section
/-! How soon a sample is played (41_ring.md rule R149): where the consumer stands after a run of effective ticks, and
what the next tick puts on the DAC port. -/

namespace Sys2Proof.Machine

/-! ### Runs of effective ticks -/

/-- The state after one effective tick for each gate reading. `runAll_ticks` ties it to the model. -/
def afterTicks : List Bool → State → State
  | [], s => s
  | g :: gates, s => afterTicks gates (effectiveTick g s)

section
variable (gates : List Bool) (s : State)

theorem runAll_ticks {s : State} (hen : s.tickEn = true) : runAll (ticks gates) s = .next (afterTicks gates s) := by
  induction gates generalizing s with
  | nil => rfl
  | cons g gates ih =>
    rw [runAll_ticks_cons hen]
    exact ih ((effectiveTick_tickEn g s).trans hen)

theorem afterTicks_tickEn : (afterTicks gates s).tickEn = s.tickEn := by
  induction gates generalizing s with
  | nil => rfl
  | cons g gates ih => exact (ih _).trans (effectiveTick_tickEn g s)

theorem afterTicks_sampleAt (slot off : Nat) : (afterTicks gates s).sampleAt slot off = s.sampleAt slot off := by
  induction gates generalizing s with
  | nil => rfl
  | cons g gates ih => exact (ih _).trans (effectiveTick_sampleAt g s slot off)

end

/-! ### One effective tick of the consumer -/

section
variable (g : Bool) {s : State}

/-- Within a block the consumer goes to the next sample. -/
theorem effectiveTick_within_block (hs : s.ring.s.toNat + 1 < s.par.B) :
    (effectiveTick g s).ring.c = s.ring.c ∧ (effectiveTick g s).ring.s.toNat = s.ring.s.toNat + 1 ∧
      (effectiveTick g s).err = s.err := by
  have hB := s.par.B_le
  have hend : ¬ zext s.ring.s + 1 = s.par.B := hs.ne
  rw [effectiveTick_err, effectiveTick_ring, if_neg hend, if_neg fun h => hend h.1]
  refine ⟨rfl, ?_, rfl⟩
  rw [BitVec.toNat_ofNat, zext]
  exact Nat.mod_eq_of_lt (by omega)

/-- At the end of a block it goes to the start of the next slot. -/
theorem effectiveTick_ends_block (hs : s.ring.s.toNat + 1 = s.par.B) :
    (effectiveTick g s).ring.c = nextSlot s.par.N s.ring.c ∧ (effectiveTick g s).ring.s.toNat = 0 := by
  rw [effectiveTick_ring, if_pos (show zext s.ring.s + 1 = s.par.B from hs)]
  exact ⟨rfl, rfl⟩

/-- The ring's indices are in their ranges (10_state.md rule R23): what `Inv` says of them, and all that is needed of
it here. -/
structure IndicesInRange (s : State) : Prop where
  p_lt : s.ring.p.toNat < s.par.N
  c_lt : s.ring.c.toNat < s.par.N
  s_lt : s.ring.s.toNat < s.par.B

theorem IndicesInRange.tick (h : IndicesInRange s) : IndicesInRange (effectiveTick g s) where
  p_lt := by rw [effectiveTick_p, effectiveTick_par]; exact h.p_lt
  c_lt := by rw [effectiveTick_par]; exact effectiveTick_c_lt g h.c_lt
  s_lt := by rw [effectiveTick_par]; exact effectiveTick_s_lt g h.s_lt

/-- With a waiting slot the consumer does not move onto the producer's slot (rules R27, R147). -/
theorem nextSlot_ne_p_of_waiting (h : IndicesInRange s) (hw : waiting s ≠ 0) :
    nextSlot s.par.N s.ring.c ≠ s.ring.p := by
  intro heq
  have hc := h.c_lt
  have hnext := nextSlot_toNat_of_lt s.par hc
  rw [waiting_cases s h.p_lt hc] at hw
  rw [heq] at hnext
  split_ifs at hnext hw <;> omega

/-- With a waiting slot no tick raises an error. -/
theorem effectiveTick_err_of_waiting (h : IndicesInRange s) (hw : waiting s ≠ 0) :
    (effectiveTick g s).err = s.err := by
  rw [effectiveTick_err, if_neg fun hmeet => nextSlot_ne_p_of_waiting h hw hmeet.2]

/-- The waiting count within a block and at its end (rule R27). -/
theorem waiting_effectiveTick_within_block (hs : s.ring.s.toNat + 1 < s.par.B) :
    waiting (effectiveTick g s) = waiting s := by
  simp only [waiting, effectiveTick_p, effectiveTick_par, (effectiveTick_within_block g hs).1]

theorem waiting_effectiveTick_ends_block (h : IndicesInRange s) (hs : s.ring.s.toNat + 1 = s.par.B)
    (hw : waiting s ≠ 0) : waiting (effectiveTick g s) = waiting s - 1 := by
  rw [waiting_of_c_advances h.p_lt h.c_lt (effectiveTick_par g s) (effectiveTick_p g s)
    (effectiveTick_ends_block g hs).1, if_neg hw]

/-! ### The DAC port -/

theorem dacWords_append (a b : List PortOut) : dacWords (a ++ b) = dacWords a ++ dacWords b := List.filterMap_append

/-- An effective tick puts the current sample on the DAC port, whatever else it puts out (rule R190). -/
theorem dacWords_effectiveTick (s : State) :
    dacWords (effectiveTick g s).out =
      dacWords s.out ++ [outMap outInvert (s.sampleAt s.ring.c.toNat s.ring.s.toNat)] := by
  have hui : dacWords (if completesCycle s then [.ui (nextAdc s.par s.env)] else []) = [] := by split <;> rfl
  rw [effectiveTick_out, dacWords_append, dacWords_append, hui, List.append_nil]
  rfl

end

/-! ### Reaching a sample -/

/-- The consumer stands at offset `off` of the `k`-th slot from the one it played in `s`, and no error was raised on the
way. -/
structure Reached (s : State) (k off : Nat) (t : State) : Prop where
  c_eq : t.ring.c.toNat = (s.ring.c.toNat + k) % s.par.N
  s_eq : t.ring.s.toNat = off
  err_eq : t.err = s.err

/-- A tick in the middle of a block takes the consumer no slot on. -/
theorem Reached.of_within_block {s t : State} {k off : Nat} {g : Bool} (hs : s.ring.s.toNat + 1 < s.par.B)
    (h : Reached (effectiveTick g s) k off t) : Reached s k off t := by
  obtain ⟨hc, hoff, herr⟩ := h
  obtain ⟨hc₁, -, herr₁⟩ := effectiveTick_within_block g hs
  rw [hc₁, effectiveTick_par] at hc
  exact ⟨hc, hoff, herr.trans herr₁⟩

/-- A tick at the end of a block takes it one slot on. -/
theorem Reached.of_ends_block {s t : State} {k off : Nat} {g : Bool} (hs : s.ring.s.toNat + 1 = s.par.B)
    (herr₁ : (effectiveTick g s).err = s.err) (h : Reached (effectiveTick g s) k off t) : Reached s (k + 1) off t := by
  obtain ⟨hc, hoff, herr⟩ := h
  rw [(effectiveTick_ends_block g hs).1, effectiveTick_par, nextSlot_toNat, Nat.mod_add_mod, Nat.add_assoc,
    Nat.add_comm 1] at hc
  exact ⟨hc, hoff, herr.trans herr₁⟩

/-- Every tick is one sample: after as many as lie between, the consumer stands at the sample sought (rule R149). -/
theorem reached_afterTicks {s : State} {k off : Nat} {gates : List Bool} (hrange : IndicesInRange s)
    (hk : k ≤ waiting s) (hoff : off < s.par.B) (hlen : gates.length + s.ring.s.toNat = k * s.par.B + off) :
    Reached s k off (afterTicks gates s) := by
  have hs := hrange.s_lt
  induction gates generalizing s k with
  | nil =>
    rw [List.length_nil, Nat.zero_add] at hlen
    obtain rfl : k = 0 := by
      by_contra hne
      have := Nat.le_mul_of_pos_left s.par.B (Nat.pos_of_ne_zero hne)
      omega
    rw [Nat.zero_mul, Nat.zero_add] at hlen
    exact ⟨(Nat.mod_eq_of_lt hrange.c_lt).symm, hlen, rfl⟩
  | cons g gates ih =>
    rw [List.length_cons] at hlen
    have hrange₁ := hrange.tick g
    rcases (Nat.succ_le_of_lt hs).lt_or_eq with hin | hend
    · obtain ⟨-, hs₁, -⟩ := effectiveTick_within_block g hin
      refine .of_within_block hin (ih hrange₁ ?_ ?_ ?_ hrange₁.s_lt)
      · rwa [waiting_effectiveTick_within_block g hin]
      · rwa [effectiveTick_par]
      · rw [hs₁, effectiveTick_par]; omega
    · obtain ⟨j, rfl⟩ : ∃ j, k = j + 1 := Nat.exists_eq_succ_of_ne_zero (by rintro rfl; omega)
      have hwaits : waiting s ≠ 0 := by omega
      obtain ⟨-, hs₁⟩ := effectiveTick_ends_block g hend
      rw [Nat.add_one_mul] at hlen
      refine .of_ends_block hend (effectiveTick_err_of_waiting g hrange hwaits) (ih hrange₁ ?_ ?_ ?_ hrange₁.s_lt)
      · rw [waiting_effectiveTick_ends_block g hrange hend hwaits]; omega
      · rwa [effectiveTick_par]
      · rw [hs₁, effectiveTick_par]; omega

/-- A sample of a waiting slot is closer than the length of the ring. -/
theorem ticks_lt_ring {s : State} {k off n : Nat} (hk : k ≤ waiting s) (hoff : off < s.par.B)
    (hlen : n + s.ring.s.toNat = k * s.par.B + off) : n < s.par.N * s.par.B := by
  have hN := s.par.N_ge
  have hwait := waiting_le s
  calc n ≤ k * s.par.B + off := by omega
    _ < (k + 1) * s.par.B := by rw [Nat.add_one_mul]; omega
    _ ≤ s.par.N * s.par.B := Nat.mul_le_mul_right _ (by omega)

/-- The next tick plays the sample reached. -/
theorem Reached.dacWords_eq {s : State} {k off : Nat} {gates : List Bool} (h : Reached s k off (afterTicks gates s))
    (g : Bool) :
    dacWords (effectiveTick g (afterTicks gates s)).out =
      dacWords (afterTicks gates s).out ++ [outMap false (s.sampleAt ((s.ring.c.toNat + k) % s.par.N) off)] := by
  rw [dacWords_effectiveTick, afterTicks_sampleAt, h.c_eq, h.s_eq]
  rfl

/-! ### A sample written and published -/

/-- The state after a free producer's RING_WRITE and RING_ADVANCE. `runAll_published` ties it to the model. -/
def published (s : State) (off : Nat) (x : Half) : State :=
  (produceAdvance ((s.writeSample s.ring.p.toNat off x).respond 0)).respond
    (2 ^ 26 + zext (nextSlot s.par.N s.ring.p))

section
variable {s : State} {off : Nat} (x : Half)

theorem runAll_published (hoff : off < s.par.B) (hfree : s.ring.p ≠ s.ring.c) :
    runAll [.ringWrite off x, .ringAdvance] s = .next (published s off x) :=
  (runAll_cons (i := .ringWrite off x) (execRingWrite_of_free x hoff hfree)).trans
    (runAll_cons (i := .ringAdvance)
      (execRingAdvance_of_free (s := (s.writeSample s.ring.p.toNat off x).respond 0) hfree))

theorem published_tickEn : (published s off x).tickEn = s.tickEn := tickEn_congr rfl rfl

theorem published_sampleAt (hw : s.ring.sample.wf = true) (hoff : off < 1024) :
    (published s off x).sampleAt s.ring.p.toNat off = x :=
  (sampleAt_writeSample x hw _ _ hoff hoff).trans (if_pos ⟨rfl, rfl⟩)

/-- The slot published is the last of the waiting ones (rule R27). -/
theorem slot_after_waiting (hp : s.ring.p.toNat < s.par.N) (hc : s.ring.c.toNat < s.par.N)
    (hfree : s.ring.p ≠ s.ring.c) : (s.ring.c.toNat + (waiting s + 1)) % s.par.N = s.ring.p.toNat := by
  have hne : s.ring.p.toNat ≠ s.ring.c.toNat := fun h => hfree (BitVec.eq_of_toNat_eq h)
  rw [waiting_cases s hp hc]
  split
  · rw [Nat.mod_eq_of_lt (by omega)]
    omega
  · rw [Nat.mod_eq_sub_mod (by omega), Nat.mod_eq_of_lt (by omega)]
    omega

end

/-! ### The obligation -/

/-- Settles O35: a waiting slot is reached before any underrun, and a published one waits. -/
theorem sampleIsPlayedWithinTheRing : Obligations.SampleIsPlayedWithinTheRing := by
  constructor
  · intro s k off gates g hen hp hc hs hk hoff hlen
    have hreached := reached_afterTicks ⟨hp, hc, hs⟩ hk hoff hlen
    exact ⟨ticks_lt_ring hk hoff hlen, _, _, runAll_ticks gates hen, hreached.c_eq, hreached.s_eq, hreached.err_eq,
      execTick_of_tickEn g ((afterTicks_tickEn gates s).trans hen), hreached.dacWords_eq g⟩
  · intro s off x gates g hen hw hp hc hs hfree hoff hlen
    have hen' := (published_tickEn (s := s) (off := off) x).trans hen
    have hwait : waiting (published s off x) = waiting s + 1 := waiting_of_p_advances hp hc hfree rfl rfl rfl
    have hreached : Reached (published s off x) (waiting s + 1) off (afterTicks gates (published s off x)) :=
      reached_afterTicks ⟨nextSlot_lt s.par s.ring.p, hc, hs⟩ hwait.ge hoff hlen
    have hslot := slot_after_waiting hp hc hfree
    refine ⟨ticks_lt_ring (s := published s off x) hwait.ge hoff hlen, _, _,
      (runAll_append (runAll_published x hoff hfree)).trans (runAll_ticks gates hen'),
      BitVec.eq_of_toNat_eq (hreached.c_eq.trans hslot), hreached.s_eq, hreached.err_eq,
      execTick_of_tickEn g ((afterTicks_tickEn gates _).trans hen'), (hreached.dacWords_eq g).trans ?_⟩
    rw [show ((published s off x).ring.c.toNat + (waiting s + 1)) % (published s off x).par.N = s.ring.p.toNat
      from hslot, published_sampleAt x hw (hoff.trans_le s.par.B_le)]

end Sys2Proof.Machine
end

section
/-! TRIG (42_trigger.md): the two commands, and the timing of the countdown. Both timing laws go by induction on a run of
effective ticks and split each tick on whether it completes a scan cycle. The counter is read by `armedCount`: the
number of cycle-complete events up to the one that sets `fired`, or 0 when nothing counts. -/

namespace Sys2Proof.Machine

/-! ### An effective tick within a scan cycle and at its end -/

section
variable (g : Bool) {s : State}

theorem effectiveTick_phase : (effectiveTick g s).scan.phase.toNat = nextPhase s := by
  have hlt : nextPhase s < s.par.scanLen := Nat.mod_lt _ s.par.scanLen_ge
  have hle := s.par.scanLen_le
  have hfits : (BitVec.ofNat 16 (nextPhase s)).toNat = nextPhase s :=
    (BitVec.toNat_ofNat _ _).trans (Nat.mod_eq_of_lt (by omega))
  rw [effectiveTick_scan]
  split <;> exact hfits

/-- A tick that completes no cycle notes the gate reading (rule R160). -/
theorem effectiveTick_within_cycle (h : s.scan.phase.toNat + 1 < s.par.scanLen) :
    (effectiveTick g s).scan.phase.toNat = s.scan.phase.toNat + 1 ∧
      (effectiveTick g s).trig = trigDetect g s.trig := by
  have hnext : nextPhase s = s.scan.phase.toNat + 1 := Nat.mod_eq_of_lt h
  have hcycle : completesCycle s = false := decide_eq_false (by omega)
  rw [effectiveTick_phase, effectiveTick_trig, hcycle]
  exact ⟨hnext, rfl⟩

/-- The tick that completes a cycle starts the next one and moves the countdown (rule R161). -/
theorem effectiveTick_ends_cycle (h : s.scan.phase.toNat + 1 = s.par.scanLen) :
    (effectiveTick g s).scan.phase.toNat = 0 ∧
      (effectiveTick g s).trig = trigCycleComplete s.delayExp (trigDetect g s.trig) := by
  have hnext : nextPhase s = 0 := by rw [nextPhase, h, Nat.mod_self]
  have hcycle : completesCycle s = true := decide_eq_true hnext
  rw [effectiveTick_phase, effectiveTick_trig, hcycle]
  exact ⟨hnext, rfl⟩

end

/-! ### The trigger's counter -/

theorem trigDetect_false (t : Trig) : trigDetect false t = t := by
  rw [trigDetect, Bool.or_false]

theorem trigDetect_trigDetect (a b : Bool) (t : Trig) : trigDetect b (trigDetect a t) = trigDetect (a || b) t := by
  simp only [trigDetect, Bool.or_assoc]

/-- A cycle-complete event takes one from the counter and leaves nothing to arm. -/
theorem armedCount_trigCycleComplete {e : Nat} (he : e < 8) (t : Trig) :
    armedCount e (trigCycleComplete e t) = armedCount e t - 1 := by
  obtain ⟨hdetected, hdelay, -⟩ := trigCycleComplete_eq e he t
  rw [armedCount, hdetected, hdelay, if_neg Bool.false_ne_true]

/-- An idle trigger has something to count once it has seen a gate. -/
theorem armedCount_of_idle (e : Nat) (g : Bool) :
    armedCount e (trigDetect g { detected := false, delay := 0, fired := false }) = if g then armedDelay e else 0 := by
  cases g <;> rfl

/-! ### The timing law -/

/-- `fired` is set, or a counter of `n` ends among the cycle-complete events of the next `j` ticks.
`afterTicks_fired_iff` ties it to the model. -/
def FiresWithin (s : State) (n j : Nat) : Prop :=
  s.trig.fired = true ∨ 0 < n ∧ n ≤ (s.scan.phase.toNat + j) / s.par.scanLen

/-- One effective tick is one of them: a tick that completes a cycle takes one from the events to come and one from the
counter, and sets `fired` where that was the last (rules R161, R163). -/
theorem firesWithin_effectiveTick {s : State} (g : Bool) (j : Nat) (hphase : s.scan.phase.toNat < s.par.scanLen) :
    FiresWithin (effectiveTick g s) (armedCount s.delayExp (effectiveTick g s).trig) j ↔
      FiresWithin s (armedCount s.delayExp (trigDetect g s.trig)) (j + 1) := by
  unfold FiresWithin
  rw [effectiveTick_par]
  rcases (Nat.succ_le_of_lt hphase).lt_or_eq with hin | hend
  · obtain ⟨hphase₁, htrig₁⟩ := effectiveTick_within_cycle g hin
    rw [hphase₁, htrig₁, trigDetect_fired, Nat.add_assoc, Nat.add_comm 1]
  · obtain ⟨hphase₁, htrig₁⟩ := effectiveTick_ends_cycle g hend
    obtain ⟨-, -, hfired⟩ := trigCycleComplete_eq _ (delayExp_lt s) (trigDetect g s.trig)
    have hevents : (s.scan.phase.toNat + (j + 1)) / s.par.scanLen = j / s.par.scanLen + 1 := by
      rw [← Nat.add_div_right _ s.par.scanLen_ge, show s.scan.phase.toNat + (j + 1) = j + s.par.scanLen by omega]
    rw [hphase₁, htrig₁, hfired, trigDetect_fired, armedCount_trigCycleComplete (delayExp_lt s), hevents,
      Nat.zero_add, Bool.or_eq_true, decide_eq_true_iff, or_assoc]
    generalize j / s.par.scanLen = k
    exact or_congr_right (by omega)

/-- With no further gate it is the counter alone that decides (rules R161, R165). -/
theorem afterTicks_fired_iff {s : State} (m : Nat) (hphase : s.scan.phase.toNat < s.par.scanLen) :
    (afterTicks (List.replicate m false) s).trig.fired = true ↔ FiresWithin s (armedCount s.delayExp s.trig) m := by
  induction m generalizing s with
  | zero =>
    have hnone : s.scan.phase.toNat / s.par.scanLen = 0 := Nat.div_eq_of_lt hphase
    simp only [FiresWithin, Nat.add_zero, hnone]
    exact ⟨.inl, fun h => h.elim id fun hn => absurd hn (by omega)⟩
  | succ m ih =>
    have hstep := firesWithin_effectiveTick false m hphase
    rw [trigDetect_false] at hstep
    rw [← hstep, ← effectiveTick_delayExp false s]
    exact ih (by rw [effectiveTick_par]; exact effectiveTick_phase_lt false s)

/-- Settles O25: the first tick's gate arms an idle trigger to D + 1, and no later tick has one. -/
theorem triggerFiresAfterTheDelay : Obligations.TriggerFiresAfterTheDelay := by
  intro s m hen hidle hphase
  have hphase₁ : (effectiveTick true s).scan.phase.toNat < (effectiveTick true s).par.scanLen := by
    rw [effectiveTick_par]; exact effectiveTick_phase_lt true s
  refine ⟨_, runAll_ticks _ hen, (afterTicks_fired_iff m hphase₁).trans ?_⟩
  rw [effectiveTick_delayExp, firesWithin_effectiveTick true m hphase, hidle, armedCount_of_idle, FiresWithin, hidle]
  exact ⟨fun h => h.elim (absurd · Bool.false_ne_true) And.right, fun h => .inr ⟨Nat.succ_pos _, h⟩⟩

/-! ### Debounce -/

/-- Over the ticks that end a scan cycle TRIG moves as in one tick whose gate reading is 1 if any of theirs is
(rules R160, R164). -/
theorem afterTicks_trig_of_ends_cycle {s : State} {g : Bool} {gates : List Bool}
    (hlen : s.scan.phase.toNat + (g :: gates).length = s.par.scanLen) :
    (afterTicks (g :: gates) s).trig =
      trigCycleComplete s.delayExp (trigDetect (decide (true ∈ g :: gates)) s.trig) := by
  induction gates generalizing s g with
  | nil =>
    have hany : decide (true ∈ [g]) = g := by cases g <;> rfl
    rw [hany]
    exact (effectiveTick_ends_cycle g hlen).2
  | cons g' gates ih =>
    rw [List.length_cons, List.length_cons] at hlen
    obtain ⟨hphase₁, htrig₁⟩ := effectiveTick_within_cycle g (s := s) (by omega)
    have hany : decide (true ∈ g :: g' :: gates) = (g || decide (true ∈ g' :: gates)) := by
      cases g <;> simp
    rw [hany, ← trigDetect_trigDetect, ← htrig₁, ← effectiveTick_delayExp g s]
    exact ih (by rw [hphase₁, effectiveTick_par, List.length_cons]; omega)

/-- A cycle-complete event arms an idle trigger if a gate was seen, and counts once (rule R161). -/
theorem trigCycleComplete_of_idle {e : Nat} (he : e < 8) {g : Bool} {t : Trig}
    (ht : t = trigCycleComplete e (trigDetect g { detected := false, delay := 0, fired := false })) :
    t.detected = false ∧ t.delay.toNat = (if g = true ∧ e ≠ 0 then 2 ^ e else 0) ∧
      (t.fired = true ↔ g = true ∧ e = 0) := by
  obtain ⟨hdetected, hdelay, hfired⟩ := trigCycleComplete_eq e he
    (trigDetect g { detected := false, delay := 0, fired := false })
  rw [← ht, armedCount_of_idle] at hdelay hfired
  rw [hdelay, hfired, trigDetect_fired]
  refine ⟨ht ▸ hdetected, ?_⟩
  cases g with
  | false => simp
  | true => by_cases hzero : e = 0 <;> simp [armedDelay, hzero]

/-- Settles O26: the cycle ends on one cycle-complete event of a trigger that has seen the gates together. -/
theorem scanCycleArmsAtMostOnce : Obligations.ScanCycleArmsAtMostOnce := by
  intro s gates hen hidle hlen hne
  obtain ⟨g, gates, rfl⟩ := List.exists_cons_of_ne_nil hne
  have hone := afterTicks_trig_of_ends_cycle hlen
  rw [hidle] at hone
  have htrig := trigCycleComplete_of_idle (delayExp_lt s) hone
  simp only [decide_eq_true_iff] at htrig
  exact ⟨_, runAll_ticks _ hen, htrig⟩

/-! ### The commands -/

/-- Settles O24: neither command reads an operand; TRIG_TAKE's answer is the flag itself, TRIG_STATUS's three fields do
not overlap. -/
theorem triggerCommands : Obligations.TriggerCommands := by
  refine ⟨fun w hop => ?_, fun w hop => ?_, fun s => ?_, fun s => ⟨_, rfl, ?_⟩⟩
  · exact decode_of_readsFrom (i := .trigTake) trivial hop.symm
  · exact decode_of_readsFrom (i := .trigStatus) trivial hop.symm
  · have hanswer : BitVec.ofNat 32 (flagBit s.trig.fired) = if s.trig.fired then 1 else 0 := by
      cases s.trig.fired <;> rfl
    rw [← hanswer]
    rfl
  · have hdelay := s.trig.delay.isLt
    have hfired := flagBit_le s.trig.fired
    have hdetected := flagBit_le s.trig.detected
    refine ⟨getLsbD_response (b := s.trig.fired) (by omega) ?_,
      getLsbD_response (b := s.trig.detected) (by omega) ?_, extractLsb'_response_eq_zero (by omega) ?_,
      extractLsb'_response (by omega) ?_, extractLsb'_response_eq_zero (by omega) ?_⟩
    all_goals simp only [zext]; omega

end Sys2Proof.Machine
end

section
/-! SCAN (43_adc_scan.md): the two commands, and the count of the complete cycles. The counting law goes by induction on
a run of effective ticks; how often each of them completes a cycle is a quotient, 0 or 1 (`completed_of_tick`). -/

namespace Sys2Proof.Machine

/-! ### One effective tick of the scan -/

section
variable (g : Bool) {s : State}

/-- From a phase in range, one tick brings the phase to SCAN_LEN exactly when it completes a cycle (rule R181). -/
theorem completed_of_tick (hphase : s.scan.phase.toNat < s.par.scanLen) :
    (s.scan.phase.toNat + 1) / s.par.scanLen = if completesCycle s then 1 else 0 := by
  have hle : s.scan.phase.toNat + 1 ≤ s.par.scanLen := hphase
  rcases hle.lt_or_eq with hin | hend
  · have hcycle : completesCycle s = false :=
      decide_eq_false (by rw [nextPhase, Nat.mod_eq_of_lt hin]; exact Nat.succ_ne_zero _)
    rw [hcycle, Nat.div_eq_of_lt hin]
    rfl
  · have hcycle : completesCycle s = true := decide_eq_true (by rw [nextPhase, hend, Nat.mod_self])
    rw [hcycle, hend, Nat.div_self s.par.scanLen_ge]
    rfl

theorem uiPushes_append (a b : List PortOut) : uiPushes (a ++ b) = uiPushes a ++ uiPushes b := List.filterMap_append

/-- A tick pushes to the UI port on a complete cycle only, whatever else it puts out (rule R190). -/
theorem uiPushes_effectiveTick (s : State) :
    uiPushes (effectiveTick g s).out =
      uiPushes s.out ++ if completesCycle s then [nextAdc s.par s.env] else [] := by
  rw [effectiveTick_out, uiPushes_append, uiPushes_append, List.append_assoc]
  split <;> rfl

theorem effectiveTick_pushes (hphase : s.scan.phase.toNat < s.par.scanLen) :
    (uiPushes (effectiveTick g s).out).length =
      (uiPushes s.out).length + (s.scan.phase.toNat + 1) / s.par.scanLen := by
  rw [uiPushes_effectiveTick, List.length_append, completed_of_tick hphase]
  split <;> rfl

theorem effectiveTick_draws (hphase : s.scan.phase.toNat < s.par.scanLen) :
    (effectiveTick g s).env.adcTaken = s.env.adcTaken + (s.scan.phase.toNat + 1) / s.par.scanLen := by
  rw [effectiveTick_env, completed_of_tick hphase]
  split <;> rfl

end

/-! ### Runs of effective ticks -/

/-- From `s` to `t` the scan has gone through `n` effective ticks: the phase counts modulo SCAN_LEN, and each complete
cycle has made one UI push and one draw (rules R180, R181). `scanned_afterTicks` ties it to the model. -/
structure Scanned (s : State) (n : Nat) (t : State) : Prop where
  phase_eq : t.scan.phase.toNat = (s.scan.phase.toNat + n) % s.par.scanLen
  pushes_eq : (uiPushes t.out).length = (uiPushes s.out).length + (s.scan.phase.toNat + n) / s.par.scanLen
  draws_eq : t.env.adcTaken = s.env.adcTaken + (s.scan.phase.toNat + n) / s.par.scanLen

/-- The cycles of a run are those its first step completes and those of the rest, from the phase it leaves. -/
theorem completed_succ (p n : Nat) {len : Nat} (hlen : 0 < len) :
    (p + (n + 1)) / len = (p + 1) / len + ((p + 1) % len + n) / len := by
  have hsplit : p + (n + 1) = len * ((p + 1) / len) + ((p + 1) % len + n) := by
    have := Nat.div_add_mod (p + 1) len
    omega
  rw [hsplit, Nat.mul_add_div hlen]

/-- One more tick in front. -/
theorem Scanned.of_tick {s t : State} {n : Nat} {g : Bool} (hphase : s.scan.phase.toNat < s.par.scanLen)
    (h : Scanned (effectiveTick g s) n t) : Scanned s (n + 1) t := by
  obtain ⟨hp, hpushes, hdraws⟩ := h
  have hcycles := completed_succ s.scan.phase.toNat n s.par.scanLen_ge
  rw [effectiveTick_phase, effectiveTick_par, nextPhase] at hp hpushes hdraws
  constructor
  · rw [hp, Nat.mod_add_mod, Nat.add_assoc, Nat.add_comm 1]
  · rw [hpushes, effectiveTick_pushes g hphase, hcycles, Nat.add_assoc]
  · rw [hdraws, effectiveTick_draws g hphase, hcycles, Nat.add_assoc]

theorem scanned_afterTicks {s : State} (gates : List Bool) (hphase : s.scan.phase.toNat < s.par.scanLen) :
    Scanned s gates.length (afterTicks gates s) := by
  induction gates generalizing s with
  | nil =>
    have hnone : s.scan.phase.toNat / s.par.scanLen = 0 := Nat.div_eq_of_lt hphase
    constructor <;> rw [List.length_nil, Nat.add_zero]
    · exact (Nat.mod_eq_of_lt hphase).symm
    all_goals rw [hnone]; rfl
  | cons g gates ih =>
    have hphase₁ : (effectiveTick g s).scan.phase.toNat < (effectiveTick g s).par.scanLen := by
      rw [effectiveTick_par]; exact effectiveTick_phase_lt g s
    exact (ih hphase₁).of_tick hphase

/-- Settles O29: the ticks all have effect, and the scan goes through as many. -/
theorem everyScanLenTicksCompleteACycle : Obligations.EveryScanLenTicksCompleteACycle := by
  intro s gates hen hphase
  obtain ⟨hp, hpushes, hdraws⟩ := scanned_afterTicks gates hphase
  exact ⟨_, runAll_ticks gates hen, hp, hpushes, hdraws⟩

/-! ### The commands -/

theorem execAdcRead_of_le {ch : Nat} (h : 4 ≤ ch) (s : State) : execAdcRead ch s = .next (s.reject .rng) := by
  rw [execAdcRead, dif_neg (Nat.not_lt.mpr h)]

/-- Settles O28: both answers are zero extensions of a register; the channel is ADC_READ's A field. -/
theorem adcCommands : Obligations.AdcCommands := by
  refine ⟨fun w hop => ?_, fun w hop => ?_, fun k s => ?_, fun ch s h => ?_, fun s => ?_⟩
  · have hread : (Instr.adcRead (aField w)).ReadsFrom w := rfl
    exact decode_of_readsFrom hread hop.symm
  · exact decode_of_readsFrom (i := .adcStatus) trivial hop.symm
  · exact (execAdcRead_of_lt k.isLt s).trans (congrArg _ (respond_zext s s.scan.chValue[k]))
  · exact execAdcRead_of_le h s
  · exact congrArg _ (respond_zext s s.scan.phase)

end Sys2Proof.Machine
end

section
/-! TICK (44_tick.md): the DAC offset, one effective tick against the five steps of rule R190, and the ticks of one
block. What a tick does to each field stands in Laws/Tick; here the fields are read as the rules read them. -/

namespace Sys2Proof.Machine

/-! ### The DAC offset -/

/-- OutMap leaves its remainder modulo 2^16 on the port, where it fits (rule R192). -/
theorem outMap_toNat (inverted : Bool) (x : Half) :
    ((outMap inverted x).toNat : Int) = (if inverted then 32768 - x.toInt else x.toInt + 32768) % 65536 := by
  rw [outMap, toHalf, BitVec.toNat_ofInt]
  simp only [sext16]
  omega

/-- Modulo 2^16 it does not matter that the sample is signed. -/
theorem outMap_false_toNat (x : Half) : (outMap false x).toNat = (2 ^ 15 + x.toNat) % 2 ^ 16 := by
  have hport := outMap_toNat false x
  rw [if_neg Bool.false_ne_true, BitVec.toInt_eq_toNat_cond] at hport
  split at hport <;> omega

/-- Adding 2^15 modulo 2^16 inverts bit 15 and has no carry to any other bit (rule R192). -/
theorem outMap_false_eq_xor (x : Half) : outMap false x = x ^^^ 0x8000 := by
  apply BitVec.eq_of_getLsbD_eq
  intro i hi
  have hsign : (0x8000 : Half).getLsbD i = decide (i = 15) := by decide +revert
  rw [BitVec.getLsbD_xor, hsign, ← BitVec.testBit_toNat, outMap_false_toNat, Nat.testBit_mod_two_pow, decide_eq_true hi,
    Bool.true_and, ← BitVec.testBit_toNat]
  rcases (Nat.le_of_lt_succ hi).lt_or_eq with hlow | rfl
  · rw [Nat.testBit_two_pow_add_gt hlow, decide_eq_false hlow.ne, Bool.xor_false]
  · rw [Nat.testBit_two_pow_add_eq, decide_eq_true rfl, Bool.xor_true]

/-- Settles O32: both polarities are the remainder on the port, and 2^15 is bit 15. -/
theorem outMapOffsetsTheSample : Obligations.OutMapOffsetsTheSample :=
  ⟨outMap_toNat false, outMap_toNat true, outMap_false_eq_xor, rfl⟩

/-! ### A disabled tick -/

theorem resetWith_tickEn (P : Params) : (State.resetWith P).tickEn = false := by
  have hctrl : (State.resetWith P).cfgValue .ctrl = 0 := rfl
  rw [State.tickEn, hctrl]
  rfl

/-- Settles O30: the configuration after reset is empty, so CTRL reads 0. -/
theorem disabledTickHasNoEffect : Obligations.DisabledTickHasNoEffect :=
  ⟨fun g _ hdis => execTick_of_not_tickEn g hdis, resetWith_tickEn,
    fun g P => execTick_of_not_tickEn g (resetWith_tickEn P)⟩

/-! ### One effective tick -/

section
variable {s : State} (hw : s.ring.mask.wf = true) (g : Bool)
include hw

/-- The mask bit a tick writes is the one of the sample just played, whatever the consumer does next (rule R190). -/
theorem maskAt_effectiveTick (slot : Nat) {o : Nat} (ho : o < 1024) :
    (effectiveTick g s).maskAt slot o =
      if slot = s.ring.c.toNat ∧ o = s.ring.s.toNat then g else s.maskAt slot o := by
  have hbit : decide (BitVec.ofBool g = 1) = g := by cases g <;> rfl
  simp only [State.maskAt, effectiveTick_mask, Memory.read_write hw, zext, ringIndex_inj ho s.ring.s.isLt]
  split
  · exact hbit
  · rfl

/-- It becomes the gate reading. -/
theorem maskAt_effectiveTick_current : (effectiveTick g s).maskAt s.ring.c.toNat s.ring.s.toNat = g :=
  (maskAt_effectiveTick hw g _ s.ring.s.isLt).trans (if_pos ⟨rfl, rfl⟩)

/-- The bits of the samples played before in the block stay. -/
theorem maskAt_effectiveTick_earlier {o : Nat} (ho : o < s.ring.s.toNat) :
    (effectiveTick g s).maskAt s.ring.c.toNat o = s.maskAt s.ring.c.toNat o :=
  (maskAt_effectiveTick hw g _ (ho.trans s.ring.s.isLt)).trans (if_neg fun h => ho.ne h.2)

theorem effectiveTick_mask_wf : (effectiveTick g s).ring.mask.wf = true := by
  rw [effectiveTick_mask]
  exact Memory.write_wf hw _ _

end

section
variable (g : Bool) {s : State}

/-- The consumer's position steps, and starts again at the end of a block (rule R190). -/
theorem effectiveTick_s_toNat : (effectiveTick g s).ring.s.toNat =
    if s.ring.s.toNat + 1 = s.par.B then 0 else (s.ring.s.toNat + 1) % 1024 := by
  split
  · next hend => exact (effectiveTick_ends_block g hend).2
  · next hin =>
    rw [effectiveTick_ring, if_neg (show ¬zext s.ring.s + 1 = s.par.B from hin)]
    exact BitVec.toNat_ofNat _ _

/-- The consumer moves one slot on at the end of a block (rules R147, R190). -/
theorem effectiveTick_c_toNat : (effectiveTick g s).ring.c.toNat =
    if s.ring.s.toNat + 1 = s.par.B then (s.ring.c.toNat + 1) % s.par.N else s.ring.c.toNat := by
  split
  · next hend => rw [(effectiveTick_ends_block g hend).1, nextSlot_toNat]
  · next hin => rw [effectiveTick_ring, if_neg (show ¬zext s.ring.s + 1 = s.par.B from hin)]

/-- UDR is raised where the consumer moves onto the producer's slot (rule R147). -/
theorem effectiveTick_err_of_meeting : (effectiveTick g s).err =
    if s.ring.s.toNat + 1 = s.par.B ∧ (s.ring.c.toNat + 1) % s.par.N = s.ring.p.toNat
    then s.err ||| 0b01000 else s.err := by
  simp only [effectiveTick_err, nextSlot_eq_iff]
  rfl

theorem completesCycle_iff :
    completesCycle s = true ↔ (s.scan.phase.toNat + 1) % s.par.scanLen = 0 := decide_eq_true_iff

/-- What step 5 of a tick does on a complete scan cycle (rules R161, R180). -/
theorem effectiveTick_of_completesCycle (hcycle : completesCycle s = true) :
    (effectiveTick g s).scan.chValue = nextAdc s.par s.env ∧ (effectiveTick g s).env = afterAdc s.env ∧
      (effectiveTick g s).trig = trigCycleComplete s.delayExp (trigDetect g s.trig) := by
  rw [effectiveTick_scan, effectiveTick_env, effectiveTick_trig, hcycle]
  exact ⟨rfl, rfl, rfl⟩

/-- What it does on any other tick: of the trigger there is only the gate reading of step 3 (rules R160, R180). -/
theorem effectiveTick_of_not_completesCycle (hcycle : completesCycle s = false) :
    (effectiveTick g s).scan.chValue = s.scan.chValue ∧ (effectiveTick g s).env = s.env ∧
      (effectiveTick g s).trig = trigDetect g s.trig := by
  rw [effectiveTick_scan, effectiveTick_env, effectiveTick_trig, hcycle]
  exact ⟨rfl, rfl, rfl⟩

/-- The ports get the sample in step 1, and on a complete cycle the readings just taken in step 5 (rule R190). -/
theorem effectiveTick_out_of_readings : (effectiveTick g s).out =
    s.out ++ [.dac (outMap false (s.sampleAt s.ring.c.toNat s.ring.s.toNat))] ++
      (if (s.scan.phase.toNat + 1) % s.par.scanLen = 0 then [.ui (effectiveTick g s).scan.chValue] else []) := by
  simp only [effectiveTick_out, completesCycle_iff]
  split
  · next hcycle =>
    obtain ⟨hreadings, -, -⟩ := effectiveTick_of_completesCycle g (completesCycle_iff.mpr hcycle)
    rw [hreadings]
    rfl
  · rfl

end

/-- Settles O31: step by step, with the two cases of step 5 apart. -/
theorem effectiveTickDoesItsFiveSteps : Obligations.EffectiveTickDoesItsFiveSteps := by
  obtain ⟨hdecode, -⟩ := tPortAcceptsOnlyTick
  refine ⟨hdecode, fun g s hdis => execTick_of_not_tickEn g hdis, fun g s hen hw => ?_⟩
  refine ⟨effectiveTick g s, execTick_of_tickEn g hen, effectiveTick_out_of_readings g,
    maskAt_effectiveTick_current hw g, fun slot o ho hne => ?_, effectiveTick_s_toNat g, effectiveTick_c_toNat g,
    effectiveTick_err_of_meeting g, effectiveTick_phase g, ?_, effectiveTick_eq g s⟩
  · exact (maskAt_effectiveTick hw g slot ho).trans (if_neg (not_and_or.mpr hne))
  · split
    · next hcycle =>
      obtain ⟨hreadings, henv, htrig⟩ := effectiveTick_of_completesCycle g (completesCycle_iff.mpr hcycle)
      obtain ⟨hdetected, hdelay, hfired⟩ := trigCycleComplete_eq _ (delayExp_lt s) (trigDetect g s.trig)
      rw [hreadings, henv, htrig]
      refine ⟨nextAdc_lt s.par s.env, rfl, rfl, hdetected, fun armed harmed => ?_⟩
      subst harmed
      exact ⟨hdelay, hfired⟩
    · next hcycle =>
      exact effectiveTick_of_not_completesCycle g (Bool.eq_false_iff.mpr (mt completesCycle_iff.mp hcycle))

/-! ### The ticks of one block -/

/-- From `s` to `t` the slot being played has gone from its current sample to its end: its samples are on the DAC port
and the gate readings in its mask, both in order, and the next slot is to be played. `blockPlayed_afterTicks` ties it
to the model. -/
structure BlockPlayed (s : State) (gates : List Bool) (t : State) : Prop where
  dac_eq : dacWords t.out = dacWords s.out ++
    (List.range' s.ring.s.toNat gates.length).map fun j => outMap false (s.sampleAt s.ring.c.toNat j)
  recorded : ∀ j (h : j < gates.length), t.maskAt s.ring.c.toNat (s.ring.s.toNat + j) = gates[j]
  kept : ∀ o, o < s.ring.s.toNat → t.maskAt s.ring.c.toNat o = s.maskAt s.ring.c.toNat o
  s_eq : t.ring.s.toNat = 0
  c_eq : t.ring.c.toNat = (s.ring.c.toNat + 1) % s.par.N

section
variable {s : State} {g : Bool} (hw : s.ring.mask.wf = true)
include hw

/-- The last tick of a block. -/
theorem BlockPlayed.of_last_tick (hend : s.ring.s.toNat + 1 = s.par.B) : BlockPlayed s [g] (effectiveTick g s) where
  dac_eq := dacWords_effectiveTick g s
  recorded j hj := by
    obtain rfl : j = 0 := Nat.lt_one_iff.mp hj
    exact maskAt_effectiveTick_current hw g
  kept o ho := maskAt_effectiveTick_earlier hw g ho
  s_eq := (effectiveTick_ends_block g hend).2
  c_eq := by rw [(effectiveTick_ends_block g hend).1, nextSlot_toNat]

/-- One more tick in front, within the block. -/
theorem BlockPlayed.of_tick {gates : List Bool} {t : State} (hin : s.ring.s.toNat + 1 < s.par.B)
    (h : BlockPlayed (effectiveTick g s) gates t) : BlockPlayed s (g :: gates) t := by
  obtain ⟨hdac, hrecorded, hkept, hs, hc⟩ := h
  obtain ⟨hc₁, hs₁, -⟩ := effectiveTick_within_block g hin
  simp only [hc₁, hs₁, effectiveTick_par, effectiveTick_sampleAt] at hdac hrecorded hkept hc
  refine ⟨?_, fun j hj => ?_, fun o ho => ?_, hs, hc⟩
  · rw [hdac, dacWords_effectiveTick, List.length_cons, List.range'_succ, List.map_cons, List.append_assoc]
    rfl
  · cases j with
    | zero => exact (hkept _ (Nat.lt_succ_self _)).trans (maskAt_effectiveTick_current hw g)
    | succ j =>
      have hrest := hrecorded j (Nat.lt_of_succ_lt_succ hj)
      rwa [Nat.add_assoc, Nat.add_comm 1] at hrest
  · exact (hkept o (Nat.lt_succ_of_lt ho)).trans (maskAt_effectiveTick_earlier hw g ho)

end

/-- The ticks left of a block play it to its end (rules R190, R196). -/
theorem blockPlayed_afterTicks {s : State} {g : Bool} {gates : List Bool} (hw : s.ring.mask.wf = true)
    (hlen : s.ring.s.toNat + (g :: gates).length = s.par.B) :
    BlockPlayed s (g :: gates) (afterTicks (g :: gates) s) := by
  induction gates generalizing s g with
  | nil => exact .of_last_tick hw hlen
  | cons g' gates ih =>
    rw [List.length_cons, List.length_cons] at hlen
    have hin : s.ring.s.toNat + 1 < s.par.B := by omega
    obtain ⟨-, hs₁, -⟩ := effectiveTick_within_block g hin
    refine .of_tick hw hin (ih (effectiveTick_mask_wf hw g) ?_)
    rw [hs₁, effectiveTick_par, List.length_cons]; omega

/-- Settles O34: a block has at least one sample, and from offset 0 its ticks play all of it. -/
theorem blockPlaysInOrder : Obligations.BlockPlaysInOrder := by
  intro s gates hen hw hstart hlen
  have hzero : s.ring.s.toNat = 0 := congrArg BitVec.toNat hstart
  obtain ⟨g, gates, rfl⟩ := List.exists_cons_of_ne_nil (List.ne_nil_of_length_pos (hlen ▸ s.par.B_ge))
  obtain ⟨hdac, hrecorded, -, hs, hc⟩ := blockPlayed_afterTicks hw (by rw [hzero, Nat.zero_add, hlen])
  simp only [hzero, hlen, Nat.zero_add, ← List.range_eq_range'] at hdac hrecorded
  exact ⟨_, runAll_ticks _ hen, hdac, fun j hj => hrecorded j (hlen ▸ hj), BitVec.eq_of_toNat_eq hs, hc⟩

end Sys2Proof.Machine
end

section
/-! The arithmetic of the sequencers (45_sequencer.md rules R211, R213 to R215, R221): functions that run
through a cycle when they are iterated, the random index, and the rotation. -/

namespace Sys2Proof.Machine

/-! ### Cycles -/

/-- A remainder steps up, and starts again below the divisor. -/
theorem add_one_mod_eq_ite {d : Nat} (hd : 0 < d) (n : Nat) :
    (n + 1) % d = if n % d + 1 = d then 0 else n % d + 1 := by
  have hlt := Nat.mod_lt n hd
  rw [← Nat.mod_add_mod]
  split
  · next hend => rw [hend, Nat.mod_self]
  · exact Nat.mod_eq_of_lt (by omega)

/-- A function that takes each element of a cycle to the next, and the last to the first, goes round it. -/
theorem iterate_cycle {α : Type} {f : α → α} {orbit : Nat → α} {period : Nat} (hperiod : 0 < period)
    (hstep : ∀ m, m < period → f (orbit m) = orbit (if m + 1 = period then 0 else m + 1)) (n : Nat) :
    f^[n] (orbit 0) = orbit (n % period) := by
  induction n with
  | zero => rw [Nat.zero_mod]; rfl
  | succ n ih =>
    rw [Function.iterate_succ_apply', ih, hstep _ (Nat.mod_lt n hperiod), ← add_one_mod_eq_ite hperiod]

/-! ### The clock divider -/

theorem divideRolls_iff {cnt : BitVec 8} {div : Nat} : divideRolls cnt div = true ↔ max 1 div ≤ cnt.toNat + 1 :=
  decide_eq_true_iff

theorem divideCount_of_count_lt {d m : Nat} (hd : d ≤ 255) (hm : m < d) :
    divideCount (BitVec.ofNat 8 m) d = BitVec.ofNat 8 (if m + 1 = d then 0 else m + 1) := by
  have hcount : (BitVec.ofNat 8 m).toNat = m := by rw [BitVec.toNat_ofNat]; omega
  split
  · exact (divide_of_le (by omega)).2
  · rw [(divide_of_lt (by omega)).2, BitVec.ofNat_add]
    rfl

/-- The count of the divider after `n` calls from 0 (rule R211). -/
theorem iterate_divideCount {d : Nat} (hpos : 1 ≤ d) (hd : d ≤ 255) (n : Nat) :
    ((fun cnt => divideCount cnt d)^[n] 0).toNat = n % d := by
  have hlt := Nat.mod_lt n hpos
  have hcycle := iterate_cycle (f := fun cnt => divideCount cnt d) hpos (fun _ => divideCount_of_count_lt hd) n
  rw [show (0 : BitVec 8) = BitVec.ofNat 8 0 from rfl, hcycle, BitVec.toNat_ofNat]
  omega

/-- Settles O36: from 0 the count is the number of calls modulo DIV, so it rolls over where the next one is 0. -/
theorem dividerRollsEveryDivCalls : Obligations.DividerRollsEveryDivCalls := by
  refine ⟨fun cnt div hdiv => ⟨divide_of_le, fun hlt => ?_⟩, fun d n hpos hd => ?_⟩
  · obtain ⟨hrolls, hcount⟩ := divide_of_lt hlt
    have hfits : cnt.toNat + 1 < 2 ^ 8 := by omega
    exact ⟨hrolls, hcount ▸ BitVec.toNat_add_of_lt (y := 1) hfits⟩
  · have hcount := iterate_divideCount hpos hd n
    refine ⟨hcount, ?_⟩
    rw [divideRolls_iff, hcount, add_one_mod_eq_ite hpos]
    have hlt := Nat.mod_lt n hpos
    split <;> omega

/-! ### The next step in each mode -/

theorem loopNext_eq (i len : Nat) (dir : Bool) :
    loopNext i dir len = (if i + 1 < len then i + 1 else 0, dir) := by
  rcases Nat.lt_or_ge (i + 1) len with h | h
  · rw [loopNext, if_neg (Nat.not_le.mpr h), if_pos h]
  · rw [loopNext, if_pos h, if_neg (Nat.not_lt.mpr h)]

theorem randomNext_lt (r : Word) {len : Nat} (dir : Bool) (hlen : 1 ≤ len) : (randomNext r dir len).1 < len :=
  Nat.div_lt_of_lt_mul (Nat.mul_lt_mul_of_pos_right r.isLt hlen)

/-- Settles O39: the loop is a cycle of LEN steps, and the random index is a floor of a number below LEN. -/
theorem loopAndRandomNext : Obligations.LoopAndRandomNext := by
  refine ⟨loopNext_eq, fun len n hlen => ?_, fun r len dir hlen => ⟨randomNext_lt r dir hlen, rfl, ?_, ?_⟩⟩
  · refine iterate_cycle (orbit := id) hlen (fun m hm => ?_) n
    rw [id, id, loopNext_eq]
    dsimp only
    split_ifs <;> omega
  · exact Nat.div_mul_le_self _ _
  · rw [Nat.mul_comm ((randomNext r dir len).1 + 1)]
    exact Nat.lt_mul_div_succ _ (Nat.two_pow_pos 32)

/-- A step of an ascending swing (rule R214). -/
theorem swingNext_ascending (i : Nat) {len : Nat} (hlen : 1 ≤ len) :
    swingNext i false len = if i + 1 < len - 1 then (i + 1, false) else (len - 1, true) := by
  simp only [swingNext, Bool.false_eq_true, if_false]
  split_ifs
  · omega
  · exact Prod.ext (by omega) rfl
  · rfl
  · omega

/-- A step of a descending swing (rule R214). -/
theorem swingNext_descending (i : Nat) {len : Nat} (hlen : 1 ≤ len) :
    swingNext i true len = if i ≤ 1 ∨ len = 1 then (0, false) else (min (i - 1) (len - 1), true) := by
  simp only [swingNext, if_true]
  split_ifs
  · rfl
  · omega
  · omega
  · exact Prod.ext (by omega) rfl

/-- The index and the direction at each point of one period of the triangle wave up to `top`: descending from the top
on (rule R214). `iterate_swingNext` ties it to the model. -/
def trianglePoint (top m : Nat) : Nat × Bool := (if m < top then m else 2 * top - m, decide (top ≤ m))

theorem trianglePoint_ascending {top m : Nat} (h : m < top) : trianglePoint top m = (m, false) := by
  rw [trianglePoint, if_pos h, decide_eq_false (Nat.not_le.mpr h)]

theorem trianglePoint_descending {top m : Nat} (h : top ≤ m) : trianglePoint top m = (2 * top - m, true) := by
  rw [trianglePoint, if_neg (Nat.not_lt.mpr h), decide_eq_true h]

/-- A step of the swing is a step along the wave. -/
theorem swingNext_trianglePoint {len m : Nat} (hlen : 2 ≤ len) (hm : m < 2 * (len - 1)) :
    swingNext (trianglePoint (len - 1) m).1 (trianglePoint (len - 1) m).2 len =
      trianglePoint (len - 1) (if m + 1 = 2 * (len - 1) then 0 else m + 1) := by
  rcases Nat.lt_or_ge m (len - 1) with hup | hdown
  · rw [trianglePoint_ascending hup, swingNext_ascending m (by omega), if_neg (by omega : m + 1 ≠ 2 * (len - 1))]
    split
    · next hbelow => rw [trianglePoint_ascending hbelow]
    · next htop =>
      obtain rfl : m = len - 2 := by omega
      rw [trianglePoint_descending (by omega)]
      exact Prod.ext (by dsimp only; omega) rfl
  · rw [trianglePoint_descending hdown, swingNext_descending _ (by omega)]
    rcases Nat.lt_or_ge (m + 1) (2 * (len - 1)) with hbelow | hend
    · rw [if_neg (by omega), if_neg (by omega), trianglePoint_descending (by omega)]
      exact Prod.ext (by dsimp only; omega) rfl
    · rw [if_pos (by omega), if_pos (by omega), trianglePoint_ascending (by omega)]

/-- A swing over one step stays there and turns round (rule R214, 90_conflicts.md C2). -/
theorem iterate_swingNext_one (n : Nat) :
    (fun q : Nat × Bool => swingNext q.1 q.2 1)^[n] (0, false) = (0, decide (n % 2 = 1)) := by
  refine iterate_cycle (orbit := fun m => (0, decide (m = 1))) (period := 2) (by omega) (fun m hm => ?_) n
  interval_cases m <;> rfl

theorem iterate_swingNext {len : Nat} (hlen : 2 ≤ len) (n : Nat) :
    (fun q : Nat × Bool => swingNext q.1 q.2 len)^[n] (0, false) =
      trianglePoint (len - 1) (n % (2 * (len - 1))) := by
  rw [← trianglePoint_ascending (show 0 < len - 1 by omega)]
  exact iterate_cycle (by omega) (fun m hm => swingNext_trianglePoint hlen hm) n

/-- Settles O40: the wave is a cycle of `2 * (LEN - 1)` steps. -/
theorem swingIsATriangleWave : Obligations.SwingIsATriangleWave :=
  ⟨fun i _ hlen => ⟨swingNext_ascending i hlen, swingNext_descending i hlen⟩, iterate_swingNext_one,
    fun _ n hlen => iterate_swingNext hlen n⟩

/-! ### The rotation -/

/-- Settles O44: the bits above the lowest one move one place down, below the place where it returns. -/
theorem rotationIsCircular : Obligations.RotationIsCircular := by
  intro len r j hlen
  obtain ⟨top, rfl⟩ : ∃ top, len = top + 1 := ⟨len - 1, by omega⟩
  have hlow : r % 2 ^ (top + 1) / 2 < 2 ^ top := by
    have := Nat.mod_lt r (Nat.two_pow_pos (top + 1))
    rw [Nat.pow_succ] at this ⊢
    omega
  rw [rotateRight, Nat.add_sub_cancel, Nat.add_comm, Nat.mul_comm, Nat.testBit_two_pow_mul_add _ hlow]
  split
  · next hj =>
    rw [← Nat.testBit_succ, Nat.testBit_mod_two_pow, if_pos (by omega), decide_eq_true (by omega), Bool.true_and]
  · next hj =>
    have hlowest : (r % 2).testBit (j - top) = (decide (j - top < 1) && r.testBit (j - top)) :=
      Nat.testBit_mod_two_pow r 1 (j - top)
    rw [if_neg (by omega), hlowest]
    split
    · next htop => rw [decide_eq_true (by omega), Bool.true_and, show j - top = 0 by omega]
    · next hover => rw [decide_eq_false (by omega), Bool.false_and]

end Sys2Proof.Machine
end

section
/-! The meta-sequencer's commands (45_sequencer.md rules R210, R212, R216, R217): SEQ_META_CLOCK branch by branch, then
the obligations about it and SEQ_META_READ. -/

namespace Sys2Proof.Machine

/-! ### Fields of numbers -/

/-- The next count, as long as it is read modulo 2^w. -/
theorem ofNat_toNat_add_one {w : Nat} (v : BitVec w) : BitVec.ofNat w (v.toNat + 1) = v + 1 := by
  rw [BitVec.ofNat_add, BitVec.ofNat_toNat, BitVec.setWidth_eq]
  rfl

/-- A field of a register is a slice of it. -/
theorem bits_eq_toNat_extractLsb' {w : Nat} (v : BitVec w) (hi lo : Nat) :
    bits v hi lo = (v.extractLsb' lo (hi + 1 - lo)).toNat := by
  rw [bits, BitVec.extractLsb'_toNat, Nat.shiftRight_eq_div_pow]

/-- A field put into a register of its own width. -/
theorem ofNat_bits {w : Nat} (v : BitVec w) (hi lo : Nat) :
    BitVec.ofNat (hi + 1 - lo) (bits v hi lo) = v.extractLsb' lo (hi + 1 - lo) := by
  rw [bits_eq_toNat_extractLsb', BitVec.ofNat_toNat, BitVec.setWidth_eq]

/-- Answering a field of a register. -/
theorem respond_bits (s : State) {w : Nat} (v : BitVec w) (hi lo : Nat) :
    s.respond (bits v hi lo) =
      { s with out := s.out ++ [.resp ((v.extractLsb' lo (hi + 1 - lo)).zeroExtend 32)] } := by
  rw [bits_eq_toNat_extractLsb']
  exact respond_zext s _

/-! ### One step of the sequencer -/

/-- The next index and direction are those of the stored mode (rule R212). -/
theorem metaNext_eq_of_mode {s : State} {r : Word} {next : Nat × Bool}
    (h : (s.metaDir = 0 ∧ next = loopNext s.metaSeq.idx.toNat s.metaSeq.dir s.metaLen) ∨
      (s.metaDir = 1 ∧ next = swingNext s.metaSeq.idx.toNat s.metaSeq.dir s.metaLen) ∨
      (s.metaDir = 2 ∧ next = randomNext r s.metaSeq.dir s.metaLen)) : metaNext s r = next := by
  rcases h with ⟨hdir, rfl⟩ | ⟨hdir, rfl⟩ | ⟨hdir, rfl⟩
  all_goals simp only [metaNext, hdir]

/-- What an advance writes: the counters, the next step with its latched fields, the random port in random mode, and
the response (rules R212, R215, R217). -/
theorem metaAdvance_eq {s : State} {n : Nat} {dir : Bool} (hnext : metaNext s (nextRandom s.env) = (n, dir)) :
    metaAdvance s =
      { s with
        metaSeq :=
          { s.metaSeq with
            idx := BitVec.ofNat 7 n, rep := 0, dir := dir
            shape := s.stepShape n, pitch := s.stepPitch n, aux := s.stepAux n }
        env := if s.metaDir = 2 then afterRandom s.env else s.env
        out := s.out ++ [.resp (BitVec.ofNat 32
          (3 + (if s.stepShape n = s.metaSeq.shape then 0 else 4) + n * 256))] } := by
  have hflag : flagBit (decide (s.stepShape n ≠ s.metaSeq.shape)) * 4 =
      if s.stepShape n = s.metaSeq.shape then 0 else 4 := by
    split_ifs with h <;> simp [flagBit, h]
  unfold metaAdvance metaDrawn
  rw [State.drawRandom_word, hnext, ← hflag]
  split_ifs <;> rfl

/-! ### SEQ_META_CLOCK, branch by branch -/

section
variable {s : State}

theorem execSeqMetaClock_of_inactive (t : Bool) (hlen : s.metaLen = 0) :
    execSeqMetaClock t s = .next (s.respond 0) := by
  rw [execSeqMetaClock, if_pos hlen]

theorem execSeqMetaClock_of_untriggered (hlen : s.metaLen ≠ 0) : execSeqMetaClock false s = .next (s.respond 2) := by
  rw [execSeqMetaClock, if_neg hlen, if_pos rfl]

theorem execSeqMetaClock_of_triggered (hlen : s.metaLen ≠ 0) : execSeqMetaClock true s = .next (metaTrigger s) := by
  rw [execSeqMetaClock, if_neg hlen, if_neg Bool.noConfusion]

theorem execSeqMetaClock_of_count (hlen : s.metaLen ≠ 0) (hdiv : s.metaSeq.div.toNat + 1 < max 1 s.metaDiv) :
    execSeqMetaClock true s =
      .next (State.respond { s with metaSeq := { s.metaSeq with div := s.metaSeq.div + 1 } } 2) := by
  obtain ⟨hrolls, hcount⟩ := divide_of_lt hdiv
  rw [execSeqMetaClock_of_triggered hlen, metaTrigger, hrolls, hcount, if_neg Bool.false_ne_true]

/-- The state in which a rollover of the divider acts (rule R212). `execSeqMetaClock_of_rollover` ties it to the
model. -/
def metaRolled (s : State) : State := { s with metaSeq := { s.metaSeq with div := 0 } }

theorem metaRollover_of_repeat (hrep : s.metaSeq.rep.toNat + 1 < max 1 (s.stepRepeat s.metaSeq.idx.toNat)) :
    metaRollover s = State.respond { s with metaSeq := { s.metaSeq with rep := s.metaSeq.rep + 1 } } 2 := by
  rw [metaRollover, if_pos hrep, ofNat_toNat_add_one]

theorem metaRollover_of_advance (hrep : max 1 (s.stepRepeat s.metaSeq.idx.toNat) ≤ s.metaSeq.rep.toNat + 1) :
    metaRollover s = metaAdvance s := by
  rw [metaRollover, if_neg (Nat.not_lt.mpr hrep)]

variable (hlen : s.metaLen ≠ 0) (hdiv : max 1 s.metaDiv ≤ s.metaSeq.div.toNat + 1)
include hlen hdiv

theorem execSeqMetaClock_of_rollover : execSeqMetaClock true s = .next (metaRollover (metaRolled s)) := by
  obtain ⟨hrolls, hcount⟩ := divide_of_le hdiv
  rw [execSeqMetaClock_of_triggered hlen, metaTrigger, hrolls, hcount, if_pos rfl, metaRolled]

theorem execSeqMetaClock_of_repeat
    (hrep : s.metaSeq.rep.toNat + 1 < max 1 (s.stepRepeat s.metaSeq.idx.toNat)) :
    execSeqMetaClock true s =
      .next (State.respond { s with metaSeq := { s.metaSeq with div := 0, rep := s.metaSeq.rep + 1 } } 2) :=
  (execSeqMetaClock_of_rollover hlen hdiv).trans (congrArg _ (metaRollover_of_repeat (s := metaRolled s) hrep))

theorem execSeqMetaClock_of_advance
    (hrep : max 1 (s.stepRepeat s.metaSeq.idx.toNat) ≤ s.metaSeq.rep.toNat + 1) :
    execSeqMetaClock true s = .next (metaAdvance (metaRolled s)) :=
  (execSeqMetaClock_of_rollover hlen hdiv).trans (congrArg _ (metaRollover_of_advance (s := metaRolled s) hrep))

end

/-! ### The obligations -/

/-- Settles O38: branch by branch, the advance by the next step of its mode. -/
theorem seqMetaClockAdvances : Obligations.SeqMetaClockAdvances := by
  refine ⟨fun w hop => ?_, fun t s hidle => ?_, fun s hlen hdiv => execSeqMetaClock_of_count hlen hdiv,
    fun s hlen hdiv hrep => execSeqMetaClock_of_repeat hlen hdiv hrep, fun s n dir hlen hdiv hrep hmode => ?_⟩
  · have hread : (Instr.seqMetaClock (w.getLsbD 0)).ReadsFrom w := rfl
    exact decode_of_readsFrom hread hop.symm
  · split
    · next hlen => exact execSeqMetaClock_of_inactive t hlen
    · next hlen =>
      obtain rfl := hidle.resolve_left hlen
      exact execSeqMetaClock_of_untriggered hlen
  · have hnext := metaNext_eq_of_mode hmode
    have hshape : s.stepShape n = (s.cfgValue (.stepShape (stepEntry n))).extractLsb' 0 8 := ofNat_bits _ 7 0
    rw [← hshape]
    exact (execSeqMetaClock_of_advance hlen hdiv hrep).trans
      (congrArg _ (metaAdvance_eq (s := metaRolled s) hnext))

/-- Settles O42: the packed answer of select 3 is four fields that do not overlap. -/
theorem seqMetaReadSelects : Obligations.SeqMetaReadSelects := by
  refine ⟨fun w hop => ?_, fun s => ⟨?_, ?_, ?_, _, rfl, ?_⟩, fun sel s hsel => ?_⟩
  · have hread : (Instr.seqMetaRead (aField w)).ReadsFrom w := rfl
    exact decode_of_readsFrom hread hop.symm
  · exact congrArg _ (respond_zext s s.metaSeq.shape)
  · exact congrArg _ (respond_zext s s.metaSeq.pitch)
  · exact congrArg _ (respond_zext s s.metaSeq.aux)
  · have hidx := s.metaSeq.idx.isLt
    have hflag := flagBit_le s.metaSeq.dir
    have hrep := s.metaSeq.rep.isLt
    have hdiv := s.metaSeq.div.isLt
    refine ⟨extractLsb'_response (by omega) ?_, getLsbD_response (b := s.metaSeq.dir) (by omega) ?_,
      extractLsb'_response (by omega) ?_, extractLsb'_response (by omega) ?_,
      extractLsb'_response_eq_zero (by omega) ?_⟩
    all_goals simp only [zext]; omega
  · obtain ⟨k, rfl⟩ := Nat.exists_eq_add_of_le' hsel
    rfl

end Sys2Proof.Machine
end

section
/-! The Turing sequencer's commands (45_sequencer.md rules R210, R220 to R225): SEQ_TM_CLOCK branch by branch, then the
obligations about it, about SEQ_TM_READ and about both sequencers. -/

namespace Sys2Proof.Machine

/-! ### The work at the wrap point -/

/-- The register after a wrap, from the fields and the random words it depends on (rules R222, R225).
`tmWrapWork_eq` ties it to the model. -/
def wrappedReg (len reg : Nat) (reseed : Bool) (thresh : Nat) (e : EnvPorts) : Nat :=
  if reseed = true then (nextRandom (afterRandom e)).toNat % 2 ^ len
  else if (nextRandom e).toNat % 65536 < thresh then rotateRight len reg ^^^ 2 ^ (len - 1)
  else rotateRight len reg

/-- The random port after a wrap (rule R222). `tmWrapWork_eq` ties it to the model. -/
def wrappedEnv (reseed : Bool) (e : EnvPorts) : EnvPorts :=
  if reseed = true then afterRandom (afterRandom e) else afterRandom e

theorem tmWrapWork_eq (s : State) :
    tmWrapWork s (rotateRight s.tmLen s.tmSeq.reg.toNat) =
      (wrappedReg s.tmLen s.tmSeq.reg.toNat s.tmReseed s.tmThresh s.env,
        { s with env := wrappedEnv s.tmReseed s.env }) := by
  have hlow : bits (nextRandom s.env) 15 0 = (nextRandom s.env).toNat % 65536 := by
    simp [bits]
  cases hreseed : s.tmReseed with
  | true => simp only [tmWrapWork, hreseed]; rfl
  | false => simp only [tmWrapWork, hreseed, tmFlip, State.drawRandom_word, hlow]; rfl

/-- A wrap leaves no bit at or above LEN (rule R219). -/
theorem wrappedReg_lt {len : Nat} (hlen : 1 ≤ len) (reg : Nat) (reseed : Bool) (thresh : Nat) (e : EnvPorts) :
    wrappedReg len reg reseed thresh e < 2 ^ len := by
  have hrotated := rotateRight_lt len reg hlen
  unfold wrappedReg
  split_ifs
  · exact Nat.mod_lt _ (Nat.two_pow_pos len)
  · exact Nat.xor_lt_two_pow hrotated (Nat.pow_lt_pow_right (by omega) (by omega))
  · exact hrotated

/-! ### An advance -/

section
variable {s : State}

/-- Below the wrap point an advance is the rotation (rules R220, R223). -/
theorem tmAdvance_of_lt (hpos : s.tmSeq.pos.toNat + 1 < s.tmLen) :
    tmAdvance s =
      { s with
        tmSeq :=
          { s.tmSeq with
            reg := BitVec.ofNat 32 (rotateRight s.tmLen s.tmSeq.reg.toNat)
            pos := s.tmSeq.pos + 1
            pitch := tmPitchOf s (rotateRight s.tmLen s.tmSeq.reg.toNat) }
        out := s.out ++ [.resp (BitVec.ofNat 32 (3 + (s.tmSeq.pos.toNat + 1) * 256))] } := by
  have hwraps : tmWraps s = false := decide_eq_false (Nat.not_le.mpr hpos)
  rw [tmAdvance, hwraps, ← ofNat_toNat_add_one]
  rfl

/-- At the wrap point the position starts again, and the register and the random port are those of the work there
(rules R220, R222, R223). -/
theorem tmAdvance_of_wrap (hpos : s.tmLen ≤ s.tmSeq.pos.toNat + 1) {r : Nat}
    (hr : r = wrappedReg s.tmLen s.tmSeq.reg.toNat s.tmReseed s.tmThresh s.env) :
    tmAdvance s =
      { s with
        tmSeq := { s.tmSeq with reg := BitVec.ofNat 32 r, pos := 0, pitch := tmPitchOf s r }
        env := wrappedEnv s.tmReseed s.env
        out := s.out ++ [.resp 7] } := by
  have hwraps : tmWraps s = true := decide_eq_true hpos
  simp only [tmAdvance, hwraps, tmWrapWork_eq, ← hr, if_true]
  rfl

/-! ### SEQ_TM_CLOCK, branch by branch -/

theorem execSeqTmClock_of_inactive (t : Bool) (hlen : s.tmLen = 0) : execSeqTmClock t s = .next (s.respond 0) := by
  rw [execSeqTmClock, if_pos hlen]

theorem execSeqTmClock_of_untriggered (hlen : s.tmLen ≠ 0) : execSeqTmClock false s = .next (s.respond 2) := by
  rw [execSeqTmClock, if_neg hlen, if_pos rfl]

theorem execSeqTmClock_of_triggered (hlen : s.tmLen ≠ 0) : execSeqTmClock true s = .next (tmTrigger s) := by
  rw [execSeqTmClock, if_neg hlen, if_neg Bool.noConfusion]

theorem execSeqTmClock_of_count (hlen : s.tmLen ≠ 0) (hdiv : s.tmSeq.div.toNat + 1 < max 1 s.tmDiv) :
    execSeqTmClock true s =
      .next (State.respond { s with tmSeq := { s.tmSeq with div := s.tmSeq.div + 1 } } 2) := by
  obtain ⟨hrolls, hcount⟩ := divide_of_lt hdiv
  rw [execSeqTmClock_of_triggered hlen, tmTrigger, hrolls, hcount, if_neg Bool.false_ne_true]

/-- The state in which a rollover of the divider acts (rule R220). `execSeqTmClock_of_rollover` ties it to the
model. -/
def tmRolled (s : State) : State := { s with tmSeq := { s.tmSeq with div := 0 } }

variable (hlen : s.tmLen ≠ 0) (hdiv : max 1 s.tmDiv ≤ s.tmSeq.div.toNat + 1)
include hlen hdiv

theorem execSeqTmClock_of_rollover : execSeqTmClock true s = .next (tmAdvance (tmRolled s)) := by
  obtain ⟨hrolls, hcount⟩ := divide_of_le hdiv
  rw [execSeqTmClock_of_triggered hlen, tmTrigger, hrolls, hcount, if_pos rfl, tmRolled]

theorem execSeqTmClock_of_lt (hpos : s.tmSeq.pos.toNat + 1 < s.tmLen) {r : Nat}
    (hr : r = rotateRight s.tmLen s.tmSeq.reg.toNat) :
    execSeqTmClock true s =
      .next { s with
        tmSeq := { reg := BitVec.ofNat 32 r, pos := s.tmSeq.pos + 1, div := 0, pitch := tmPitchOf s r }
        out := s.out ++ [.resp (BitVec.ofNat 32 (3 + (s.tmSeq.pos.toNat + 1) * 256))] } := by
  subst hr
  exact (execSeqTmClock_of_rollover hlen hdiv).trans (congrArg _ (tmAdvance_of_lt (s := tmRolled s) hpos))

theorem execSeqTmClock_of_wrap (hpos : s.tmLen ≤ s.tmSeq.pos.toNat + 1) {r : Nat}
    (hr : r = wrappedReg s.tmLen s.tmSeq.reg.toNat s.tmReseed s.tmThresh s.env) :
    execSeqTmClock true s =
      .next { s with
        tmSeq := { reg := BitVec.ofNat 32 r, pos := 0, div := 0, pitch := tmPitchOf s r }
        env := wrappedEnv s.tmReseed s.env
        out := s.out ++ [.resp 7] } :=
  (execSeqTmClock_of_rollover hlen hdiv).trans (congrArg _ (tmAdvance_of_wrap (s := tmRolled s) hpos hr))

end

/-! ### The pitch -/

/-- A saturated number fits the 16-bit register (rule R223). -/
theorem toInt_toHalf_sat16 (x : Int) : (toHalf (sat16 x)).toInt = max (-32768) (min 32767 x) := by
  rw [sat16, clamp_eq x (by omega)]
  exact BitVec.toInt_ofInt_eq_self (by omega) (by omega) (by omega)

/-! ### The obligations about the Turing sequencer -/

/-- Settles O43: branch by branch, the wrap by its work. -/
theorem seqTmClockAdvances : Obligations.SeqTmClockAdvances := by
  refine ⟨fun w hop => ?_, fun t s hidle => ?_, fun s hlen hdiv => execSeqTmClock_of_count hlen hdiv,
    fun s r hlen hdiv hpos hr => execSeqTmClock_of_lt hlen hdiv hpos hr,
    fun s r hlen hdiv hpos hr => execSeqTmClock_of_wrap hlen hdiv hpos hr, fun s r => toInt_toHalf_sat16 _⟩
  · have hread : (Instr.seqTmClock (w.getLsbD 0)).ReadsFrom w := rfl
    exact decode_of_readsFrom hread hop.symm
  · split
    · next hlen => exact execSeqTmClock_of_inactive t hlen
    · next hlen =>
      obtain rfl := hidle.resolve_left hlen
      exact execSeqTmClock_of_untriggered hlen

/-- Two machines agree on all that a clock of the Turing sequencer reads to find the register (rule R225). -/
structure TmAgree (s₁ s₂ : State) : Prop where
  reg_eq : s₁.tmSeq.reg = s₂.tmSeq.reg
  pos_eq : s₁.tmSeq.pos = s₂.tmSeq.pos
  div_eq : s₁.tmSeq.div = s₂.tmSeq.div
  len_eq : s₁.tmLen = s₂.tmLen
  tmDiv_eq : s₁.tmDiv = s₂.tmDiv
  reseed_eq : s₁.tmReseed = s₂.tmReseed
  thresh_eq : s₁.tmThresh = s₂.tmThresh
  env_eq : s₁.env = s₂.env

/-- They agree again after the clock: they take the same branch, and in each one what is written depends on the
agreed reads alone. -/
theorem TmAgree.of_clock {s₁ s₂ t₁ t₂ : State} {b : Bool} (h : TmAgree s₁ s₂)
    (h₁ : execSeqTmClock b s₁ = .next t₁) (h₂ : execSeqTmClock b s₂ = .next t₂) : TmAgree t₁ t₂ := by
  obtain ⟨hreg, hpos, hdiv, hlen, htmDiv, hreseed, hthresh, henv⟩ := h
  rcases eq_or_ne s₂.tmLen 0 with hinactive | hactive
  · cases (execSeqTmClock_of_inactive b (hlen.trans hinactive)).symm.trans h₁
    cases (execSeqTmClock_of_inactive b hinactive).symm.trans h₂
    exact ⟨hreg, hpos, hdiv, hlen, htmDiv, hreseed, hthresh, henv⟩
  · have hactive₁ : s₁.tmLen ≠ 0 := hlen ▸ hactive
    cases b with
    | false =>
      cases (execSeqTmClock_of_untriggered hactive₁).symm.trans h₁
      cases (execSeqTmClock_of_untriggered hactive).symm.trans h₂
      exact ⟨hreg, hpos, hdiv, hlen, htmDiv, hreseed, hthresh, henv⟩
    | true =>
      rcases Nat.lt_or_ge (s₂.tmSeq.div.toNat + 1) (max 1 s₂.tmDiv) with hcount | hroll
      · cases (execSeqTmClock_of_count hactive₁ (by rwa [hdiv, htmDiv])).symm.trans h₁
        cases (execSeqTmClock_of_count hactive hcount).symm.trans h₂
        exact ⟨hreg, hpos, congrArg (· + 1) hdiv, hlen, htmDiv, hreseed, hthresh, henv⟩
      · have hroll₁ : max 1 s₁.tmDiv ≤ s₁.tmSeq.div.toNat + 1 := by rwa [hdiv, htmDiv]
        rcases Nat.lt_or_ge (s₂.tmSeq.pos.toNat + 1) s₂.tmLen with hlt | hwrap
        · cases (execSeqTmClock_of_lt hactive₁ hroll₁ (by rwa [hpos, hlen]) rfl).symm.trans h₁
          cases (execSeqTmClock_of_lt hactive hroll hlt rfl).symm.trans h₂
          exact ⟨by rw [hreg, hlen], congrArg (· + 1) hpos, rfl, hlen, htmDiv, hreseed, hthresh, henv⟩
        · cases (execSeqTmClock_of_wrap hactive₁ hroll₁ (by rwa [hpos, hlen]) rfl).symm.trans h₁
          cases (execSeqTmClock_of_wrap hactive hroll hwrap rfl).symm.trans h₂
          exact ⟨by rw [hreg, hlen, hreseed, hthresh, henv], rfl, rfl, hlen, htmDiv, hreseed, hthresh,
            by rw [hreseed, henv]⟩

/-- Settles O46: agreement on the reads of R225 is kept by a clock. -/
theorem turingRegisterHasNoHiddenState : Obligations.TuringRegisterHasNoHiddenState := by
  intro s₁ s₂ t₁ t₂ b hreg hpos hdiv hlen htmDiv hreseed hthresh henv h₁ h₂
  have hagree : TmAgree s₁ s₂ := ⟨hreg, hpos, hdiv, hlen, htmDiv, hreseed, hthresh, henv⟩
  have hafter := hagree.of_clock h₁ h₂
  exact ⟨hafter.reg_eq, hafter.pos_eq, hafter.div_eq, hafter.env_eq⟩

/-- Settles O45: the packed answer of select 3 is two fields that do not overlap. -/
theorem seqTmReadSelects : Obligations.SeqTmReadSelects := by
  refine ⟨fun w hop => ?_, fun s => ⟨?_, ?_, ?_, _, rfl, ?_⟩, fun sel s hsel => ?_⟩
  · have hread : (Instr.seqTmRead (aField w)).ReadsFrom w := rfl
    exact decode_of_readsFrom hread hop.symm
  · exact congrArg _ (respond_zext s s.tmSeq.pitch)
  · exact congrArg _ (respond_bits s s.tmSeq.reg 15 0)
  · exact congrArg _ (respond_bits s s.tmSeq.reg 31 16)
  · have hpos := s.tmSeq.pos.isLt
    have hdiv := s.tmSeq.div.isLt
    refine ⟨extractLsb'_response (by omega) ?_, extractLsb'_response_eq_zero (by omega) ?_,
      extractLsb'_response (by omega) ?_, extractLsb'_response_eq_zero (by omega) ?_⟩
    all_goals simp only [zext]; omega
  · obtain ⟨k, rfl⟩ := Nat.exists_eq_add_of_le' hsel
    rfl

/-! ### The obligations about both sequencers -/

/-- Settles O37: the inactive and the untriggered branch of each clock command. -/
theorem sequencersIdleWithoutTrigger : Obligations.SequencersIdleWithoutTrigger :=
  ⟨fun t _ hlen => execSeqMetaClock_of_inactive t hlen, fun t _ hlen => execSeqTmClock_of_inactive t hlen,
    fun _ hlen => execSeqMetaClock_of_untriggered hlen, fun _ hlen => execSeqTmClock_of_untriggered hlen⟩

/-- A number stored in a register is still below any bound it was below. -/
theorem toNat_ofNat_lt {w n bound : Nat} (h : n < bound) : (BitVec.ofNat w n).toNat < bound :=
  (BitVec.toNat_ofNat .. ▸ Nat.mod_le _ _).trans_lt h

/-- Settles O41: the next index, the next position, the rotation and the wrap's work stay below LEN whatever they
start from. -/
theorem sequencersSelfCorrect : Obligations.SequencersSelfCorrect := by
  refine ⟨fun s t hlen hdiv hrep h => ?_, fun s t hlen _ hdiv h => ?_⟩
  · have hactive : s.metaLen ≠ 0 := Nat.ne_of_gt hlen
    cases (execSeqMetaClock_of_advance hactive hdiv hrep).symm.trans h
    exact ⟨metaAdvance_idx_lt (metaRolled s) hactive, rfl, rfl⟩
  · have hactive : s.tmLen ≠ 0 := Nat.ne_of_gt hlen
    rcases Nat.lt_or_ge (s.tmSeq.pos.toNat + 1) s.tmLen with hlt | hwrap
    · cases (execSeqTmClock_of_lt hactive hdiv hlt rfl).symm.trans h
      exact ⟨ofNat_toNat_add_one s.tmSeq.pos ▸ toNat_ofNat_lt hlt, toNat_ofNat_lt (rotateRight_lt _ _ hlen), rfl⟩
    · cases (execSeqTmClock_of_wrap hactive hdiv hwrap rfl).symm.trans h
      exact ⟨hlen, toNat_ofNat_lt (wrappedReg_lt hlen _ _ _ _), rfl⟩

end Sys2Proof.Machine
end

section
/-! The mixer (46_mixer.md): the arithmetic of rates and contributions, each command's effect on an existing and on a
missing slot, then the obligations. Decoding is `decode_of_readsFrom`. -/

namespace Sys2Proof.Machine

/-! ### Attack and decay -/

section
variable {r q : Nat}

/-- The doubling and the shift by 8 of rule R252 are a shift by 7. -/
theorem attackOf_eq_div : attackOf r q = r * (1 + q) / 128 := by
  rw [attackOf, Nat.mul_assoc]
  exact Nat.mul_div_mul_left _ 128 Nat.two_pos

theorem decayOf_eq_div : decayOf r q = r * (128 - q) / 128 := by
  rw [decayOf, Nat.mul_assoc]
  exact Nat.mul_div_mul_left _ 128 Nat.two_pos

end

/-- Settles O48: the sum of the two fractions bounds each of them. -/
theorem attackAndDecayShareTheRate : Obligations.AttackAndDecayShareTheRate := by
  intro r q hr hq
  obtain ⟨-, -, hsum⟩ := attackOf_add_decayOf hr hq
  exact ⟨rfl, rfl, attackOf_eq_div, decayOf_eq_div, by omega, by omega, hsum⟩

/-! ### The rate of a slot -/

section
variable (s : State) (k : Fin 2) (cv : Half)

theorem bits_low {w : Nat} (v : BitVec w) (hi : Nat) : bits v hi 0 = v.toNat % 2 ^ (hi + 1) := by
  rw [bits, pow_zero, Nat.div_one, Nat.sub_zero]

theorem modRate_eq_mod : s.modRate k = (s.cfgValue (.modRate k)).toNat % 128 := bits_low _ 6

theorem crossTerm_eq_div :
    crossTerm s = ((s.slot 0).level.toNat : Int) * (s.cfgValue .xmodDepth).toInt / 16777216 := rfl

/-- The rate of rule R254: the sum clamped, then inverted. -/
theorem rateOf_eq {x : Int} (hx : rateBeforeClamp s k cv = x) :
    rateOf s k cv =
      if s.slotKind k = .lfo ∧ s.rateInv k = true then 127 - (max 0 (min 127 x)).toNat
      else (max 0 (min 127 x)).toNat := by
  rw [rateOf, hx, clamp_eq x (by norm_num)]

theorem ratedSlot_rate : (ratedSlot s k cv).rate.toNat = rateOf s k cv :=
  Nat.mod_eq_of_lt (Nat.lt_succ_of_le (rateOf_le s k cv))

theorem modRatio_le : s.modRatio k ≤ 127 := Nat.le_of_lt_succ (bits_lt _ 6 0)

theorem ratedSlot_atk : (ratedSlot s k cv).atk.toNat = attackOf (rateOf s k cv) (s.modRatio k) := by
  obtain ⟨hatk, -, -⟩ := attackOf_add_decayOf (rateOf_le s k cv) (modRatio_le s k)
  exact Nat.mod_eq_of_lt (Nat.lt_succ_of_le hatk)

theorem ratedSlot_dec : (ratedSlot s k cv).dec.toNat = decayOf (rateOf s k cv) (s.modRatio k) := by
  obtain ⟨-, hdec, -⟩ := attackOf_add_decayOf (rateOf_le s k cv) (modRatio_le s k)
  exact Nat.mod_eq_of_lt (Nat.lt_succ_of_le hdec)

end

/-! ### Replacing a slot -/

theorem slot_withSlot_same (s : State) (k : Fin 2) (m : MixSlot) : (s.withSlot k m).slot k = m := by
  rw [slot_withSlot, if_pos rfl]

theorem slot_withSlot_ne (s : State) {k j : Fin 2} (h : j ≠ k) (m : MixSlot) :
    (s.withSlot k m).slot j = s.slot j := by
  rw [slot_withSlot, if_neg h]

/-! ### The commands on a slot, present or missing -/

section
variable {s : State} {k : Fin 2} {slot : Nat} {x : Half}

/-- MIX_RATE answers the registers it stores, and the kind. -/
theorem exec_mixRate_of_slot :
    exec (.mixRate k x) s =
      .next ((s.withSlot k (ratedSlot s k x)).respond
        ((ratedSlot s k x).rate.toNat + (ratedSlot s k x).atk.toNat * 256 + (ratedSlot s k x).dec.toNat * 65536
          + kindCode (s.slotKind k) * 16777216)) := by
  rw [ratedSlot_rate, ratedSlot_atk, ratedSlot_dec]
  exact congrArg _ (dif_pos k.isLt)

theorem exec_mixRate_of_missing (h : 2 ≤ slot) : exec (.mixRate slot x) s = .next (s.reject .rng) :=
  congrArg _ (dif_neg (Nat.not_lt.mpr h))

theorem exec_mixLevel_of_slot :
    exec (.mixLevel k x) s = .next ((s.withSlot k { s.slot k with level := x }).respond 0) :=
  congrArg _ (dif_pos k.isLt)

theorem exec_mixLevel_of_missing (h : 2 ≤ slot) : exec (.mixLevel slot x) s = .next (s.reject .rng) :=
  congrArg _ (dif_neg (Nat.not_lt.mpr h))

theorem exec_mixRead_packed : exec (.mixRead (5 + k)) s = .next (s.respond (slotPacked (s.slot k))) :=
  match k with
  | 0 => rfl
  | 1 => rfl

theorem exec_mixRead_level : exec (.mixRead (7 + k)) s = .next (s.respond (zext (s.slot k).level)) :=
  match k with
  | 0 => rfl
  | 1 => rfl

end

/-! ### Contributions -/

/-- The shift by 15 (rule R256), and the sign of mode 2 after it (rule R258). -/
theorem contribution_of_rendering {s : State} {k : Fin 2} (h : s.slotKind k ≠ .off) (signal depth : Int) :
    contribution s k signal depth =
      if s.modMode k = 2 then -(signal * depth / 32768) else signal * depth / 32768 := by
  rw [contribution, if_neg h, polarity]
  split
  · exact Int.neg_one_mul _
  · exact Int.one_mul _

theorem contribution_of_off {s : State} {k : Fin 2} (h : s.slotKind k = .off) (signal depth : Int) :
    contribution s k signal depth = 0 := if_pos h

/-- A slot contributes to timbre, color and gain at most its level either way: a depth has 15 bits and a sign. -/
theorem contribution_level_bounds (s : State) (k : Fin 2) (level depth : Half) :
    -65535 ≤ contribution s k (level.toNat : Int) depth.toInt ∧
      contribution s k (level.toNat : Int) depth.toInt ≤ 65535 := by
  have hprod : |(level.toNat : Int) * depth.toInt| ≤ 65535 * 2 ^ 15 := by
    rw [abs_mul]
    have hlevel : |(level.toNat : Int)| ≤ 65535 := by
      have := level.isLt
      rw [Nat.abs_cast]
      omega
    exact mul_le_mul hlevel (sext16_abs_le depth) (abs_nonneg _) (by norm_num)
  obtain ⟨hlo, hhi⟩ := abs_le.mp hprod
  by_cases hoff : s.slotKind k = .off
  · rw [contribution_of_off hoff]
    omega
  · rw [contribution_of_rendering hoff]
    split <;> omega

theorem contribution_bipolar_bounds (s : State) (k : Fin 2) (level depth : Half) :
    -32768 ≤ contribution s k ((level.toNat : Int) - 32767) depth.toInt ∧
      contribution s k ((level.toNat : Int) - 32767) depth.toInt ≤ 32768 := by
  have hlevel := level.isLt
  exact contribution_bounds s k (abs_le.mpr ⟨by omega, by omega⟩) (sext16_abs_le depth)

/-- What timbre, color and gain are sums of: a base and two contributions of levels. -/
theorem base_add_contributions_bounds (s : State) (base level₀ depth₀ level₁ depth₁ : Half) :
    -131070 ≤ (base.toNat : Int) + contribution s 0 level₀.toNat depth₀.toInt
        + contribution s 1 level₁.toNat depth₁.toInt ∧
      (base.toNat : Int) + contribution s 0 level₀.toNat depth₀.toInt
        + contribution s 1 level₁.toNat depth₁.toInt ≤ 196605 := by
  have hbase := base.isLt
  obtain ⟨hlo₀, hhi₀⟩ := contribution_level_bounds s 0 level₀ depth₀
  obtain ⟨hlo₁, hhi₁⟩ := contribution_level_bounds s 1 level₁ depth₁
  omega

/-- Settles O51: a product of a level and a depth loses its 15 bits to the shift, and the sums add the bounds up. -/
theorem contributionsFollowTheDepths : Obligations.ContributionsFollowTheDepths := by
  refine ⟨fun s k signal depth hoff => contribution_of_off hoff signal depth, fun s k signal depth hon => ?_,
    fun s k level depth => ?_, fun s => ?_⟩
  · have hmode : s.modMode k = (s.cfgValue (.modCtrl k)).toNat % 8 := bits_low _ 2
    rw [← hmode]
    exact contribution_of_rendering hon signal depth
  · obtain ⟨hlo, hhi⟩ := contribution_level_bounds s k level depth
    exact ⟨hlo, hhi, contribution_bipolar_bounds s k level depth⟩
  · obtain ⟨hloT, hhiT⟩ : -131070 ≤ timbreSum s ∧ timbreSum s ≤ 196605 :=
      base_add_contributions_bounds s _ _ _ _ _
    obtain ⟨hloC, hhiC⟩ : -131070 ≤ colorSum s ∧ colorSum s ≤ 196605 :=
      base_add_contributions_bounds s _ _ _ _ _
    obtain ⟨hloG, hhiG⟩ : -131070 ≤ gainSum s ∧ gainSum s ≤ 196605 :=
      base_add_contributions_bounds s _ _ _ _ _
    exact ⟨hloT, hhiT, hloC, hhiC, hloG, hhiG, vibratoSum_bounds s⟩

/-! ### The outputs -/

/-- A number clamped to an unsigned range of 16 bits fits the register. -/
theorem toNat_toHalf_clamp (x : Int) {hi : Int} (hpos : 0 ≤ hi) (hle : hi ≤ 65535) :
    ((toHalf (clamp x 0 hi)).toNat : Int) = max 0 (min hi x) := by
  rw [clamp_eq x hpos, toHalf, BitVec.toNat_ofInt]
  omega

/-- Settles O50: timbre, color and gain fit their registers once clamped, the vibrato as it is. -/
theorem mixCombineClampsTheSums : Obligations.MixCombineClampsTheSums := by
  refine ⟨fun w hop => ?_, fun s T C G V L₀ L₁ hL₀ hL₁ hT hC hG hV => ?_⟩
  · have hread : Instr.mixCombine.ReadsFrom w := trivial
    exact decode_of_readsFrom hread hop.symm
  · subst hL₀ hL₁
    obtain rfl : T = timbreSum s := hT
    obtain rfl : C = colorSum s := hC
    obtain rfl : G = gainSum s := hG
    obtain rfl : V = vibratoSum s := hV
    have hmax := s.par.paramMax_le
    exact ⟨_, rfl, toNat_toHalf_clamp _ (by omega) (by omega), toNat_toHalf_clamp _ (by omega) (by omega),
      toNat_toHalf_clamp _ (by omega) (by omega), mixCombined_vib_toInt s, respond_zext (mixCombined s) _⟩

/-! ### MIX_RATE, MIX_LEVEL, MIX_READ -/

/-- Settles O47: the registers of `ratedSlot`, each wide enough for its number. -/
theorem mixRateDerivesTheSlot : Obligations.MixRateDerivesTheSlot := by
  refine ⟨fun w hop => ?_, fun k cv s x c r hx hc hr => ?_, fun slot cv s h => exec_mixRate_of_missing h⟩
  · have hread : (Instr.mixRate (aField w) (w.extractLsb' 0 16)).ReadsFrom w := ⟨rfl, rfl⟩
    exact decode_of_readsFrom hread hop.symm
  · have hsum : rateBeforeClamp s k cv = x := by
      rw [hx, ← modRate_eq_mod, ← crossTerm_eq_div]
      rfl
    have hrate : rateOf s k cv = r := by rw [hr, hc, rateOf_eq s k cv hsum]
    refine ⟨_, exec_mixRate_of_slot, ?_⟩
    simp only [slot_respond, slot_withSlot_same]
    refine ⟨?_, ?_, ?_, rfl, fun j hj => slot_withSlot_ne s hj _, ?_⟩
    · rw [ratedSlot_rate, hrate]
    · rw [ratedSlot_atk, hrate]
      rfl
    · rw [ratedSlot_dec, hrate]
      rfl
    · rw [ratedSlot_rate, hrate]
      rfl

/-- Settles O49: one field of one slot is replaced. -/
theorem mixLevelHoldsTheLevel : Obligations.MixLevelHoldsTheLevel := by
  refine ⟨fun w hop => ?_, fun k level s => ?_, fun slot level s h => exec_mixLevel_of_missing h⟩
  · have hread : (Instr.mixLevel (aField w) (w.extractLsb' 0 16)).ReadsFrom w := ⟨rfl, rfl⟩
    exact decode_of_readsFrom hread hop.symm
  · exact ⟨_, exec_mixLevel_of_slot, slot_withSlot_same s k _, fun j hj => slot_withSlot_ne s hj _, rfl⟩

/-- Settles O52: the packed answer of selects 5 and 6 is three fields that do not overlap. -/
theorem mixReadSelects : Obligations.MixReadSelects := by
  refine ⟨fun w hop => ?_, fun s => ⟨?_, ?_, ?_, ?_, ?_⟩, fun s k => ⟨_, exec_mixRead_packed, ?_⟩,
    fun s k => ?_, fun sel s hsel => ?_⟩
  · have hread : (Instr.mixRead (aField w)).ReadsFrom w := rfl
    exact decode_of_readsFrom hread hop.symm
  · exact congrArg _ (respond_zext s s.mix.timbre)
  · exact congrArg _ (respond_zext s s.mix.color)
  · exact congrArg _ (respond_zext s s.mix.gain)
  · exact congrArg _ (respond_bits s s.mix.vib 15 0)
  · exact congrArg _ (respond_bits s s.mix.vib 31 16)
  · have hrate := (s.slot k).rate.isLt
    have hatk := (s.slot k).atk.isLt
    have hdec := (s.slot k).dec.isLt
    refine ⟨extractLsb'_response (by omega) ?_, extractLsb'_response_eq_zero (by omega) ?_,
      extractLsb'_response (by omega) ?_, extractLsb'_response_eq_zero (by omega) ?_,
      extractLsb'_response (by omega) ?_, extractLsb'_response_eq_zero (by omega) ?_⟩
    all_goals simp only [slotPacked, zext]; omega
  · exact exec_mixRead_level.trans (congrArg _ (respond_zext s _))
  · obtain ⟨n, rfl⟩ := Nat.exists_eq_add_of_le' hsel
    rfl

/-! ### The block order -/

/-- A command replaced slot `k` by `m` and left the other slot, the configuration and the parameters alone. -/
structure SlotReplaced (s : State) (k : Fin 2) (m : MixSlot) (t : State) : Prop where
  cfg_eq : t.cfg = s.cfg
  par_eq : t.par = s.par
  slot_same : t.slot k = m
  slot_ne : ∀ j, j ≠ k → t.slot j = s.slot j

theorem slotReplaced_respond (s : State) (k : Fin 2) (m : MixSlot) (n : Nat) :
    SlotReplaced s k m ((s.withSlot k m).respond n) where
  cfg_eq := rfl
  par_eq := rfl
  slot_same := slot_withSlot_same s k m
  slot_ne _ hj := slot_withSlot_ne s hj m

theorem exec_mixRate_replaces (k : Fin 2) (cv : Half) (s : State) :
    ∃ t, exec (.mixRate k cv) s = .next t ∧ SlotReplaced s k (ratedSlot s k cv) t :=
  ⟨_, exec_mixRate_of_slot, slotReplaced_respond s k _ _⟩

theorem exec_mixLevel_replaces (k : Fin 2) (level : Half) (s : State) :
    ∃ t, exec (.mixLevel k level) s = .next t ∧ SlotReplaced s k { s.slot k with level := level } t :=
  ⟨_, exec_mixLevel_of_slot, slotReplaced_respond s k _ _⟩

/-- The rate of slot 1 depends on the configuration, the parameters and the level of slot 0, and on nothing else that
the commands before it in a block may write (rule R253). -/
theorem rateOf_one_of_level {s u : State} (hcfg : u.cfg = s.cfg) (hpar : u.par = s.par) {level : Half}
    (hlevel : (u.slot 0).level = level) (cv : Half) {x : Int}
    (hx : x = (s.modRate 1 : Int) + (if s.route = 2 then cv.toInt else 0)
      + (level.toNat : Int) * (s.cfgValue .xmodDepth).toInt / 16777216) :
    rateOf u 1 cv =
      if s.slotKind 1 = .lfo ∧ s.rateInv 1 = true then 127 - (max 0 (min 127 x)).toNat
      else (max 0 (min 127 x)).toNat := by
  have hsum : rateBeforeClamp u 1 cv = x := by
    rw [hx, rateBeforeClamp, crossTerm_eq_div, modRate_congr hcfg hpar, route_congr hcfg hpar,
      cfgValue_congr hcfg hpar, hlevel]
    rfl
  rw [rateOf_eq u 1 cv hsum, slotKind_congr hcfg hpar, rateInv_congr hcfg hpar]

/-- Settles O57: MIX_LEVEL 0 comes between MIX_RATE 0 and MIX_RATE 1, and nothing later writes that level or that
rate. -/
theorem mixBlockUsesThisBlocksLevel : Obligations.MixBlockUsesThisBlocksLevel := by
  intro s cv0 level0 cv1 level1
  have h01 : (0 : Fin 2) ≠ 1 := by decide
  obtain ⟨a, hrate0, ha⟩ := exec_mixRate_replaces 0 cv0 s
  obtain ⟨b, hlevel0, hb⟩ := exec_mixLevel_replaces 0 level0 a
  obtain ⟨c, hrate1, hc⟩ := exec_mixRate_replaces 1 cv1 b
  obtain ⟨d, hlevel1, hd⟩ := exec_mixLevel_replaces 1 level1 c
  have hb0 : (b.slot 0).level = level0 := by rw [hb.slot_same]
  have hd0 : d.slot 0 = b.slot 0 := (hd.slot_ne 0 h01).trans (hc.slot_ne 0 h01)
  have hrun : runAll (mixBlock cv0 level0 cv1 level1) s =
      .next ((mixCombined d).respond (zext (mixCombined d).mix.gain)) :=
    calc runAll (mixBlock cv0 level0 cv1 level1) s
      _ = runAll [.mixLevel 0 level0, .mixRate 1 cv1, .mixLevel 1 level1, .mixCombine] a := runAll_cons hrate0
      _ = runAll [.mixRate 1 cv1, .mixLevel 1 level1, .mixCombine] b := runAll_cons hlevel0
      _ = runAll [.mixLevel 1 level1, .mixCombine] c := runAll_cons hrate1
      _ = runAll [.mixCombine] d := runAll_cons hlevel1
      _ = .next ((mixCombined d).respond (zext (mixCombined d).mix.gain)) := runAll_cons rfl
  refine ⟨_, hrun, ?_, ?_, fun x hx => ?_⟩
  · rw [slot_respond, slot_mixCombined, hd0, hb0]
  · rw [slot_respond, slot_mixCombined, hd.slot_same]
  · rw [slot_respond, slot_mixCombined, hd.slot_same, hc.slot_same]
    exact (ratedSlot_rate b 1 cv1).trans
      (rateOf_one_of_level (hb.cfg_eq.trans ha.cfg_eq) (hb.par_eq.trans ha.par_eq) hb0 cv1 hx)

end Sys2Proof.Machine
end

section
/-! Steps about more than one word, and about the reset line (60_exceptions.md rules R280, R285,
70_reset_and_hazards.md rules R310, R311). -/

namespace Sys2Proof.Machine

/-! ### Every step completes -/

theorem step_next (s : State) : ∃ t, step s = .next t := by
  unfold step
  split
  · exact ⟨_, rfl⟩
  · exact ⟨_, rfl⟩
  · next port w t _ => exact runWord_next port w t

theorem step_of_nothing_presented {s : State} (h : s.inbox = []) : step s = .next s := by
  have htake : takeEvent s = (.idle, s) := by simp only [takeEvent, h]
  simp only [step, htake]

/-- Settles O10: the step of each event has a next state, and with an empty inbox the event is the idle one. -/
theorem everyStepCompletes : Obligations.EveryStepCompletes :=
  ⟨step_next, fun _ h => step_of_nothing_presented h⟩

/-! ### A tick and a command in one instant -/

/-- A word that runs takes nothing more from the ports. -/
theorem runWord_inbox {port : Port} {w : Word} {s t : State} (h : runWord port w s = .next t) :
    t.inbox = s.inbox := by
  unfold runWord at h
  split at h
  · exact (exec_effect h).keeps_par_inbox.2
  · cases h
    cases port with
    | P | T => rfl

/-- A tick presented with a command runs first, and the command stays presented (rule R285). -/
theorem step_of_tick_and_command {s : State} {tw cw : Word} {rest : List Instant}
    (h : s.inbox = { tick := some tw, command := some cw } :: rest) :
    step s = runWord .T tw { s with inbox := { command := some cw } :: rest } := by
  have htake : takeEvent s = (.word .T tw, { s with inbox := { command := some cw } :: rest }) := takeEvent_cons h
  simp only [step, htake]

/-- Settles O7: the tick's step leaves the command's instant at the head of the inbox. -/
theorem tickGoesBeforeTheCommand : Obligations.TickGoesBeforeTheCommand := by
  intro s tw cw rest h
  obtain ⟨t, hrun⟩ := runWord_next .T tw { s with inbox := { command := some cw } :: rest }
  have hinbox : t.inbox = Instant.ofWord .P cw :: rest := runWord_inbox hrun
  exact ⟨t, hrun, (step_of_tick_and_command h).trans hrun, step_of_ofWord hinbox⟩

/-! ### The reset line -/

/-- An instant with the reset line asserted resets the machine, and its words are lost (rule R311). -/
theorem step_of_reset {s : State} {i : Instant} {rest : List Instant} (h : s.inbox = i :: rest)
    (hreset : i.reset = true) : step s = .next (applyReset { s with inbox := rest }) := by
  have hevent : i.event = (.reset, []) := if_pos hreset
  have htake : takeEvent s = (.reset, { s with inbox := rest }) := by
    rw [takeEvent_cons h, hevent, List.nil_append]
  simp only [step, htake]

/-- RESET_C fits the index's 8 bits, for a ring has at most 256 slots. -/
theorem applyReset_c_toNat (s : State) : (applyReset s).ring.c.toNat = s.par.N / 2 := by
  have hN := s.par.N_le
  exact (BitVec.toNat_ofNat _ _).trans (Nat.mod_eq_of_lt (show s.par.N / 2 < 2 ^ 8 by omega))

theorem applyReset_slot (s : State) (k : Fin 2) :
    (applyReset s).slot k = { rate := 0, atk := 0, dec := 0, level := 0 } :=
  Vector.getElem_replicate k.isLt

/-- No configuration register is stored after reset, so each RW register reads its reset value 0 (rule R310). -/
theorem applyReset_cfgValue (s : State) {r : CfgReg} (hr : cfgReadOnly r = false) : (applyReset s).cfgValue r = 0 :=
  cfgValue_of_readWrite (applyReset s) r hr

/-- Settles O8: the reset state, unit by unit; the RO registers read the parameters, which are kept. -/
theorem resetLineResets : Obligations.ResetLineResets := by
  intro s i rest h hreset
  obtain ⟨hN, hB, hscan⟩ := cfgValue_parameters (applyReset { s with inbox := rest })
  exact ⟨_, step_of_reset h hreset, rfl, applyReset_c_toNat _, rfl, fun _ _ => ⟨rfl, rfl⟩, rfl, rfl,
    fun k => Vector.getElem_replicate k.isLt, rfl, rfl, applyReset_slot _, rfl, rfl, rfl, rfl, rfl,
    fun _ hr => applyReset_cfgValue _ hr, rfl, hN, hB, hscan, rfl⟩

/-- After reset the producer stands on slot 0 and the consumer on slot N/2: the slots behind it wait (rule R311). -/
theorem waiting_applyReset (s : State) : waiting (applyReset s) = s.par.N - 1 - s.par.N / 2 := by
  have hlegal := inv_applyReset s
  have hp : (applyReset s).ring.p.toNat = 0 := rfl
  have hpar : (applyReset s).par = s.par := rfl
  rw [waiting_cases _ hlegal.p_lt hlegal.c_lt, hp, applyReset_c_toNat, hpar, if_neg (Nat.not_lt_zero _)]
  omega

/-- Settles O9: reset touches neither what is presented later nor the environment nor the output log. -/
theorem resetLosesItsWordsAndKeepsThePorts : Obligations.ResetLosesItsWordsAndKeepsThePorts := by
  intro s i rest h hreset
  exact ⟨_, step_of_reset h hreset, waiting_applyReset _, rfl, rfl, rfl⟩

/-- Settles O58, by the lemma that O59 rests on for a step that resets. -/
theorem resetStateIsLegal : Obligations.ResetStateIsLegal := inv_resetWith

end Sys2Proof.Machine
end

section
/-! The error register and the responses (60_exceptions.md rules R281 to R284): when a tick underruns, and for every
command the cause it raises, with the one answer it gives. -/

namespace Sys2Proof.Machine

/-! ### Underrun -/

/-- No slot waits exactly when the producer's slot is the consumer's next one (10_state.md rule R27). -/
theorem waiting_eq_zero_iff {s : State} (hp : s.ring.p.toNat < s.par.N) (hc : s.ring.c.toNat < s.par.N) :
    waiting s = 0 ↔ (s.ring.c.toNat + 1) % s.par.N = s.ring.p.toNat := by
  rw [waiting_cases s hp hc, ← nextSlot_toNat, nextSlot_toNat_of_lt s.par hc]
  split_ifs <;> omega

/-- Settles O33: at the end of a block the consumer moves to its next slot, which is the producer's exactly when none
waits. -/
theorem underrunExactlyWhenNoSlotWaits : Obligations.UnderrunExactlyWhenNoSlotWaits := by
  intro s t g hen hp hc h
  cases (execTick_of_tickEn g hen).symm.trans h
  have hnone := waiting_eq_zero_iff hp hc
  refine ⟨?_, fun hend hwait => ⟨?_, effectiveTick_p g s⟩⟩
  · simp only [effectiveTick_err_of_meeting, hnone]
  · rw [(effectiveTick_ends_block g hend).1, nextSlot_eq_iff]
    exact hnone.mp hwait

/-! ### What a tick raises and answers -/

theorem responses_append (a b : List PortOut) : responses (a ++ b) = responses a ++ responses b :=
  List.filterMap_append

/-- A tick writes to the DAC and the UI port, never to the response port (rule R281). -/
theorem responses_effectiveTick (g : Bool) (s : State) : responses (effectiveTick g s).out = responses s.out := by
  have hdac (v : Half) : responses [.dac v] = [] := rfl
  have hui (c : Prop) [Decidable c] (v : Vector Half 4) : responses (if c then [.ui v] else []) = [] := by
    split <;> rfl
  rw [effectiveTick_out, responses_append, responses_append, hdac, hui, List.append_nil, List.append_nil]

/-- An enabled tick raises UDR, or nothing (rule R283). -/
theorem effectiveTick_err_eq_errAfter (g : Bool) {s : State} (hen : s.tickEn = true) :
    (effectiveTick g s).err = errAfter s.err (errorCause s (.tick g)) := by
  simp only [effectiveTick_err_of_meeting, errorCause, hen, true_and]
  split <;> rfl

theorem errorCause_tick_of_disabled (g : Bool) {s : State} (hdis : s.tickEn = false) :
    errorCause s (.tick g) = none :=
  if_neg fun h => Bool.false_ne_true (hdis.symm.trans h.1)

theorem exec_tick_errors (g : Bool) (s : State) : ∃ t, exec (.tick g) s = .next t ∧
    t.err = errAfter s.err (errorCause s (.tick g)) ∧ responses t.out = responses s.out := by
  cases hen : s.tickEn with
  | true =>
    exact ⟨_, execTick_of_tickEn g hen, effectiveTick_err_eq_errAfter g hen, responses_effectiveTick g s⟩
  | false =>
    exact ⟨_, execTick_of_not_tickEn g hen, by rw [errorCause_tick_of_disabled g hen, errAfter], rfl⟩

/-! ### What a command raises and answers -/

/-- The command sets the err bit of its cause and no other (ERR_CLEAR apart, which writes `err` itself), and answers
once, with the E bit exactly when it has a cause (rule R281). -/
def AnswersOnce (i : Instr) (s : State) : Prop :=
  ∃ t, exec i s = .next t ∧ ((∀ mask, i ≠ .errClear mask) → t.err = errAfter s.err (errorCause s i)) ∧
    ∃ r : Word, t.out = s.out ++ [.resp r] ∧ r.getLsbD 31 = (errorCause s i).isSome

section
variable {i : Instr} {s t : State} {cause : Option ErrCause} {n : Nat}

/-- The E bit is bit 31 of the number answered (30_encoding.md rule R102). -/
theorem answersOnce_of_next (hcause : errorCause s i = cause) (hexec : exec i s = .next t)
    (herr : (∀ mask, i ≠ .errClear mask) → t.err = errAfter s.err cause)
    (hout : t.out = s.out ++ [.resp (BitVec.ofNat 32 n)]) (hbit : n / 2 ^ 31 % 2 = flagBit cause.isSome) :
    AnswersOnce i s := by
  subst hcause
  exact ⟨t, hexec, herr, _, hout, getLsbD_response (by decide) hbit⟩

/-- A command with no cause leaves `err` and answers a number of 31 bits. -/
theorem answersOnce_of_ok (hcause : errorCause s i = none) (hexec : exec i s = .next t) (herr : t.err = s.err)
    (hout : t.out = s.out ++ [.resp (BitVec.ofNat 32 n)]) (hn : n < 2 ^ 31) : AnswersOnce i s :=
  answersOnce_of_next hcause hexec (fun _ => herr) hout (by rw [Nat.div_eq_of_lt hn]; rfl)

/-- A rejected command raises its cause and answers the E bit alone. -/
theorem answersOnce_of_reject {cause : ErrCause} (hcause : errorCause s i = some cause)
    (hexec : exec i s = .next (s.reject cause)) : AnswersOnce i s :=
  answersOnce_of_next hcause hexec (fun _ => rfl) rfl rfl

end

/-! ### Answers of 31 bits -/

/-- A register narrower than a word leaves the E bit alone. -/
theorem zext_lt {w : Nat} (v : BitVec w) (hw : w ≤ 31) : zext v < 2 ^ 31 :=
  v.isLt.trans_le (Nat.pow_le_pow_right (by decide) hw)

theorem bits_lt_of_le {w : Nat} (v : BitVec w) {hi lo : Nat} (h : hi + 1 - lo ≤ 31) : bits v hi lo < 2 ^ 31 :=
  (bits_lt v hi lo).trans_le (Nat.pow_le_pow_right (by decide) h)

theorem slotPacked_lt (m : MixSlot) : slotPacked m < 2 ^ 31 := by
  have hrate := m.rate.isLt
  have hatk := m.atk.isLt
  have hdec := m.dec.isLt
  simp only [slotPacked, zext]
  omega

theorem kindCode_le (k : Kind) : kindCode k ≤ 2 := by
  cases k <;> decide

/-! ### The commands, unit by unit -/

section
variable (s : State)

theorem answersOnce_nop : AnswersOnce .nop s := answersOnce_of_ok rfl rfl rfl rfl (by decide)

theorem answersOnce_errRead : AnswersOnce .errRead s := answersOnce_of_ok rfl rfl rfl rfl (zext_lt s.err (by decide))

theorem answersOnce_errClear (mask : BitVec 5) : AnswersOnce (.errClear mask) s :=
  answersOnce_of_next rfl rfl (fun h => absurd rfl (h mask)) rfl
    (by rw [Nat.div_eq_of_lt (zext_lt (errCleared s.err mask) (by decide))]; rfl)

theorem answersOnce_cfgRead (a : Nat) : AnswersOnce (.cfgRead a) s := by
  cases h : cfgRegister a with
  | none => exact answersOnce_of_reject (if_pos h) (execCfgRead_of_unmapped h s)
  | some r =>
    exact answersOnce_of_ok (if_neg (h ▸ Option.some_ne_none r)) (execCfgRead_of_mapped h s) rfl rfl
      (zext_lt (s.cfgValue r) (by decide))

theorem answersOnce_cfgWrite (a : Nat) (v : Half) : AnswersOnce (.cfgWrite a v) s := by
  cases h : cfgRegister a with
  | none => exact answersOnce_of_reject (by simp only [errorCause, h]) (execCfgWrite_of_unmapped v s h)
  | some r =>
    cases hr : cfgReadOnly r with
    | true =>
      exact answersOnce_of_reject (by simp only [errorCause, h, hr, if_true]) (execCfgWrite_of_readOnly v s h hr)
    | false =>
      exact answersOnce_of_ok (by simp only [errorCause, h, hr, Bool.false_eq_true, if_false])
        (execCfgWrite_of_readWrite v s h hr) rfl rfl (zext_lt (cfgStored r v) (by decide))

theorem answersOnce_ringStatus : AnswersOnce .ringStatus s := by
  have hp := s.ring.p.isLt
  have hc := s.ring.c.isLt
  have hs := s.ring.s.isLt
  have hflag := flagBit_le (ringFree s)
  exact answersOnce_of_ok rfl rfl rfl rfl (by simp only [zext]; omega)

theorem answersOnce_ringAcquire : AnswersOnce .ringAcquire s := by
  have hp := s.ring.p.isLt
  have hflag := flagBit_le (ringFree s)
  exact answersOnce_of_ok rfl rfl rfl rfl (by simp only [zext]; omega)

/-- RNG comes before OVR (rule R284). -/
theorem answersOnce_ringWrite (off : Nat) (x : Half) : AnswersOnce (.ringWrite off x) s := by
  rcases Nat.lt_or_ge off s.par.B with hlt | hge
  · have hin := Nat.not_le.mpr hlt
    by_cases hfull : s.ring.p = s.ring.c
    · exact answersOnce_of_reject ((if_neg hin).trans (if_pos hfull)) (execRingWrite_of_full x hlt hfull)
    · exact answersOnce_of_ok ((if_neg hin).trans (if_neg hfull)) (execRingWrite_of_free x hlt hfull) rfl rfl
        (by decide)
  · exact answersOnce_of_reject (if_pos hge) (execRingWrite_of_le x hge)

theorem answersOnce_ringReadmask (g : Nat) : AnswersOnce (.ringReadmask g) s := by
  rcases Nat.lt_or_ge (16 * g) s.par.B with hlt | hge
  · exact answersOnce_of_ok (if_neg (Nat.not_le.mpr hlt)) (execRingReadmask_of_lt hlt) rfl rfl
      ((maskBits_lt s _ g 16).trans (by decide))
  · exact answersOnce_of_reject (if_pos hge) (execRingReadmask_of_le hge)

/-- On a full ring the producer advances all the same, and its answer is not the bare E bit (rule R146). -/
theorem answersOnce_ringAdvance : AnswersOnce .ringAdvance s := by
  have hp := (nextSlot s.par.N s.ring.p).isLt
  by_cases hfull : s.ring.p = s.ring.c
  · exact answersOnce_of_next (if_pos hfull) (execRingAdvance_of_full hfull) (fun _ => rfl) rfl
      (by simp only [zext, Option.isSome_some, flagBit, Bool.toNat_true]; omega)
  · exact answersOnce_of_ok (if_neg hfull) (execRingAdvance_of_free hfull) rfl rfl (by simp only [zext]; omega)

theorem answersOnce_trigTake : AnswersOnce .trigTake s :=
  answersOnce_of_ok rfl rfl rfl rfl ((flagBit_le s.trig.fired).trans_lt (by decide))

theorem answersOnce_trigStatus : AnswersOnce .trigStatus s := by
  have hfired := flagBit_le s.trig.fired
  have hdetected := flagBit_le s.trig.detected
  have hdelay := s.trig.delay.isLt
  exact answersOnce_of_ok rfl rfl rfl rfl (by simp only [zext]; omega)

theorem answersOnce_adcRead (ch : Nat) : AnswersOnce (.adcRead ch) s := by
  rcases Nat.lt_or_ge ch 4 with hlt | hge
  · exact answersOnce_of_ok (if_neg (Nat.not_le.mpr hlt)) (execAdcRead_of_lt hlt s) rfl rfl
      (zext_lt s.scan.chValue[ch] (by decide))
  · exact answersOnce_of_reject (if_pos hge) (execAdcRead_of_le hge s)

theorem answersOnce_adcStatus : AnswersOnce .adcStatus s :=
  answersOnce_of_ok rfl rfl rfl rfl (zext_lt s.scan.phase (by decide))

/-- An advance answers flags and a step index below LEN (45_sequencer.md rule R212). -/
theorem answersOnce_seqMetaClock_of_advance (hlen : s.metaLen ≠ 0) (hdiv : max 1 s.metaDiv ≤ s.metaSeq.div.toNat + 1)
    (hrep : max 1 (s.stepRepeat s.metaSeq.idx.toNat) ≤ s.metaSeq.rep.toNat + 1) :
    AnswersOnce (.seqMetaClock true) s := by
  obtain ⟨n, dir, hnext⟩ : ∃ n dir, metaNext (metaRolled s) (nextRandom s.env) = (n, dir) := ⟨_, _, rfl⟩
  have hn : n < s.metaLen := by
    have hlt := metaNext_lt (metaRolled s) (nextRandom s.env) hlen
    rwa [hnext] at hlt
  have hlen_lt : s.metaLen < 2 ^ 7 := bits_lt _ 6 0
  have hexec := execSeqMetaClock_of_advance hlen hdiv hrep
  rw [metaAdvance_eq (s := metaRolled s) hnext] at hexec
  exact answersOnce_of_ok rfl hexec rfl rfl (by split <;> omega)

theorem answersOnce_seqMetaClock (b : Bool) : AnswersOnce (.seqMetaClock b) s := by
  by_cases hlen : s.metaLen = 0
  · exact answersOnce_of_ok rfl (execSeqMetaClock_of_inactive b hlen) rfl rfl (by decide)
  cases b with
  | false => exact answersOnce_of_ok rfl (execSeqMetaClock_of_untriggered hlen) rfl rfl (by decide)
  | true =>
    rcases Nat.lt_or_ge (s.metaSeq.div.toNat + 1) (max 1 s.metaDiv) with hcount | hroll
    · exact answersOnce_of_ok rfl (execSeqMetaClock_of_count hlen hcount) rfl rfl (by decide)
    rcases Nat.lt_or_ge (s.metaSeq.rep.toNat + 1) (max 1 (s.stepRepeat s.metaSeq.idx.toNat)) with hrepeat | hspent
    · exact answersOnce_of_ok rfl (execSeqMetaClock_of_repeat hlen hroll hrepeat) rfl rfl (by decide)
    · exact answersOnce_seqMetaClock_of_advance s hlen hroll hspent

theorem answersOnce_seqTmClock (b : Bool) : AnswersOnce (.seqTmClock b) s := by
  by_cases hlen : s.tmLen = 0
  · exact answersOnce_of_ok rfl (execSeqTmClock_of_inactive b hlen) rfl rfl (by decide)
  cases b with
  | false => exact answersOnce_of_ok rfl (execSeqTmClock_of_untriggered hlen) rfl rfl (by decide)
  | true =>
    rcases Nat.lt_or_ge (s.tmSeq.div.toNat + 1) (max 1 s.tmDiv) with hcount | hroll
    · exact answersOnce_of_ok rfl (execSeqTmClock_of_count hlen hcount) rfl rfl (by decide)
    rcases Nat.lt_or_ge (s.tmSeq.pos.toNat + 1) s.tmLen with hpos | hwrap
    · have hpos_lt := s.tmSeq.pos.isLt
      exact answersOnce_of_ok rfl (execSeqTmClock_of_lt hlen hroll hpos rfl) rfl rfl (by omega)
    · exact answersOnce_of_ok (n := 7) rfl (execSeqTmClock_of_wrap hlen hroll hwrap rfl) rfl rfl (by decide)

theorem answersOnce_seqMetaRead (sel : Nat) : AnswersOnce (.seqMetaRead sel) s := by
  have hidx := s.metaSeq.idx.isLt
  have hdir := flagBit_le s.metaSeq.dir
  have hrep := s.metaSeq.rep.isLt
  have hdiv := s.metaSeq.div.isLt
  match sel with
  | 0 => exact answersOnce_of_ok rfl rfl rfl rfl (zext_lt s.metaSeq.shape (by decide))
  | 1 => exact answersOnce_of_ok rfl rfl rfl rfl (zext_lt s.metaSeq.pitch (by decide))
  | 2 => exact answersOnce_of_ok rfl rfl rfl rfl (zext_lt s.metaSeq.aux (by decide))
  | 3 => exact answersOnce_of_ok rfl rfl rfl rfl (by simp only [zext]; omega)
  | k + 4 => exact answersOnce_of_reject (if_pos (e := none) (Nat.le_add_left 4 k)) rfl

theorem answersOnce_seqTmRead (sel : Nat) : AnswersOnce (.seqTmRead sel) s := by
  have hpos := s.tmSeq.pos.isLt
  have hdiv := s.tmSeq.div.isLt
  match sel with
  | 0 => exact answersOnce_of_ok rfl rfl rfl rfl (zext_lt s.tmSeq.pitch (by decide))
  | 1 => exact answersOnce_of_ok rfl rfl rfl rfl (bits_lt_of_le s.tmSeq.reg (by decide))
  | 2 => exact answersOnce_of_ok rfl rfl rfl rfl (bits_lt_of_le s.tmSeq.reg (by decide))
  | 3 => exact answersOnce_of_ok rfl rfl rfl rfl (by simp only [zext]; omega)
  | k + 4 => exact answersOnce_of_reject (if_pos (e := none) (Nat.le_add_left 4 k)) rfl

theorem answersOnce_mixRate (slot : Nat) (cv : Half) : AnswersOnce (.mixRate slot cv) s := by
  rcases Nat.lt_or_ge slot 2 with hlt | hge
  · obtain ⟨k, rfl⟩ : ∃ k : Fin 2, slot = k := ⟨⟨slot, hlt⟩, rfl⟩
    have hrate := (ratedSlot s k cv).rate.isLt
    have hatk := (ratedSlot s k cv).atk.isLt
    have hdec := (ratedSlot s k cv).dec.isLt
    have hkind := kindCode_le (s.slotKind k)
    exact answersOnce_of_ok (if_neg (Nat.not_le.mpr hlt)) exec_mixRate_of_slot rfl rfl (by omega)
  · exact answersOnce_of_reject (if_pos hge) (exec_mixRate_of_missing hge)

theorem answersOnce_mixLevel (slot : Nat) (level : Half) : AnswersOnce (.mixLevel slot level) s := by
  rcases Nat.lt_or_ge slot 2 with hlt | hge
  · obtain ⟨k, rfl⟩ : ∃ k : Fin 2, slot = k := ⟨⟨slot, hlt⟩, rfl⟩
    exact answersOnce_of_ok (if_neg (Nat.not_le.mpr hlt)) exec_mixLevel_of_slot rfl rfl (by decide)
  · exact answersOnce_of_reject (if_pos hge) (exec_mixLevel_of_missing hge)

theorem answersOnce_mixCombine : AnswersOnce .mixCombine s :=
  answersOnce_of_ok rfl rfl rfl rfl (zext_lt (mixCombined s).mix.gain (by decide))

theorem answersOnce_mixRead (sel : Nat) : AnswersOnce (.mixRead sel) s := by
  match sel with
  | 0 => exact answersOnce_of_ok rfl rfl rfl rfl (zext_lt s.mix.timbre (by decide))
  | 1 => exact answersOnce_of_ok rfl rfl rfl rfl (zext_lt s.mix.color (by decide))
  | 2 => exact answersOnce_of_ok rfl rfl rfl rfl (zext_lt s.mix.gain (by decide))
  | 3 => exact answersOnce_of_ok rfl rfl rfl rfl (bits_lt_of_le s.mix.vib (by decide))
  | 4 => exact answersOnce_of_ok rfl rfl rfl rfl (bits_lt_of_le s.mix.vib (by decide))
  | 5 => exact answersOnce_of_ok rfl rfl rfl rfl (slotPacked_lt (s.slot 0))
  | 6 => exact answersOnce_of_ok rfl rfl rfl rfl (slotPacked_lt (s.slot 1))
  | 7 => exact answersOnce_of_ok rfl rfl rfl rfl (zext_lt (s.slot 0).level (by decide))
  | 8 => exact answersOnce_of_ok rfl rfl rfl rfl (zext_lt (s.slot 1).level (by decide))
  | k + 9 => exact answersOnce_of_reject (if_pos (e := none) (Nat.le_add_left 9 k)) rfl

/-- Every command of the P-port raises the cause the table gives it, and answers once (rules R281, R282). -/
theorem answersOnce_of_port_P {i : Instr} (hport : i.port = .P) : AnswersOnce i s := by
  cases i with
  | nop => exact answersOnce_nop s
  | ringStatus => exact answersOnce_ringStatus s
  | ringAcquire => exact answersOnce_ringAcquire s
  | ringWrite off x => exact answersOnce_ringWrite s off x
  | ringReadmask g => exact answersOnce_ringReadmask s g
  | ringAdvance => exact answersOnce_ringAdvance s
  | errRead => exact answersOnce_errRead s
  | errClear mask => exact answersOnce_errClear s mask
  | trigTake => exact answersOnce_trigTake s
  | trigStatus => exact answersOnce_trigStatus s
  | adcRead ch => exact answersOnce_adcRead s ch
  | adcStatus => exact answersOnce_adcStatus s
  | cfgWrite a v => exact answersOnce_cfgWrite s a v
  | cfgRead a => exact answersOnce_cfgRead s a
  | seqMetaClock b => exact answersOnce_seqMetaClock s b
  | seqMetaRead sel => exact answersOnce_seqMetaRead s sel
  | seqTmClock b => exact answersOnce_seqTmClock s b
  | seqTmRead sel => exact answersOnce_seqTmRead s sel
  | mixRate slot cv => exact answersOnce_mixRate s slot cv
  | mixLevel slot level => exact answersOnce_mixLevel s slot level
  | mixCombine => exact answersOnce_mixCombine s
  | mixRead sel => exact answersOnce_mixRead s sel
  | tick g => cases hport

end

theorem eq_tick_of_port_T {i : Instr} (hport : i.port = .T) : ∃ g, i = .tick g := by
  cases i with
  | tick g => exact ⟨g, rfl⟩
  | _ => cases hport

/-- Settles O53: the commands of the P-port, and the one instruction of the T-port. -/
theorem errorsAreRaisedExactly : Obligations.ErrorsAreRaisedExactly := by
  intro i s
  cases hport : i.port with
  | P =>
    obtain ⟨t, hexec, herr, hanswer⟩ := answersOnce_of_port_P s hport
    exact ⟨t, hexec, herr, fun _ => hanswer, fun hT => Port.noConfusion hT⟩
  | T =>
    obtain ⟨g, rfl⟩ := eq_tick_of_port_T hport
    obtain ⟨t, hexec, herr, hnone⟩ := exec_tick_errors g s
    exact ⟨t, hexec, fun _ => herr, fun hP => Port.noConfusion hP, fun _ => hnone⟩

end Sys2Proof.Machine
end
